-- ==== Sys2Proof/Word.lean ====
section
/-! DEFINITION. The words of the block: registers are 32 bits, memory is bytes (00_scope.md R6). -/

namespace Sys2Proof

/-- The value of a register, a command word or a symbol (R6). -/
abbrev Word := BitVec 32

/-- One byte of the buffer memory (R10). -/
abbrev Byte := BitVec 8

/-- A bit string, first bit first (00_scope.md R8). -/
abbrev Bits := List Bool

end Sys2Proof
end

