-- ==== Sys2Proof/Config.lean ====
section
/-! DEFINITION. The implementation parameters (00_scope.md R5) and the free values: bytes the spec leaves
unspecified, which no proof can evaluate (93_implementation_defined.md U1 to U5, 'any value'). -/

namespace Sys2Proof

/-- The parameters of R5, which the model takes as arguments (92_eei_decisions.md D30). -/
structure Params where
  /-- MEM_BYTES: size of the buffer memory in bytes. -/
  memBytes : Nat
  /-- MAX_SYMS: most distinct symbols a table holds. -/
  maxSyms : Nat
  /-- MAX_CODE_LEN: longest code in bits a table holds. -/
  maxCodeLen : Nat
  /-- REG_BASE: bus address of the 4 KiB register region. -/
  regBase : Nat
  /-- MEM_BASE: bus address of the buffer memory. -/
  memBase : Nat
  deriving DecidableEq, Repr

namespace Params

/-- The legal ranges of R5 and its constraint MAX_SYMS · MAX_CODE_LEN ≤ 2^32 − 1. -/
abbrev Legal (c : Params) : Prop :=
  1 ≤ c.memBytes ∧ c.memBytes ≤ 2 ^ 32 ∧ 1 ≤ c.maxSyms ∧ 1 ≤ c.maxCodeLen ∧ c.maxCodeLen ≤ 64 ∧
    c.maxSyms * c.maxCodeLen ≤ 2 ^ 32 - 1

/-- The register region and the buffer memory do not share a bus address. PRESUMED of the platform (log 10). -/
abbrev Placed (c : Params) : Prop :=
  c.regBase + 0x1000 ≤ c.memBase ∨ c.memBase + c.memBytes ≤ c.regBase

/-- The values of 95_test_vectors.md (92 D30), with a placement on the bus. DESIGN CHOICE (log 1): the spec
leaves every one of these to the implementation or the platform. -/
def testVectors : Params :=
  { memBytes := 4096, maxSyms := 256, maxCodeLen := 32, regBase := 0, memBase := 0x1000 }

end Params

/-- FREE VALUE (log 2): what the byte at `addr` holds after the power-on reset number `epoch`, until something
is written there (70_reset_and_hazards.md R240: 'unspecified: each byte may hold any value'). -/
opaque Config.powerOnByte (epoch addr : Nat) : Byte

/-- FREE VALUE (log 6): the `n`-th unspecified byte drawn (20_memory.md R67, R68; 70_reset_and_hazards.md R241). -/
opaque Config.freeByte (n : Nat) : Byte

end Sys2Proof
end

