-- ==== Sys2Proof/Syntax.lean ====
section
/-! DEFINITION. The commands of the block (30_encoding.md R82), its registers by name (10_state.md R21) and the
host program statements (30_encoding.md R90, R91). -/

namespace Sys2Proof

/-- The eleven commands, one constructor per row of the opcode table (R82). Operands are registers, not fields
of the word (R80), so no constructor has an argument. -/
inductive Instr where
  | nop
  | mad
  | hufBuild
  | hufEncode
  | hufDecode
  | bitseqPack
  | bitseqUnpack
  | tblPack
  | tblUnpack
  | framePack
  | frameUnpack
  deriving DecidableEq, Repr

/-- The registers of the register map (10_state.md R21), by the spec's names. -/
inductive Reg where
  | id | version | ctrl | status | cmd | errinfo | nsym
  | arg0 | arg1 | arg2 | arg3 | arg4 | arg5
  | res0 | res1 | res2 | res3 | res4 | res5 | res6 | res7
  | blkP | blkQ | imgW | imgH | alpha
  | memsize | maxsyms | maxcodelen
  deriving DecidableEq, Repr

/-- An operand of a command statement: a number, or a register the host reads when it gets there (R91: 'RES0 is
the value HUF_ENCODE left in RES0, read by the host after its WAIT'). -/
inductive Operand where
  | imm (v : Nat)
  | reg (r : Reg)
  deriving DecidableEq, Repr

/-- The statements of a host program (R90). -/
inductive Stmt where
  /-- `SET reg, v` -/
  | set (r : Reg) (v : Nat)
  /-- `MEM8 a, v` -/
  | mem8 (a v : Nat)
  /-- `MEM16 a, v` -/
  | mem16 (a v : Nat)
  /-- `MEM32 a, v` -/
  | mem32 (a v : Nat)
  /-- `WAIT` -/
  | wait
  /-- `CLEAR` -/
  | clear
  /-- `MNEMONIC o0, …, ok` -/
  | command (i : Instr) (operands : List Operand)
  deriving DecidableEq, Repr

/-- The pseudo-commands (R91). -/
inductive Pseudo where
  | geom (p q w h : Nat)
  | thresh (v : Nat)
  | huff (src n dst : Nat)
  | zipframe (src n cbuf dst psrc k : Nat)
  | unzipframe (src len dst cap : Nat)
  deriving DecidableEq, Repr

end Sys2Proof
end

