-- ==== Sys2Proof/WellFormed.lean ====
section
/-! DEFINITION. Well-formed commands and host statements (30_encoding.md R80, R90; 20_memory.md R65). -/

namespace Sys2Proof

/-- A command has no fields, so every command is well formed: its one legal word is fixed (R80, R82). -/
def Instr.wf (_ : Instr) : Bool := true

/-- How many operands a command statement takes: as many as R84 lists ARG registers for it (R90). -/
def Instr.operandCount : Instr → Nat
  | .nop => 0
  | .mad => 4
  | .hufBuild => 2
  | .hufEncode => 3
  | .hufDecode => 4
  | .bitseqPack => 3
  | .bitseqUnpack => 2
  | .tblPack => 1
  | .tblUnpack => 2
  | .framePack => 5
  | .frameUnpack => 2

/-- A number fits a register (00_scope.md R9: v < 2^32); a register operand always does. -/
def Operand.wf : Operand → Bool
  | .imm v => v < 2 ^ 32
  | .reg _ => true

/-- A statement is well formed when its value fits its width, a buffer address is naturally aligned and inside
the memory (R65), and a command has exactly its operands (R90). -/
def Stmt.wf (c : Params) : Stmt → Bool
  | .set _ v => v < 2 ^ 32
  | .mem8 a v => v < 2 ^ 8 && a + 1 ≤ c.memBytes
  | .mem16 a v => v < 2 ^ 16 && a % 2 == 0 && a + 2 ≤ c.memBytes
  | .mem32 a v => v < 2 ^ 32 && a % 4 == 0 && a + 4 ≤ c.memBytes
  | .wait => true
  | .clear => true
  | .command i ops => i.wf && ops.length == i.operandCount && ops.all Operand.wf

end Sys2Proof
end

