-- ==== Sys2Proof/Decode.lean ====
section
/-! DEFINITION. The command word's decoder, total on every 32-bit word, and its encoder (30_encoding.md R80 to
R86, opcode_table.json). A command word is one register write: it has no bytes in memory and no length logic (R86). -/

namespace Sys2Proof

/-- Why a command word is illegal (R81, R83). Both complete with ILLEGAL_CMD. -/
inductive DecodeError where
  /-- RSVD, bits 31:8, is not 0. -/
  | reservedBits
  /-- OPC, bits 7:0, is in 0x0B..0xFF. -/
  | unassignedOpcode
  deriving DecidableEq, Repr

/-- The OPC field, bits 7:0 (R80). -/
def opcField (w : Word) : Nat := w.toNat % 2 ^ 8

/-- The RSVD field, bits 31:8 (R80). -/
def rsvdField (w : Word) : Nat := w.toNat / 2 ^ 8

/-- The command an opcode selects (R82). -/
def opcodeInstr : Nat → Option Instr
  | 0x00 => some .nop
  | 0x01 => some .mad
  | 0x02 => some .hufBuild
  | 0x03 => some .hufEncode
  | 0x04 => some .hufDecode
  | 0x05 => some .bitseqPack
  | 0x06 => some .bitseqUnpack
  | 0x07 => some .tblPack
  | 0x08 => some .tblUnpack
  | 0x09 => some .framePack
  | 0x0A => some .frameUnpack
  | _ => none

/-- Decoding (R81): 'every 32-bit word either selects one command or is illegal'. -/
def decode (w : Word) : Except DecodeError Instr :=
  if rsvdField w ≠ 0 then .error .reservedBits
  else
    match opcodeInstr (opcField w) with
    | some i => .ok i
    | none => .error .unassignedOpcode

/-- The command word of a command (R82's third column). -/
def encode : Instr → Word
  | .nop => 0x00000000#32
  | .mad => 0x00000001#32
  | .hufBuild => 0x00000002#32
  | .hufEncode => 0x00000003#32
  | .hufDecode => 0x00000004#32
  | .bitseqPack => 0x00000005#32
  | .bitseqUnpack => 0x00000006#32
  | .tblPack => 0x00000007#32
  | .tblUnpack => 0x00000008#32
  | .framePack => 0x00000009#32
  | .frameUnpack => 0x0000000A#32

/-- The command word whose low `nbits` bits are `w` and whose other bits are 0: the value of one CMD write. -/
def tableWord (nbits w : Nat) : Word := BitVec.ofNat 32 (w % 2 ^ nbits)

/-- What the decoder reads from a word of the opcode table's numbering: a command word is one 32-bit unit, so
bit 0 is bit 0 of the CMD write. -/
def decodeTableWord (nbits w : Nat) : Option Instr :=
  match decode (tableWord nbits w) with
  | .ok i => some i
  | .error _ => none

end Sys2Proof
end

