-- ==== Sys2Proof/Machine/State.lean ====
section
/-! DEFINITION. The state of the block as plain data (10_state.md R20 to R45), the outcome types of commands, the
ways a step can stop, and the state after power-on reset (70_reset_and_hazards.md R240). -/

namespace Sys2Proof.Machine

/-- The buffer memory (20_memory.md R60): the bytes written since power-on, by address, in ONE canonical form
(addresses strictly rising, `Memory.Wf`). An address that is not listed was not written since the power-on reset
number `epoch` and holds the free value `Config.powerOnByte epoch address` (R240, log 2). -/
structure Memory where
  cells : List Host.Cell
  epoch : Nat
  deriving DecidableEq, Repr

/-- One entry of the Huffman table memory (R40): SYM and CODE; LEN is the length of CODE. -/
structure Entry where
  sym : Word
  code : Bits
  deriving DecidableEq, Repr

/-- LEN of an entry (R40). -/
abbrev Entry.len (e : Entry) : Nat := e.code.length

/-- The entries E[0..NSYM−1] of a table, in order (R40). -/
abbrev Table := List Entry

/-- The engine phase (R43): Idle, or Busy. A Busy engine runs the command on the memory as it was at command start
(R25, R66), `start`; `disturbed` says that the host wrote buffer memory since then (20_memory.md R67). -/
inductive Phase where
  | idle
  | busy (start : Memory) (disturbed : Bool)
  deriving DecidableEq, Repr

/-- The operand registers ARG0..ARG5 (R28). -/
structure Args where
  a0 : Word := 0
  a1 : Word := 0
  a2 : Word := 0
  a3 : Word := 0
  a4 : Word := 0
  a5 : Word := 0
  deriving DecidableEq, Repr

/-- The result registers RES0..RES7 (R29). A register a command does not name is 0 (60_exceptions.md R213). -/
structure Results where
  r0 : Word := 0
  r1 : Word := 0
  r2 : Word := 0
  r3 : Word := 0
  r4 : Word := 0
  r5 : Word := 0
  r6 : Word := 0
  r7 : Word := 0
  deriving DecidableEq, Repr

/-- What a host bus write carries: a value, or the value the host's last read returned (R91). -/
inductive WriteData where
  | imm (v : Word)
  | lastRead
  deriving DecidableEq, Repr

/-- The direction of a host bus access. -/
inductive BusOp where
  | read
  | write (d : WriteData)
  deriving DecidableEq, Repr

/-- One host access: a bus address, a width in bytes and a direction (20_memory.md R65, R69). -/
structure BusAccess where
  addr : Nat
  width : Nat
  op : BusOp
  deriving DecidableEq, Repr

/-- Who moves next (60_exceptions.md R216: 'every run is an interleaving of those transitions'; log 3). -/
inductive Turn where
  /-- The engine: a Busy engine completes its command. -/
  | engine
  /-- The host makes one bus access. -/
  | bus (a : BusAccess)
  /-- The host reads STATUS until BUSY = 0 (the WAIT of 30_encoding.md R90). -/
  | poll
  /-- Power-on reset (R240). -/
  | powerOn
  deriving DecidableEq, Repr

/-- The state of the block. BUSY, TBL_VALID and NSYM are stored once, in `phase` and `table`, and read through
`State.status` and `readReg` (log 16). -/
structure State where
  /-- The parameters of 00_scope.md R5; no step changes them (log 1). -/
  cfg : Params
  /-- The buffer memory (R60). -/
  mem : Memory
  /-- The table memory (R40); absent when TBL_VALID = 0 (R42). -/
  table : Option Table
  /-- The engine phase (R43). -/
  phase : Phase
  /-- CTRL.IRQ_EN (R23). -/
  irqEn : Bool
  /-- STATUS.DONE (R24). -/
  done : Bool
  /-- STATUS.ERR (R24). -/
  err : Bool
  /-- STATUS.DROP (R24). -/
  drop : Bool
  /-- STATUS.ERRCODE (R24, R211). -/
  errCode : BitVec 8
  /-- STATUS.ERRCLASS (R24, R212). -/
  errClass : BitVec 2
  /-- ERRINFO (R26). -/
  errInfo : Word
  /-- CMD: the last accepted command word (R25). -/
  cmd : Word
  /-- ARG0..ARG5 (R28). -/
  args : Args
  /-- RES0..RES7 (R29). -/
  res : Results
  /-- BLK_P (R30). -/
  blkP : Word
  /-- BLK_Q (R30). -/
  blkQ : Word
  /-- IMG_W (R31). -/
  imgW : Word
  /-- IMG_H (R31). -/
  imgH : Word
  /-- ALPHA (R32). -/
  alpha : Word
  /-- The model's own: what the host's last read returned (log 5). -/
  busData : Word
  /-- The model's own: how many free bytes were drawn so far (log 6). -/
  draws : Nat
  /-- The model's own: the turns to come (log 3). -/
  inputs : List Turn
  deriving DecidableEq, Repr

/-- The error causes (60_exceptions.md R211). -/
inductive ErrKind where
  | illegalCmd | addrRange | noTable | tableFull | codeTooLong | symbolNotInTable | invalidCode | truncatedCode
  | dstOverflow | bitcountOverflow | truncated | badSelector | tableOrder | badOffsets | notPrefixFree
  | sizeMismatch | badGeometry | paletteRemainder | badFrameGeometry
  deriving DecidableEq, Repr

/-- `raise E(info)` (00_scope.md R11). -/
structure Raise where
  kind : ErrKind
  info : Nat
  deriving DecidableEq, Repr

/-- A computation that may raise (R11): the first raise reached ends it. -/
abbrev Try (α : Type) := Except Raise α

/-- The byte range [start, start + len) (00_scope.md R15). -/
structure Range where
  start : Nat
  len : Nat
  deriving DecidableEq, Repr

/-- The outcome `ok(writes, results, table')` of a command (R12). -/
structure Effect where
  writes : List Host.Cell
  results : Results
  table : Option Table
  deriving DecidableEq, Repr

/-- A command on a given state: whether it is one of the three that load the table (R214), the source ranges and the
destination range its rule names (00_scope.md R15), and its outcome (R12). -/
structure Plan where
  loadsTable : Bool
  sources : List Range
  dest : Range
  outcome : Try Effect

/-- Faults. -/
inductive Fault where
  /-- A host access at a bus address below MEM_BASE and outside the register region: no part of the block answers
  there (20_memory.md R61, R69). Raised by a host turn, never by a command. Safe (log 10). -/
  | unclaimedBusAddress
  deriving DecidableEq, Repr

/-- Refusals. -/
inductive Refusal where
  /-- An instruction the model gives no meaning. Raised by exec's refused arms only; there is none. Safe. -/
  | notModelled (mnemonic : String)
  /-- A host register access that is not an aligned 32-bit access has no defined effect (20_memory.md R65,
  92 D23, 93 U6). Raised by a host turn. Safe. -/
  | registerAccessForm
  /-- A host buffer access that is not 1, 2 or 4 bytes at a naturally aligned address has no defined effect (R65,
  92 D39, 93 U7). Raised by a host turn. Safe. -/
  | bufferAccessForm
  /-- A host buffer access that passes MEM_BYTES has no defined effect (R65, 93 U7). Raised by a host turn. Safe. -/
  | bufferAccessRange
  deriving DecidableEq, Repr

/-- The state after a power-on reset (R240), for given parameters; `epoch` counts the power-on resets before it.
The model's own fields start at 0 and empty (DESIGN CHOICE, logs 2, 3, 5, 6). -/
def State.powerOn (cfg : Params) (epoch : Nat) : State :=
  { cfg := cfg
    mem := { cells := [], epoch := epoch }
    table := none
    phase := .idle
    irqEn := false
    done := false
    err := false
    drop := false
    errCode := 0
    errClass := 0
    errInfo := 0
    cmd := 0
    args := {}
    res := {}
    blkP := 8
    blkQ := 8
    imgW := 0
    imgH := 0
    alpha := 0
    busData := 0
    draws := 0
    inputs := [] }

/-- The machine right after reset (R240), with the parameters of 95_test_vectors.md (log 1). -/
def State.reset : State := State.powerOn Params.testVectors 0

end Sys2Proof.Machine
end

