-- ==== Sys2Proof/Machine/Flags.lean ====
section
/-! DEFINITION. The status flags: STATUS and its fields (10_state.md R24, R35), error codes and classes
(60_exceptions.md R211, R212), the interrupt output (10_state.md R44) and MAD's threshold compare (40_metric.md R103). -/

namespace Sys2Proof.Machine

/-- ERRCODE of an error (R211). -/
def ErrKind.code : ErrKind → BitVec 8
  | .illegalCmd => 0x01
  | .addrRange => 0x02
  | .noTable => 0x03
  | .tableFull => 0x04
  | .codeTooLong => 0x05
  | .symbolNotInTable => 0x06
  | .invalidCode => 0x07
  | .truncatedCode => 0x08
  | .dstOverflow => 0x09
  | .bitcountOverflow => 0x0A
  | .truncated => 0x0B
  | .badSelector => 0x0C
  | .tableOrder => 0x0D
  | .badOffsets => 0x0E
  | .notPrefixFree => 0x0F
  | .sizeMismatch => 0x10
  | .badGeometry => 0x11
  | .paletteRemainder => 0x12
  | .badFrameGeometry => 0x13

/-- ERRCLASS of an error (R211's class column, R212): 1 Configuration, 2 Format, 3 Resource. -/
def ErrKind.cls : ErrKind → BitVec 2
  | .illegalCmd => 3
  | .addrRange => 3
  | .noTable => 3
  | .tableFull => 3
  | .codeTooLong => 3
  | .symbolNotInTable => 3
  | .invalidCode => 2
  | .truncatedCode => 2
  | .dstOverflow => 3
  | .bitcountOverflow => 3
  | .truncated => 2
  | .badSelector => 2
  | .tableOrder => 2
  | .badOffsets => 2
  | .notPrefixFree => 2
  | .sizeMismatch => 2
  | .badGeometry => 1
  | .paletteRemainder => 2
  | .badFrameGeometry => 2

/-- BUSY = 1 iff the engine phase is Busy (R43). -/
def State.isBusy (s : State) : Bool :=
  match s.phase with
  | .idle => false
  | .busy _ _ => true

/-- TBL_VALID = 1 iff the table memory holds a table (R42). -/
def State.tblValid (s : State) : Bool := s.table.isSome

/-- NSYM: the number of entries of the current table, 0 when there is none (R27). -/
def State.nsym (s : State) : Nat :=
  match s.table with
  | some t => t.length
  | none => 0

/-- The STATUS word (R24): BUSY 0, DONE 1, ERR 2, DROP 3, TBL_VALID 4, ERRCODE 15:8, ERRCLASS 17:16; the rest
reads 0. -/
def State.status (s : State) : Word :=
  BitVec.ofNat 32
    (s.isBusy.toNat + 2 * s.done.toNat + 4 * s.err.toNat + 8 * s.drop.toNat + 16 * s.tblValid.toNat +
      2 ^ 8 * s.errCode.toNat + 2 ^ 16 * s.errClass.toNat)

/-- The CTRL word (R23): IRQ_EN in bit 0; SOFT_RESET and the reserved bits read 0. -/
def State.ctrl (s : State) : Word := BitVec.ofNat 32 s.irqEn.toNat

/-- The interrupt output: IRQ = CTRL.IRQ_EN ∧ (STATUS.DONE ∨ STATUS.DROP) (R44). -/
def State.irq (s : State) : Bool := s.irqEn && (s.done || s.drop)

/-- A write of `w` to STATUS (R24): 'clears each of DONE, ERR, DROP whose bit in the written value is 1. It changes
nothing else, whether or not BUSY = 1.' -/
def State.clearStatus (w : Word) (s : State) : State :=
  { s with
    done := s.done && !w.getLsbD 1
    err := s.err && !w.getLsbD 2
    drop := s.drop && !w.getLsbD 3 }

/-- MAD's compare: LT = 1 if SAD · 2^16 < ALPHA · N, else 0 (40_metric.md R103), on the exact SAD. -/
def belowThreshold (sad n alpha : Nat) : Bool := decide (sad * 2 ^ 16 < alpha * n)

end Sys2Proof.Machine
end

