-- ==== Sys2Proof/Machine/Ops.lean ====
section
/-! DEFINITION. The named operations over memory and registers (00_scope.md R7, R10, R11), command start (10_state.md
R25), and the two completions (60_exceptions.md R213, R214): completion with an error is this block's 'trap entry'. -/

namespace Sys2Proof.Machine

/-! ## Numbers (R7) -/

/-- lo32(v) = v mod 2^32. -/
def lo32 (v : Nat) : Word := BitVec.ofNat 32 (v % 2 ^ 32)

/-- hi32(v) = (v div 2^32) mod 2^32. -/
def hi32 (v : Nat) : Word := BitVec.ofNat 32 (v / 2 ^ 32 % 2 ^ 32)

/-- ceil(a / 8): the bytes of a packed bit string of a bits (00_scope.md R15). -/
abbrev bytesOfBits (a : Nat) : Nat := (a + 7) / 8

/-- Σ_{i<n} f i. -/
def sumBelow (f : Nat → Nat) : Nat → Nat
  | 0 => 0
  | n + 1 => sumBelow f n + f n

/-- `if bad then raise r`. -/
def raiseIf (bad : Prop) [Decidable bad] (r : Raise) : Try Unit :=
  if bad then .error r else .ok ()

/-! ## Buffer memory (R10, R60) -/

/-- The byte listed for an address, if any. -/
def lookupCell : List Host.Cell → Nat → Option Byte
  | [], _ => none
  | (k, b) :: rest, a => if a = k then some b else lookupCell rest a

/-- Put a byte at an address, keeping the addresses strictly rising. -/
def insertCell : List Host.Cell → Nat → Byte → List Host.Cell
  | [], a, v => [(a, v)]
  | (k, b) :: rest, a, v =>
    if a < k then (a, v) :: (k, b) :: rest
    else if a = k then (a, v) :: rest
    else (k, b) :: insertCell rest a v

/-- The canonical form: addresses strictly rising, so no address is listed twice (log 2). -/
abbrev Memory.Wf (m : Memory) : Prop := (m.cells.map Prod.fst).Pairwise (· < ·)

/-- Every listed address is an address of the memory (R60: 0..MEM_BYTES−1). -/
abbrev Memory.Within (memBytes : Nat) (m : Memory) : Prop := ∀ c ∈ m.cells, c.1 < memBytes

/-- Mem[a] (R10). A byte not written since power-on holds an unspecified value (R240, log 2). -/
def Memory.byte (m : Memory) (a : Nat) : Byte :=
  (lookupCell m.cells a).getD (Config.powerOnByte m.epoch a)

/-- Mem[a] <- v. -/
def Memory.setByte (m : Memory) (a : Nat) (v : Byte) : Memory :=
  { m with cells := insertCell m.cells a v }

/-- The writes of a list, landing in list order (20_memory.md R66). -/
def Memory.setCells (m : Memory) : List Host.Cell → Memory
  | [] => m
  | c :: cs => (m.setByte c.1 c.2).setCells cs

/-- MemRead(a, n): the n-byte little-endian number at a (R10, 20_memory.md R62). -/
def Memory.read (m : Memory) (a : Nat) : Nat → Nat
  | 0 => 0
  | n + 1 => (m.byte a).toNat + 2 ^ 8 * m.read (a + 1) n

/-- LE(v, n): the n bytes of v, least significant first (42_serial.md R151). -/
def leBytes (v : Nat) : Nat → List Byte
  | 0 => []
  | n + 1 => BitVec.ofNat 8 (v % 2 ^ 8) :: leBytes (v / 2 ^ 8) n

/-- Bytes(a, n): the list Mem[a], …, Mem[a+n−1] (R10). -/
def Memory.bytes (m : Memory) (a : Nat) : Nat → List Byte
  | 0 => []
  | n + 1 => m.byte a :: m.bytes (a + 1) n

/-- `emit(a + t, y[t])` for each byte of a list (R12). -/
def emitAt (a : Nat) : List Byte → List Host.Cell
  | [] => []
  | y :: ys => (a, y) :: emitAt (a + 1) ys

/-- CheckRange(a, n): `if n > 0 and a + n > MEM_BYTES then raise ADDR_RANGE(lo32(a))` (R10, 92 D41). -/
def checkRange (c : Params) (a n : Nat) : Try Unit :=
  raiseIf (n > 0 ∧ a + n > c.memBytes) ⟨.addrRange, (lo32 a).toNat⟩

/-! ## Ranges (20_memory.md R68) -/

/-- The two ranges share a byte. -/
def Range.overlaps (r q : Range) : Bool :=
  0 < r.len && 0 < q.len && r.start < q.start + q.len && q.start < r.start + r.len

/-- `a` is a byte of the range. -/
abbrev Range.Has (r : Range) (a : Nat) : Prop := r.start ≤ a ∧ a < r.start + r.len

/-- The bytes of the range that the memory has. -/
def Range.clip (memBytes : Nat) (r : Range) : Range :=
  { r with len := min r.len (memBytes - r.start) }

/-- `n` free bytes from the draw number `k` on (log 6). -/
def freeBytes (k : Nat) : Nat → List Byte
  | 0 => []
  | n + 1 => Config.freeByte k :: freeBytes (k + 1) n

/-- Every byte of the range holds an unspecified value from now on: fresh free bytes (log 6, log 21). -/
def State.unspecify (s : State) (r : Range) : State :=
  let q := r.clip s.cfg.memBytes
  { s with
    mem := s.mem.setCells (emitAt q.start (freeBytes s.draws q.len))
    draws := s.draws + q.len }

/-- Every byte of each range holds an unspecified value from now on. -/
def State.unspecifyAll (s : State) : List Range → State
  | [] => s
  | r :: rs => (s.unspecify r).unspecifyAll rs

/-! ## What a command reads -/

/-- The memory a command reads: as it was when the command started (R66, 10_state.md R43). -/
def State.engineMem (s : State) : Memory :=
  match s.phase with
  | .idle => s.mem
  | .busy start _ => start

/-- The host wrote buffer memory while the command ran (20_memory.md R67). -/
def State.disturbed (s : State) : Bool :=
  match s.phase with
  | .idle => false
  | .busy _ d => d

/-- `require TBL_VALID` (R11), giving the table. -/
def State.requireTable (s : State) : Try Table :=
  match s.table with
  | some t => .ok t
  | none => .error ⟨.noTable, 0⟩

/-! ## Outcomes -/

/-- The outcome of a command that writes the bytes `y` at `dst`: `emit(dst + t, y[t])` for each t. -/
def storing (dst : Nat) (y : List Byte) (r : Results) : Effect :=
  { writes := emitAt dst y, results := r, table := none }

/-- The outcome of a command that writes no buffer memory. -/
def storingNothing (r : Results) (t : Option Table) : Effect := { writes := [], results := r, table := t }

/-- *Destination range:* none. -/
def noRange : Range := ⟨0, 0⟩

/-- The destination range [dst, dst + len) of a command. Where the command ends before the length is determined, the range
is taken to reach the end of the memory (log 8). -/
def State.destRange (s : State) (dst : Nat) (len : Try Nat) : Range :=
  match len with
  | .ok n => ⟨dst, n⟩
  | .error _ => ⟨dst, s.cfg.memBytes - dst⟩

/-! ## Command start and completion -/

/-- Command start (10_state.md R25): CMD <- w; DONE, ERR, ERRCODE, ERRCLASS, ERRINFO <- 0; BUSY <- 1. -/
def State.startCommand (w : Word) (s : State) : State :=
  { s with
    cmd := w
    done := false
    err := false
    errCode := 0
    errClass := 0
    errInfo := 0
    phase := .busy s.mem false }

/-- The memory part of a successful completion: the writes land in list order (R66), unless the destination
overlaps a source: then every destination byte is unspecified (R68). -/
def State.land (dest : Range) (sources : List Range) (e : Effect) (s : State) : State :=
  if sources.any dest.overlaps then s.unspecify dest
  else { s with mem := s.mem.setCells e.writes }

/-- If the host wrote buffer memory while the command ran, the bytes of the given ranges hold unspecified values
after completion (R67, logs 7 and 8). -/
def State.settle (ranges : List Range) (s : State) : State :=
  if s.disturbed then s.unspecifyAll ranges else s

/-- Successful completion (R213): the writes, the table if the rule names one, all eight results, BUSY <- 0,
DONE <- 1. ERR, ERRCODE, ERRCLASS and ERRINFO stay as command start set them. -/
def State.completeOk (dest : Range) (sources : List Range) (e : Effect) (s : State) : State :=
  let s1 := (s.land dest sources e).settle (dest :: sources)
  { s1 with
    table := e.table.or s.table
    res := e.results
    phase := .idle
    done := true }

/-- Completion with an error (R214), the 'trap entry' of this block: no buffer write; TBL_VALID and NSYM <- 0 for the
three table-loading commands; RES <- 0; ERRCODE, ERRCLASS, ERRINFO; ERR and DONE <- 1; BUSY <- 0. Control goes nowhere.
`ranges` are the command's destination and source ranges, which R67 leaves unspecified if the host wrote the buffer. -/
def State.raiseError (loadsTable : Bool) (ranges : List Range) (r : Raise) (s : State) : State :=
  let s1 := s.settle ranges
  { s1 with
    table := if loadsTable then none else s.table
    res := {}
    errCode := r.kind.code
    errClass := r.kind.cls
    errInfo := lo32 r.info
    err := true
    phase := .idle
    done := true }

/-- Return (60_exceptions.md R217): no return instruction exists. The host acknowledges a completion by writing 1 to
DONE and ERR in STATUS; ERRCODE, ERRCLASS and ERRINFO stay readable. -/
def State.acknowledge (s : State) : State := s.clearStatus 0x00000006#32

/-- The completion a plan leads to. -/
def State.complete (p : Plan) (s : State) : State :=
  match p.outcome with
  | .ok e => s.completeOk p.dest p.sources e
  | .error r => s.raiseError p.loadsTable (p.dest :: p.sources) r

/-- The plan of an illegal command word (30_encoding.md R81): it reads no operand and raises ILLEGAL_CMD(w). -/
def State.illegalPlan (s : State) : Plan :=
  { loadsTable := false, sources := [], dest := noRange, outcome := .error ⟨.illegalCmd, s.cmd.toNat⟩ }

end Sys2Proof.Machine
end

