-- ==== Sys2Proof/Machine/Operands.lean ====
section
/-! DEFINITION. The operands of commands (30_encoding.md R84, R85) and the data forms in buffer memory they name:
symbol sequences, packed bit strings (00_scope.md R10), counts and bit sequences (42_serial.md R150 to R153). -/

namespace Sys2Proof.Machine

/-! ## Operand registers: 'the 32-bit unsigned value of its register, used as a natural number' (R85) -/

/-- x[ARG0] -/
abbrev State.arg0 (s : State) : Nat := s.args.a0.toNat
/-- x[ARG1] -/
abbrev State.arg1 (s : State) : Nat := s.args.a1.toNat
/-- x[ARG2] -/
abbrev State.arg2 (s : State) : Nat := s.args.a2.toNat
/-- x[ARG3] -/
abbrev State.arg3 (s : State) : Nat := s.args.a3.toNat
/-- x[ARG4] -/
abbrev State.arg4 (s : State) : Nat := s.args.a4.toNat
/-- p = x[BLK_P] (10_state.md R30) -/
abbrev State.p (s : State) : Nat := s.blkP.toNat
/-- q = x[BLK_Q] (R30) -/
abbrev State.q (s : State) : Nat := s.blkQ.toNat
/-- W = x[IMG_W] (R31) -/
abbrev State.width (s : State) : Nat := s.imgW.toNat
/-- H = x[IMG_H] (R31) -/
abbrev State.height (s : State) : Nat := s.imgH.toNat
/-- α = x[ALPHA] (R32) -/
abbrev State.threshold (s : State) : Nat := s.alpha.toNat

/-! ## Sequences and bit strings -/

/-- The n u32 symbols at a: [ MemRead(a + 4·i, 4) : i < n ] (41_huffman.md R120, 92 D5). -/
def Memory.words (m : Memory) (a : Nat) : Nat → List Word
  | 0 => []
  | n + 1 => BitVec.ofNat 32 (m.read a 4) :: m.words (a + 4) n

/-- Bit(a, k): the k-th bit of a packed bit string, bit 7 − k mod 8 of byte k div 8 (00_scope.md R10, 20_memory.md
R63). -/
def Memory.bit (m : Memory) (a k : Nat) : Bool := (m.byte (a + k / 8)).getLsbD (7 - k % 8)

/-- [ Bit(a, k) : k < T ]. -/
def Memory.bits (m : Memory) (a T : Nat) : Bits := (List.range T).map (m.bit a)

/-- Byte t of a packed bit string: Σ_{u<8} bit(8t+u) · 2^(7−u), with padding bits 0 (42_serial.md R152). -/
def packByte (bs : Bits) (t : Nat) : Byte :=
  BitVec.ofNat 8 (sumBelow (fun u => (bs.getD (8 * t + u) false).toNat * 2 ^ (7 - u)) 8)

/-- Pack(bs): ceil(|bs|/8) bytes, first bit in bit 7 of the first byte (R152). -/
def pack (bs : Bits) : List Byte := (List.range (bytesOfBits bs.length)).map (packByte bs)

/-- The bytes of symbols, 4 each, little-endian (R156 (2), 41_huffman.md R130). -/
def symbolBytes : List Word → List Byte
  | [] => []
  | x :: xs => leBytes x.toNat 4 ++ symbolBytes xs

/-! ## Counts (R150, R151) -/

/-- Sel(v): the smallest of 1, 2, 4 bytes that holds v (R150). -/
def sel (v : Nat) : Nat := if v ≤ 0xFF then 1 else if v ≤ 0xFFFF then 2 else 4

/-- PutCount(v) = [Sel(v)] ++ LE(v, Sel(v)) (R151). -/
def putCount (v : Nat) : List Byte := BitVec.ofNat 8 (sel v) :: leBytes v (sel v)

/-- ReadCount(a, lim, off): value, offset after the count, width (R151). -/
def Memory.readCount (m : Memory) (a lim off : Nat) : Try (Nat × Nat × Nat) := do
  raiseIf (off + 1 > lim) ⟨.truncated, off⟩
  let w := m.read (a + off) 1
  raiseIf (w ≠ 1 ∧ w ≠ 2 ∧ w ≠ 4) ⟨.badSelector, off⟩
  raiseIf (off + 1 + w > lim) ⟨.truncated, off + 1⟩
  pure (m.read (a + off + 1) w, off + 1 + w, w)

/-! ## Bit sequences (R152, R153) -/

/-- BitSeqOf(bs) = PutCount(|bs|) ++ Pack(bs) (R152). -/
def bitSeqOf (bs : Bits) : List Byte := putCount bs.length ++ pack bs

/-- BitSeqBytes(a, T): the serialization of the T-bit packed string at a (R152). -/
def Memory.bitSeqBytes (m : Memory) (a T : Nat) : List Byte := bitSeqOf (m.bits a T)

/-- What ParseBitSeq returns (R153): bit count, payload offset, offset after the payload, count width. -/
structure BitSeq where
  count : Nat
  payload : Nat
  stop : Nat
  width : Nat
  deriving DecidableEq, Repr

/-- ParseBitSeq(a, lim, off) (R153). -/
def Memory.parseBitSeq (m : Memory) (a lim off : Nat) : Try BitSeq := do
  let (T, p, w) ← m.readCount a lim off
  raiseIf (p + bytesOfBits T > lim) ⟨.truncated, p⟩
  pure { count := T, payload := p, stop := p + bytesOfBits T, width := w }

end Sys2Proof.Machine
end

