-- ==== Sys2Proof/Machine/Huffman.lean ====
section
/-! DEFINITION. The Huffman coder: HUF_BUILD, HUF_ENCODE and HUF_DECODE (41_huffman.md R120 to R131). -/

namespace Sys2Proof.Machine

/-! ## The code construction (R121) -/

/-- freq(s): how often s occurs in seq (R121). -/
def freq (seq : List Word) (s : Word) : Nat := seq.count s

/-- Put a symbol into a strictly ascending list, once. -/
def insertSymbol (x : Word) : List Word → List Word
  | [] => [x]
  | y :: ys => if x.toNat < y.toNat then x :: y :: ys else if x = y then y :: ys else y :: insertSymbol x ys

/-- s_0 < s_1 < … < s_{m−1}: the distinct values of seq, ascending unsigned (R121). -/
def distinctSymbols : List Word → List Word
  | [] => []
  | x :: xs => insertSymbol x (distinctSymbols xs)

/-- The Huffman tree: a leaf holds the index of its symbol, an inner node no symbol (R14, R121). -/
inductive Tree where
  | leaf (i : Nat)
  | node (left right : Tree)
  deriving DecidableEq, Repr

/-- A tree fragment in the queue, with its key (freq, seq) (R121). -/
structure Fragment where
  freq : Nat
  seq : Nat
  tree : Tree
  deriving DecidableEq, Repr

/-- Keys compare lexicographically: (f, q) < (f', q') iff f < f', or f = f' and q < q' (R121). -/
def Fragment.before (a b : Fragment) : Bool := a.freq < b.freq || (a.freq == b.freq && a.seq < b.seq)

/-- Add a fragment to the queue, which is kept in key order, so the smallest key is first. -/
def enqueue (f : Fragment) : List Fragment → List Fragment
  | [] => [f]
  | g :: gs => if f.before g then f :: g :: gs else g :: enqueue f gs

/-- Q <- { Leaf(i) with key (freq(s_i), i) : i < m }, from index i on (R121). -/
def leafQueue (seq : List Word) (i : Nat) : List Word → List Fragment
  | [] => []
  | x :: xs => enqueue { freq := freq seq x, seq := i, tree := .leaf i } (leafQueue seq (i + 1) xs)

/-- The merge loop of R121: `fuel` merges, the next merged node getting the sequence number `next`. The first
fragment popped is the left child, the second the right child. -/
def mergeFragments : (fuel next : Nat) → List Fragment → List Fragment
  | 0, _, q => q
  | _ + 1, _, [] => []
  | _ + 1, _, [a] => [a]
  | fuel + 1, next, a :: b :: q =>
    mergeFragments fuel (next + 1)
      (enqueue { freq := a.freq + b.freq, seq := next, tree := .node a.tree b.tree } q)

/-- The path from the root to Leaf(i), "0" for a left edge, "1" for a right edge (R121, R122). -/
def Tree.path? (i : Nat) : Tree → Option Bits
  | .leaf j => if j = i then some [] else none
  | .node l r =>
    match l.path? i with
    | some u => some (false :: u)
    | none =>
      match r.path? i with
      | some u => some (true :: u)
      | none => none

/-- CODES[i] in the queue's only fragment (R121). -/
def codeOf (q : List Fragment) (i : Nat) : Bits :=
  match q with
  | [] => []
  | f :: _ => (f.tree.path? i).getD []

/-- The entries of the symbols from index i on, each with its path. -/
def pathEntries (q : List Fragment) (i : Nat) : List Word → Table
  | [] => []
  | x :: xs => { sym := x, code := codeOf q i } :: pathEntries q (i + 1) xs

/-- The longest code of a table, 0 when it is empty. -/
def maxLen : Table → Nat
  | [] => 0
  | e :: t => max e.len (maxLen t)

/-- Σ LEN[i]. -/
def totalLen : Table → Nat
  | [] => 0
  | e :: t => e.len + totalLen t

/-- E = Σ freq(SYM[i]) · LEN[i] (R120). -/
def encodedLen (seq : List Word) : Table → Nat
  | [] => 0
  | e :: t => freq seq e.sym * e.len + encodedLen seq t

/-- HuffmanCodes(seq) (R121), as the table's entries. -/
def huffmanCodes (c : Params) (seq : List Word) : Try Table :=
  let syms := distinctSymbols seq
  let m := syms.length
  if m > c.maxSyms then .error ⟨.tableFull, m⟩
  else
    match syms with
    | [] => .ok []
    | [x] => .ok [{ sym := x, code := [false] }]
    | syms =>
      let t := pathEntries (mergeFragments (m - 1) m (leafQueue seq 0 syms)) 0 syms
      if maxLen t > c.maxCodeLen then .error ⟨.codeTooLong, maxLen t⟩ else .ok t

/-! ## HUF_BUILD (R120) -/

/-- HUF_BUILD (R120). -/
def hufBuildPlan (s : State) : Plan :=
  let (src, n) := (s.arg0, s.arg1)
  { loadsTable := true
    sources := [⟨src, 4 * n⟩]
    dest := noRange
    outcome := do
      checkRange s.cfg src (4 * n)
      let seq := s.engineMem.words src n
      let t ← huffmanCodes s.cfg seq
      let e := encodedLen seq t
      pure (storingNothing
        { r0 := lo32 t.length, r1 := lo32 (totalLen t), r2 := lo32 (maxLen t), r3 := lo32 e, r4 := hi32 e }
        (some t)) }

/-- HUF_BUILD: build the Huffman table of a symbol sequence (R120). -/
def execHufBuild (s : State) : Host.Outcome State Fault Refusal := .next (s.complete (hufBuildPlan s))

/-! ## HUF_ENCODE (R124 to R126) -/

/-- Lookup(s): the entry with symbol s, or none (R125). -/
def Table.lookup (x : Word) : Table → Option Entry
  | [] => none
  | e :: t => if e.sym = x then some e else Table.lookup x t

/-- CODE[j_0] ++ … ++ CODE[j_{n−1}] (R124, R126); `i` is the index of the first symbol of the list. -/
def encodeSymbols (t : Table) (i : Nat) : List Word → Try Bits
  | [] => .ok []
  | x :: xs =>
    match t.lookup x with
    | none => .error ⟨.symbolNotInTable, i⟩
    | some e =>
      match encodeSymbols t (i + 1) xs with
      | .error r => .error r
      | .ok bs => .ok (e.code ++ bs)

/-- HUF_ENCODE up to Bs, the code bits (R126). -/
def State.encodedBits (s : State) : Try Bits := do
  let t ← s.requireTable
  checkRange s.cfg s.arg0 (4 * s.arg1)
  encodeSymbols t 0 (s.engineMem.words s.arg0 s.arg1)

/-- HUF_ENCODE (R126). -/
def hufEncodePlan (s : State) : Plan :=
  let (src, n, dst) := (s.arg0, s.arg1, s.arg2)
  { loadsTable := false
    sources := [⟨src, 4 * n⟩]
    dest := s.destRange dst (s.encodedBits.map fun bs => bytesOfBits bs.length)
    outcome := do
      let bs ← s.encodedBits
      raiseIf (bs.length > 2 ^ 32 - 1) ⟨.bitcountOverflow, 0⟩
      checkRange s.cfg dst (bytesOfBits bs.length)
      pure (storing dst (pack bs) { r0 := lo32 bs.length, r1 := lo32 (bytesOfBits bs.length) }) }

/-- HUF_ENCODE: Huffman-encode a symbol sequence into a packed bit string (R126). -/
def execHufEncode (s : State) : Host.Outcome State Fault Refusal := .next (s.complete (hufEncodePlan s))

/-! ## HUF_DECODE (R130, R131) -/

/-- The node w is in the code tree: w is a prefix of some code (R131). -/
def Table.hasNode (t : Table) (w : Bits) : Bool := t.any fun e => w.isPrefixOf e.code

/-- The entry whose code is w: w is a leaf (R131). -/
def Table.leafAt (w : Bits) : Table → Option Entry
  | [] => none
  | e :: t => if e.code = w then some e else Table.leafAt w t

/-- The walk of R131: at bit k, at node w, inside the code that began at bit `start`. -/
def walkBits (t : Table) (k start : Nat) (w : Bits) : Bits → Try (List Word)
  | [] => if w = [] then .ok [] else .error ⟨.truncatedCode, start⟩
  | b :: bs =>
    if t.hasNode (w ++ [b]) then
      match t.leafAt (w ++ [b]) with
      | some e =>
        match walkBits t (k + 1) (k + 1) [] bs with
        | .error r => .error r
        | .ok out => .ok (e.sym :: out)
      | none => walkBits t (k + 1) start (w ++ [b]) bs
    else .error ⟨.invalidCode, k⟩

/-- DecodeBits(src, T) (R131), on the bits. -/
def decodeBits (t : Table) (bs : Bits) : Try (List Word) := walkBits t 0 0 [] bs

/-- HUF_DECODE up to out, the decoded symbols (R130). -/
def State.decodedSymbols (s : State) : Try (List Word) := do
  let t ← s.requireTable
  checkRange s.cfg s.arg0 (bytesOfBits s.arg1)
  decodeBits t (s.engineMem.bits s.arg0 s.arg1)

/-- HUF_DECODE (R130). -/
def hufDecodePlan (s : State) : Plan :=
  let (src, T, dst, cap) := (s.arg0, s.arg1, s.arg2, s.arg3)
  { loadsTable := false
    sources := [⟨src, bytesOfBits T⟩]
    dest := s.destRange dst (s.decodedSymbols.map fun out => 4 * out.length)
    outcome := do
      let out ← s.decodedSymbols
      raiseIf (out.length > cap) ⟨.dstOverflow, out.length⟩
      checkRange s.cfg dst (4 * out.length)
      pure (storing dst (symbolBytes out) { r0 := lo32 out.length }) }

/-- HUF_DECODE: decode a packed bit string into a symbol sequence (R130). -/
def execHufDecode (s : State) : Host.Outcome State Fault Refusal := .next (s.complete (hufDecodePlan s))

end Sys2Proof.Machine
end

