-- ==== Sys2Proof/Machine/Serial.lean ====
section
/-! DEFINITION. Bit-sequence and table serialization: BITSEQ_PACK, BITSEQ_UNPACK, TBL_PACK, TBL_UNPACK (42_serial.md
R156 to R167). -/

namespace Sys2Proof.Machine

/-! ## The table format (R156, R157) -/

/-- CODE[0] ++ CODE[1] ++ … (R156). -/
def allCodes : Table → Bits
  | [] => []
  | e :: t => e.code ++ allCodes t

/-- The bytes of the symbols, 4 each (R156 (2)). -/
def tableSymbolBytes (t : Table) : List Byte := symbolBytes (t.map Entry.sym)

/-- LE(o_0, w) ++ … ++ LE(o_m, w), the first offset being o (R156 (4)). -/
def offsetBytes (w o : Nat) : Table → List Byte
  | [] => leBytes o w
  | e :: t => leBytes o w ++ offsetBytes w (o + e.len) t

/-- TableBytes() (R156). -/
def tableBytes (t : Table) : List Byte :=
  let codes := allCodes t
  putCount t.length ++ tableSymbolBytes t ++ bitSeqOf codes ++ offsetBytes (sel codes.length) 0 t

/-- `for i: if S_i ≤ S_{i−1} then raise TABLE_ORDER(p + 4·i)` (R157); `i` is the index of the second symbol. -/
def checkOrder (p i : Nat) : List Word → Try Unit
  | x :: y :: rest => do
    raiseIf (y.toNat ≤ x.toNat) ⟨.tableOrder, p + 4 * i⟩
    checkOrder p (i + 1) (y :: rest)
  | _ => .ok ()

/-- The n offsets of width w at a: MemRead(a + w·j, w) (R157). -/
def Memory.offsets (m : Memory) (a w : Nat) : Nat → List Nat
  | 0 => []
  | n + 1 => m.read a w :: m.offsets (a + w) w n

/-- The loop over the offsets of R157: strictly increasing, by at most MAX_CODE_LEN; `j` is the index of the second
offset. -/
def checkSteps (c : Params) (r w j : Nat) : List Nat → Try Unit
  | x :: y :: rest => do
    raiseIf (y ≤ x) ⟨.badOffsets, r + w * j⟩
    raiseIf (y - x > c.maxCodeLen) ⟨.codeTooLong, y - x⟩
    checkSteps c r w (j + 1) (y :: rest)
  | _ => .ok ()

/-- SYM'[i], CODE'[i] <- C[o_i .. o_{i+1}) (R157). -/
def cutEntries (codes : Bits) : List Word → List Nat → Table
  | x :: xs, o :: o' :: os => { sym := x, code := (codes.drop o).take (o' - o) } :: cutEntries codes xs (o' :: os)
  | _, _ => []

/-- One of the strings is a prefix of the other (00_scope.md R8). -/
def prefixRelated (u w : Bits) : Bool := u.isPrefixOf w || w.isPrefixOf u

/-- `for j: if some i < j has CODE'[i] and CODE'[j] prefix-related then raise NOT_PREFIX_FREE(j)` (R157); `before`
holds the entries below j. -/
def checkPrefixFree (j : Nat) (before : Table) : Table → Try Unit
  | [] => .ok ()
  | e :: rest => do
    raiseIf (before.any (fun d => prefixRelated d.code e.code) = true) ⟨.notPrefixFree, j⟩
    checkPrefixFree (j + 1) (before ++ [e]) rest

/-- ParseTable(a, lim, off) (R157): the table and the offset after it. -/
def Memory.parseTable (c : Params) (mem : Memory) (a lim off : Nat) : Try (Table × Nat) := do
  let (m, p, _) ← mem.readCount a lim off
  raiseIf (m > c.maxSyms) ⟨.tableFull, m⟩
  raiseIf (p + 4 * m > lim) ⟨.truncated, p⟩
  let syms := mem.words (a + p) m
  checkOrder p 1 syms
  let b ← mem.parseBitSeq a lim (p + 4 * m)
  let codes := mem.bits (a + b.payload) b.count
  raiseIf (b.stop + b.width * (m + 1) > lim) ⟨.truncated, b.stop⟩
  let offs := mem.offsets (a + b.stop) b.width (m + 1)
  raiseIf (offs.headD 0 ≠ 0) ⟨.badOffsets, b.stop⟩
  checkSteps c b.stop b.width 1 offs
  raiseIf (offs.getLastD 0 ≠ b.count) ⟨.badOffsets, b.stop + b.width * m⟩
  let t := cutEntries codes syms offs
  checkPrefixFree 0 [] t
  pure (t, b.stop + b.width * (m + 1))

/-! ## BITSEQ_PACK (R160) -/

/-- BITSEQ_PACK (R160). -/
def bitseqPackPlan (s : State) : Plan :=
  let (src, T, dst) := (s.arg0, s.arg1, s.arg2)
  { loadsTable := false
    sources := [⟨src, bytesOfBits T⟩]
    dest := ⟨dst, 1 + sel T + bytesOfBits T⟩
    outcome := do
      checkRange s.cfg src (bytesOfBits T)
      let y := s.engineMem.bitSeqBytes src T
      checkRange s.cfg dst y.length
      pure (storing dst y { r0 := lo32 y.length }) }

/-- BITSEQ_PACK: serialize a packed bit string with its length prefix (R160). -/
def execBitseqPack (s : State) : Host.Outcome State Fault Refusal := .next (s.complete (bitseqPackPlan s))

/-! ## BITSEQ_UNPACK (R161) -/

/-- BITSEQ_UNPACK (R161). -/
def bitseqUnpackPlan (s : State) : Plan :=
  let (src, len) := (s.arg0, s.arg1)
  { loadsTable := false
    sources := [⟨src, len⟩]
    dest := noRange
    outcome := do
      checkRange s.cfg src len
      let b ← s.engineMem.parseBitSeq src len 0
      pure (storingNothing { r0 := lo32 b.count, r1 := lo32 b.stop, r2 := lo32 (src + b.payload) } none) }

/-- BITSEQ_UNPACK: parse a serialized bit sequence (R161). -/
def execBitseqUnpack (s : State) : Host.Outcome State Fault Refusal := .next (s.complete (bitseqUnpackPlan s))

/-! ## TBL_PACK (R166) -/

/-- TBL_PACK (R166). -/
def tblPackPlan (s : State) : Plan :=
  let dst := s.arg0
  { loadsTable := false
    sources := []
    dest := s.destRange dst (s.requireTable.map fun t => (tableBytes t).length)
    outcome := do
      let t ← s.requireTable
      let y := tableBytes t
      checkRange s.cfg dst y.length
      pure (storing dst y { r0 := lo32 y.length }) }

/-- TBL_PACK: serialize the current Huffman table (R166). -/
def execTblPack (s : State) : Host.Outcome State Fault Refusal := .next (s.complete (tblPackPlan s))

/-! ## TBL_UNPACK (R167) -/

/-- TBL_UNPACK (R167). -/
def tblUnpackPlan (s : State) : Plan :=
  let (src, len) := (s.arg0, s.arg1)
  { loadsTable := true
    sources := [⟨src, len⟩]
    dest := noRange
    outcome := do
      checkRange s.cfg src len
      let (t, e) ← s.engineMem.parseTable s.cfg src len 0
      pure (storingNothing { r0 := lo32 e, r1 := lo32 t.length } (some t)) }

/-- TBL_UNPACK: load a Huffman table from its serialization (R167). -/
def execTblUnpack (s : State) : Host.Outcome State Fault Refusal := .next (s.complete (tblUnpackPlan s))

end Sys2Proof.Machine
end

