-- ==== Sys2Proof/Machine/Frame.lean ====
section
/-! DEFINITION. The compressed-file frame: FRAME_PACK and FRAME_UNPACK (43_frame.md R180 to R185). -/

namespace Sys2Proof.Machine

/-- p = 0, q = 0, W mod q ≠ 0 or H mod p ≠ 0: the geometry both commands refuse (R182, R185, 92 D18). -/
abbrev BadGeometry (p q w h : Nat) : Prop := p = 0 ∨ q = 0 ∨ w % q ≠ 0 ∨ h % p ≠ 0

/-- The frame's bytes (R180, R182): S, the Huffman blob, p, q, imageWidth, imageHeight, the palette. -/
def frameBytes (blob : List Byte) (p q w h : Nat) (palette : List Byte) : List Byte :=
  leBytes blob.length 4 ++ blob ++ leBytes p 4 ++ leBytes q 4 ++ leBytes w 4 ++ leBytes h 4 ++ palette

/-- FRAME_PACK (R182). -/
def framePackPlan (s : State) : Plan :=
  let (dst, csrc, T, psrc, k) := (s.arg0, s.arg1, s.arg2, s.arg3, s.arg4)
  let (p, q, w, h) := (s.p, s.q, s.width, s.height)
  let b := 3 * p * q
  { loadsTable := false
    sources := [⟨csrc, bytesOfBits T⟩, ⟨psrc, k * b⟩]
    dest := s.destRange dst (s.requireTable.map fun t =>
      20 + ((tableBytes t).length + (1 + sel T + bytesOfBits T)) + k * b)
    outcome := do
      let t ← s.requireTable
      raiseIf (BadGeometry p q w h) ⟨.badGeometry, 0⟩
      checkRange s.cfg csrc (bytesOfBits T)
      checkRange s.cfg psrc (k * b)
      let blob := tableBytes t ++ s.engineMem.bitSeqBytes csrc T
      checkRange s.cfg dst (20 + blob.length + k * b)
      let f := frameBytes blob p q w h (s.engineMem.bytes psrc (k * b))
      pure (storing dst f { r0 := lo32 f.length, r1 := lo32 blob.length }) }

/-- FRAME_PACK: build a complete frame (R182). -/
def execFramePack (s : State) : Host.Outcome State Fault Refusal := .next (s.complete (framePackPlan s))

/-- FRAME_UNPACK (R185). -/
def frameUnpackPlan (s : State) : Plan :=
  let (src, len) := (s.arg0, s.arg1)
  let m := s.engineMem
  { loadsTable := true
    sources := [⟨src, len⟩]
    dest := noRange
    outcome := do
      checkRange s.cfg src len
      raiseIf (len < 4) ⟨.truncated, 0⟩
      let blobLen := m.read src 4
      raiseIf (4 + blobLen > len) ⟨.truncated, 4⟩
      let (t, off) ← m.parseTable s.cfg src (4 + blobLen) 4
      let b ← m.parseBitSeq src (4 + blobLen) off
      raiseIf (b.stop ≠ 4 + blobLen) ⟨.sizeMismatch, b.stop⟩
      let h := 4 + blobLen
      raiseIf (h + 16 > len) ⟨.truncated, h⟩
      let p := m.read (src + h) 4
      let q := m.read (src + h + 4) 4
      let w := m.read (src + h + 8) 4
      let ht := m.read (src + h + 12) 4
      raiseIf (BadGeometry p q w ht) ⟨.badFrameGeometry, h⟩
      let rest := len - (h + 16)
      raiseIf (rest % (3 * p * q) ≠ 0) ⟨.paletteRemainder, h + 16⟩
      pure (storingNothing
        { r0 := lo32 (src + b.payload), r1 := lo32 b.count, r2 := lo32 (src + h + 16),
          r3 := lo32 (rest / (3 * p * q)), r4 := lo32 p, r5 := lo32 q, r6 := lo32 w, r7 := lo32 ht }
        (some t)) }

/-- FRAME_UNPACK: parse and check a frame, and load its table (R185). -/
def execFrameUnpack (s : State) : Host.Outcome State Fault Refusal := .next (s.complete (frameUnpackPlan s))

end Sys2Proof.Machine
end

