-- ==== Sys2Proof/Machine/Metric.lean ====
section
/-! DEFINITION. The block distance metric, command MAD (40_metric.md R100 to R103). -/

namespace Sys2Proof.Machine

/-- |x − y| of two channel values. -/
def absDiff (x y : Nat) : Nat := ((x : Int) - (y : Int)).natAbs

/-- Pix(base, stride, r, c, k) = MemRead(base + r·stride + 3·c + k, 1) (R101). -/
def Memory.pix (m : Memory) (base stride r c k : Nat) : Nat := m.read (base + r * stride + 3 * c + k) 1

/-- SAD: Σ_{r<p} Σ_{c<q} Σ_{k<3} |Pix(a, sa, r, c, k) − Pix(b, sb, r, c, k)| (R100, R103). -/
def Memory.sad (m : Memory) (a sa b sb p q : Nat) : Nat :=
  sumBelow (fun r => sumBelow (fun c => sumBelow (fun k =>
    absDiff (m.pix a sa r c k) (m.pix b sb r c k)) 3) q) p

/-- `for r in r0 .. r0+n−1: CheckRange(base + r·stride, len)`: the smallest failing r is reported (R103). -/
def checkRows (c : Params) (base stride len : Nat) (r0 : Nat) : Nat → Try Unit
  | 0 => .ok ()
  | n + 1 => do
    checkRange c (base + r0 * stride) len
    checkRows c base stride len (r0 + 1) n

/-- The rows of an operand: for each r < p, the bytes at base + r·stride (R103). -/
def rowRanges (base stride len p : Nat) : List Range :=
  (List.range p).map fun r => ⟨base + r * stride, len⟩

/-- MAD (R103): operands, checks in order, SAD, N, MADQ, LT. -/
def madPlan (s : State) : Plan :=
  let (p, q, a, sa, b, sb) := (s.p, s.q, s.arg0, s.arg1, s.arg2, s.arg3)
  { loadsTable := false
    sources := rowRanges a sa (3 * q) p ++ rowRanges b sb (3 * q) p
    dest := noRange
    outcome := do
      raiseIf (p = 0 ∨ q = 0 ∨ 3 * p * q > 2 ^ 32 - 1) ⟨.badGeometry, 0⟩
      checkRows s.cfg a sa (3 * q) 0 p
      checkRows s.cfg b sb (3 * q) 0 p
      let sad := s.engineMem.sad a sa b sb p q
      let n := 3 * p * q
      let madq := sad * 2 ^ 16 / n
      let lt := (belowThreshold sad n s.threshold).toNat
      pure (storingNothing
        { r0 := lo32 sad, r1 := hi32 sad, r2 := lo32 n, r3 := lo32 madq, r4 := lo32 lt } none) }

/-- MAD: block distance and threshold compare (R103). -/
def execMad (s : State) : Host.Outcome State Fault Refusal := .next (s.complete (madPlan s))

end Sys2Proof.Machine
end

