-- ==== Sys2Proof/Machine/System.lean ====
section
/-! DEFINITION. The system command NOP (44_system.md R200). -/

namespace Sys2Proof.Machine

/-- NOP (R200): no operand, no range, no named result. -/
def nopPlan (_ : State) : Plan :=
  { loadsTable := false, sources := [], dest := noRange, outcome := .ok (storingNothing {} none) }

/-- NOP: complete without effect (R200). -/
def execNop (s : State) : Host.Outcome State Fault Refusal := .next (s.complete (nopPlan s))

end Sys2Proof.Machine
end

