-- ==== Sys2Proof/Machine/Bus.lean ====
section
/-! DEFINITION. The host's side: the register map (10_state.md R21 to R32), host register and buffer accesses
(20_memory.md R65, R67), soft reset (70_reset_and_hazards.md R241) and power-on reset (R240). -/

namespace Sys2Proof.Machine

/-! ## The running command -/

/-- The plan of each command. -/
def commandPlan (i : Instr) (s : State) : Plan :=
  match i with
  | .nop => nopPlan s
  | .mad => madPlan s
  | .hufBuild => hufBuildPlan s
  | .hufEncode => hufEncodePlan s
  | .hufDecode => hufDecodePlan s
  | .bitseqPack => bitseqPackPlan s
  | .bitseqUnpack => bitseqUnpackPlan s
  | .tblPack => tblPackPlan s
  | .tblUnpack => tblUnpackPlan s
  | .framePack => framePackPlan s
  | .frameUnpack => frameUnpackPlan s

/-- The plan of the command word in CMD (R25, R81). -/
def State.runningPlan (s : State) : Plan :=
  match decode s.cmd with
  | .ok i => commandPlan i s
  | .error _ => s.illegalPlan

/-- The completion of an illegal command (R81, R83): ILLEGAL_CMD(w). -/
def execIllegal (s : State) : Host.Outcome State Fault Refusal := .next (s.complete s.illegalPlan)

/-! ## The register map (R21) -/

/-- The offset of a register from REG_BASE (R21). -/
def regOffset : Reg → Nat
  | .id => 0x000
  | .version => 0x004
  | .ctrl => 0x008
  | .status => 0x00C
  | .cmd => 0x010
  | .errinfo => 0x014
  | .nsym => 0x018
  | .arg0 => 0x020
  | .arg1 => 0x024
  | .arg2 => 0x028
  | .arg3 => 0x02C
  | .arg4 => 0x030
  | .arg5 => 0x034
  | .res0 => 0x040
  | .res1 => 0x044
  | .res2 => 0x048
  | .res3 => 0x04C
  | .res4 => 0x050
  | .res5 => 0x054
  | .res6 => 0x058
  | .res7 => 0x05C
  | .blkP => 0x060
  | .blkQ => 0x064
  | .imgW => 0x068
  | .imgH => 0x06C
  | .alpha => 0x070
  | .memsize => 0x080
  | .maxsyms => 0x084
  | .maxcodelen => 0x088

/-- The registers of the map. -/
def allRegs : List Reg :=
  [.id, .version, .ctrl, .status, .cmd, .errinfo, .nsym, .arg0, .arg1, .arg2, .arg3, .arg4, .arg5] ++
    [.res0, .res1, .res2, .res3, .res4, .res5, .res6, .res7, .blkP, .blkQ, .imgW, .imgH, .alpha] ++
    [.memsize, .maxsyms, .maxcodelen]

/-- The register at an offset; none at a reserved offset (R21). -/
def regAt (off : Nat) : Option Reg := allRegs.find? fun r => regOffset r == off

/-- x[NAME] as the host reads it (R9, R21 to R32). -/
def State.readReg (s : State) : Reg → Word
  | .id => 0x4D5A4950#32
  | .version => 0x00000001#32
  | .ctrl => s.ctrl
  | .status => s.status
  | .cmd => s.cmd
  | .errinfo => s.errInfo
  | .nsym => BitVec.ofNat 32 s.nsym
  | .arg0 => s.args.a0
  | .arg1 => s.args.a1
  | .arg2 => s.args.a2
  | .arg3 => s.args.a3
  | .arg4 => s.args.a4
  | .arg5 => s.args.a5
  | .res0 => s.res.r0
  | .res1 => s.res.r1
  | .res2 => s.res.r2
  | .res3 => s.res.r3
  | .res4 => s.res.r4
  | .res5 => s.res.r5
  | .res6 => s.res.r6
  | .res7 => s.res.r7
  | .blkP => s.blkP
  | .blkQ => s.blkQ
  | .imgW => s.imgW
  | .imgH => s.imgH
  | .alpha => s.alpha
  | .memsize => BitVec.ofNat 32 s.cfg.memBytes
  | .maxsyms => BitVec.ofNat 32 s.cfg.maxSyms
  | .maxcodelen => BitVec.ofNat 32 s.cfg.maxCodeLen

/-- The read of an offset: 'every offset … not listed is reserved: it reads as 0' (R21). -/
def State.readOffset (s : State) (off : Nat) : Word :=
  match regAt off with
  | some r => s.readReg r
  | none => 0

/-! ## Resets -/

/-- Soft reset (R241): every register takes its reset value, the table becomes invalid, the engine Idle. The buffer
memory is kept, but for the destination bytes of a running command that would have succeeded. -/
def State.softReset (s : State) : State :=
  let s1 :=
    if s.isBusy then
      match s.runningPlan.outcome with
      | .ok _ => s.unspecify s.runningPlan.dest
      | .error _ => s
    else s
  { State.powerOn s.cfg s.mem.epoch with
    mem := s1.mem
    draws := s1.draws
    busData := s.busData
    inputs := s.inputs }

/-- Power-on reset (R240): the buffer memory holds new unspecified bytes (log 20). -/
def State.powerOnReset (s : State) : State :=
  { State.powerOn s.cfg (s.mem.epoch + 1) with
    draws := s.draws
    busData := s.busData
    inputs := s.inputs }

/-! ## Register writes -/

/-- A write ignored because BUSY = 1 sets DROP (R24, R25). -/
def State.dropWrite (s : State) : State := { s with drop := true }

/-- The host's write of w to a register (R21 to R32): RO registers ignore it; CMD, ARG, BLK, IMG and ALPHA are dropped
while busy (R25). -/
def State.writeReg (s : State) (w : Word) : Reg → State
  | .ctrl => if w.getLsbD 1 then s.softReset else { s with irqEn := w.getLsbD 0 }
  | .status => s.clearStatus w
  | .cmd => if s.isBusy then s.dropWrite else s.startCommand w
  | .arg0 => if s.isBusy then s.dropWrite else { s with args := { s.args with a0 := w } }
  | .arg1 => if s.isBusy then s.dropWrite else { s with args := { s.args with a1 := w } }
  | .arg2 => if s.isBusy then s.dropWrite else { s with args := { s.args with a2 := w } }
  | .arg3 => if s.isBusy then s.dropWrite else { s with args := { s.args with a3 := w } }
  | .arg4 => if s.isBusy then s.dropWrite else { s with args := { s.args with a4 := w } }
  | .arg5 => if s.isBusy then s.dropWrite else { s with args := { s.args with a5 := w } }
  | .blkP => if s.isBusy then s.dropWrite else { s with blkP := w }
  | .blkQ => if s.isBusy then s.dropWrite else { s with blkQ := w }
  | .imgW => if s.isBusy then s.dropWrite else { s with imgW := w }
  | .imgH => if s.isBusy then s.dropWrite else { s with imgH := w }
  | .alpha => if s.isBusy then s.dropWrite else { s with alpha := w }
  | .id | .version | .errinfo | .nsym => s
  | .res0 | .res1 | .res2 | .res3 | .res4 | .res5 | .res6 | .res7 => s
  | .memsize | .maxsyms | .maxcodelen => s

/-- The write of an offset: a reserved offset ignores it (R21). -/
def State.writeOffset (s : State) (off : Nat) (w : Word) : State :=
  match regAt off with
  | some r => s.writeReg w r
  | none => s

/-! ## Host accesses -/

/-- The value a host write carries. -/
def State.writeValue (s : State) : WriteData → Word
  | .imm v => v
  | .lastRead => s.busData

/-- A host access to the register region at an offset: only aligned 32-bit accesses are defined (R65, 92 D23). -/
def State.registerAccess (s : State) (off width : Nat) (op : BusOp) : Host.Outcome State Fault Refusal :=
  if width = 4 ∧ off % 4 = 0 then
    match op with
    | .read => .next { s with busData := s.readOffset off }
    | .write d => .next (s.writeOffset off (s.writeValue d))
  else .refused .registerAccessForm

/-- A host read of n buffer bytes at a (R65): little-endian while Idle; an unspecified value while busy (R67). -/
def State.readBuffer (s : State) (a n : Nat) : State :=
  if s.isBusy then
    { s with
      busData := BitVec.ofNat 32 (Memory.read { cells := emitAt 0 (freeBytes s.draws n), epoch := 0 } 0 n)
      draws := s.draws + n }
  else { s with busData := BitVec.ofNat 32 (s.mem.read a n) }

/-- A host write of the low n bytes of w at a (R65, log 15). While busy it changes the bytes it names all the same,
and the running command's ranges will be unspecified after completion (R67). -/
def State.writeBuffer (s : State) (a n : Nat) (w : Word) : State :=
  { s with
    mem := s.mem.setCells (emitAt a (leBytes w.toNat n))
    phase := match s.phase with
      | .idle => .idle
      | .busy start _ => .busy start true }

/-- A host access to the buffer memory at address a: 1, 2 or 4 bytes, naturally aligned, inside the memory (R65). -/
def State.bufferAccess (s : State) (a width : Nat) (op : BusOp) : Host.Outcome State Fault Refusal :=
  if (width = 1 ∨ width = 2 ∨ width = 4) ∧ a % width = 0 then
    if a + width ≤ s.cfg.memBytes then
      match op with
      | .read => .next (s.readBuffer a width)
      | .write d => .next (s.writeBuffer a width (s.writeValue d))
    else .refused .bufferAccessRange
  else .refused .bufferAccessForm

/-- A host access by bus address (R21, R60, R69): the register region at REG_BASE, else the buffer memory from
MEM_BASE up, else nothing answers (log 10). -/
def State.busAccess (s : State) (x : BusAccess) : Host.Outcome State Fault Refusal :=
  if s.cfg.regBase ≤ x.addr ∧ x.addr < s.cfg.regBase + 0x1000 then
    s.registerAccess (x.addr - s.cfg.regBase) x.width x.op
  else if s.cfg.memBase ≤ x.addr then s.bufferAccess (x.addr - s.cfg.memBase) x.width x.op
  else .fault .unclaimedBusAddress

/-- One read of STATUS by a waiting host (30_encoding.md R90 WAIT). While BUSY = 1 it reads again, after the engine has
had its turn (log 13). -/
def State.poll (s : State) : State :=
  if s.isBusy then { s with busData := s.status, inputs := .engine :: .poll :: s.inputs }
  else { s with busData := s.status }

end Sys2Proof.Machine
end

