-- ==== Sys2Proof/Machine/Dispatch.lean ====
section
/-! DEFINITION. One arm per command (30_encoding.md R82). -/

namespace Sys2Proof.Machine

def exec (i : Instr) (s : State) : Host.Outcome State Fault Refusal :=
  match i with
  -- 44_system.md
  | .nop => Sys2Proof.Machine.execNop s
  -- 40_metric.md
  | .mad => Sys2Proof.Machine.execMad s
  -- 41_huffman.md
  | .hufBuild => Sys2Proof.Machine.execHufBuild s
  | .hufEncode => Sys2Proof.Machine.execHufEncode s
  | .hufDecode => Sys2Proof.Machine.execHufDecode s
  -- 42_serial.md
  | .bitseqPack => Sys2Proof.Machine.execBitseqPack s
  | .bitseqUnpack => Sys2Proof.Machine.execBitseqUnpack s
  | .tblPack => Sys2Proof.Machine.execTblPack s
  | .tblUnpack => Sys2Proof.Machine.execTblUnpack s
  -- 43_frame.md
  | .framePack => Sys2Proof.Machine.execFramePack s
  | .frameUnpack => Sys2Proof.Machine.execFrameUnpack s

end Sys2Proof.Machine
end

