-- ==== Sys2Proof/Machine/Program.lean ====
section
/-! DEFINITION. Host programs (30_encoding.md R90, R91): statements and pseudo-commands as the host's bus accesses. -/

namespace Sys2Proof.Machine

/-- The host's write of a register: (REG_BASE + offset, v), 32 bits (R90). -/
def regWriteTurn (c : Params) (r : Reg) (d : WriteData) : Turn :=
  .bus { addr := c.regBase + regOffset r, width := 4, op := .write d }

/-- The host's read of a register. -/
def regReadTurn (c : Params) (r : Reg) : Turn := .bus { addr := c.regBase + regOffset r, width := 4, op := .read }

/-- The host's write of n bytes of buffer memory: (MEM_BASE + a, v) (R90). -/
def bufWriteTurn (c : Params) (a n v : Nat) : Turn :=
  .bus { addr := c.memBase + a, width := n, op := .write (.imm (BitVec.ofNat 32 v)) }

/-- The turns that give an operand register its value (R90); a register operand is read first (R91, log 18). -/
def operandTurns (c : Params) (dst : Reg) : Operand → List Turn
  | .imm v => [regWriteTurn c dst (.imm (BitVec.ofNat 32 v))]
  | .reg r => [regReadTurn c r, regWriteTurn c dst .lastRead]

/-- ARG0 = o0, …, ARGk = ok in order (R90). -/
def argTurns (c : Params) : List Reg → List Operand → List Turn
  | r :: rs, o :: os => operandTurns c r o ++ argTurns c rs os
  | _, _ => []

/-- The operand registers in order (10_state.md R21). -/
def argRegs : List Reg := [.arg0, .arg1, .arg2, .arg3, .arg4, .arg5]

/-- A statement's bus accesses, in order (R90). -/
def stmtTurns (c : Params) : Stmt → List Turn
  | .set r v => [regWriteTurn c r (.imm (BitVec.ofNat 32 v))]
  | .mem8 a v => [bufWriteTurn c a 1 v]
  | .mem16 a v => [bufWriteTurn c a 2 v]
  | .mem32 a v => [bufWriteTurn c a 4 v]
  | .wait => [.poll]
  | .clear => [regWriteTurn c .status (.imm 0x0000000E#32)]
  | .command i ops => argTurns c argRegs ops ++ [regWriteTurn c .cmd (.imm (encode i)), .poll]

/-- 'A program's encoding is the list of its bus writes in order, with the polling reads of each WAIT' (R90). -/
def programTurns (c : Params) : List Stmt → List Turn
  | [] => []
  | x :: xs => stmtTurns c x ++ programTurns c xs

/-- The expansion of a pseudo-command (R91). -/
def expandPseudo : Pseudo → List Stmt
  | .geom p q w h => [.set .blkP p, .set .blkQ q, .set .imgW w, .set .imgH h]
  | .thresh v => [.set .alpha v]
  | .huff src n dst => [.command .hufBuild [.imm src, .imm n], .command .hufEncode [.imm src, .imm n, .imm dst]]
  | .zipframe src n cbuf dst psrc k =>
    [.command .hufBuild [.imm src, .imm n], .command .hufEncode [.imm src, .imm n, .imm cbuf],
      .command .framePack [.imm dst, .imm cbuf, .reg .res0, .imm psrc, .imm k]]
  | .unzipframe src len dst cap =>
    [.command .frameUnpack [.imm src, .imm len], .command .hufDecode [.reg .res0, .reg .res1, .imm dst, .imm cap]]

/-- The host issues a program: its turns come after those already pending. -/
def State.issue (s : State) (prog : List Stmt) : State := { s with inputs := s.inputs ++ programTurns s.cfg prog }

end Sys2Proof.Machine
end

