-- ==== Sys2Proof/Machine/Step.lean ====
section
/-! DEFINITION. One step: the next turn is taken (60_exceptions.md R216). -/

namespace Sys2Proof.Machine

/-- The engine's turn (10_state.md R43): a Busy engine decodes the command word in CMD and completes the command; an
Idle engine waits, and the block keeps all state (60_exceptions.md R230). -/
def engineTurn (s : State) : Host.Outcome State Fault Refusal :=
  match s.phase with
  | .idle => .next s
  | .busy _ _ =>
    match decode s.cmd with
    | .ok i => exec i s
    | .error _ => execIllegal s

/-- One transition: the first pending turn, or the engine's when none is pending (log 3). -/
def step (s : State) : Host.Outcome State Fault Refusal :=
  match s.inputs with
  | [] => engineTurn s
  | .engine :: rest => engineTurn { s with inputs := rest }
  | .bus x :: rest => State.busAccess { s with inputs := rest } x
  | .poll :: rest => .next (State.poll { s with inputs := rest })
  | .powerOn :: rest => .next (State.powerOnReset { s with inputs := rest })

/-- `s` with the command word accepted (10_state.md R25: CMD <- w, BUSY <- 1, the flags cleared) and the engine's turn
next, so that the very next step runs it (log 4). Where turns are pending, the engine's is put before them. -/
def State.withFetchWord (s : State) (nbits w : Nat) : State :=
  { s.startCommand (tableWord nbits w) with
    inputs := match s.inputs with
      | [] => []
      | t :: ts => .engine :: t :: ts }

end Sys2Proof.Machine
end

