-- ==== Sys2Proof/Machine/Text.lean ====
section
/-! DEFINITION. The text of host programs (30_encoding.md R90, R91): 'a list of statements, one per line. A `;` starts
a comment.' Numbers are decimal or 0x-hexadecimal. -/

namespace Sys2Proof.Machine

/-- A register's name in the register map (10_state.md R21). -/
def regName : Reg → String
  | .id => "ID"
  | .version => "VERSION"
  | .ctrl => "CTRL"
  | .status => "STATUS"
  | .cmd => "CMD"
  | .errinfo => "ERRINFO"
  | .nsym => "NSYM"
  | .arg0 => "ARG0"
  | .arg1 => "ARG1"
  | .arg2 => "ARG2"
  | .arg3 => "ARG3"
  | .arg4 => "ARG4"
  | .arg5 => "ARG5"
  | .res0 => "RES0"
  | .res1 => "RES1"
  | .res2 => "RES2"
  | .res3 => "RES3"
  | .res4 => "RES4"
  | .res5 => "RES5"
  | .res6 => "RES6"
  | .res7 => "RES7"
  | .blkP => "BLK_P"
  | .blkQ => "BLK_Q"
  | .imgW => "IMG_W"
  | .imgH => "IMG_H"
  | .alpha => "ALPHA"
  | .memsize => "MEMSIZE"
  | .maxsyms => "MAXSYMS"
  | .maxcodelen => "MAXCODELEN"

/-- A command's mnemonic (R82). -/
def mnemonic : Instr → String
  | .nop => "NOP"
  | .mad => "MAD"
  | .hufBuild => "HUF_BUILD"
  | .hufEncode => "HUF_ENCODE"
  | .hufDecode => "HUF_DECODE"
  | .bitseqPack => "BITSEQ_PACK"
  | .bitseqUnpack => "BITSEQ_UNPACK"
  | .tblPack => "TBL_PACK"
  | .tblUnpack => "TBL_UNPACK"
  | .framePack => "FRAME_PACK"
  | .frameUnpack => "FRAME_UNPACK"

/-- The commands in opcode order (R82). -/
def allInstrs : List Instr :=
  [.nop, .mad, .hufBuild, .hufEncode, .hufDecode, .bitseqPack, .bitseqUnpack, .tblPack, .tblUnpack, .framePack,
    .frameUnpack]

/-- White space inside a line. -/
def isBlank (c : Char) : Bool := c == ' ' || c == '\t' || c == '\r'

/-- Cut at each occurrence of a character. -/
def cutAt (x : Char) : List Char → List (List Char)
  | [] => [[]]
  | c :: cs =>
    if c = x then [] :: cutAt x cs
    else
      match cutAt x cs with
      | [] => [[c]]
      | l :: ls => (c :: l) :: ls

/-- Without the white space at both ends. -/
def trim (l : List Char) : List Char := ((l.dropWhile isBlank).reverse.dropWhile isBlank).reverse

/-- The value of a decimal digit. -/
def decDigit? (c : Char) : Option Nat := if '0' ≤ c ∧ c ≤ '9' then some (c.toNat - '0'.toNat) else none

/-- The value of a hexadecimal digit. -/
def hexDigit? (c : Char) : Option Nat :=
  if 'a' ≤ c ∧ c ≤ 'f' then some (c.toNat - 'a'.toNat + 10)
  else if 'A' ≤ c ∧ c ≤ 'F' then some (c.toNat - 'A'.toNat + 10)
  else decDigit? c

/-- A number in a base, most significant digit first, `acc` being the value so far. -/
def digits? (base : Nat) (digit : Char → Option Nat) (acc : Nat) : List Char → Option Nat
  | [] => some acc
  | c :: cs =>
    match digit c with
    | some d => digits? base digit (acc * base + d) cs
    | none => none

/-- 'Numbers are decimal or 0x-hexadecimal' (R90). -/
def number? : List Char → Option Nat
  | [] => none
  | ['0', 'x'] => none
  | '0' :: 'x' :: cs => digits? 16 hexDigit? 0 cs
  | cs => digits? 10 decDigit? 0 cs

/-- All of a list, or none. -/
def allSome : List (Option Nat) → Option (List Nat)
  | [] => some []
  | none :: _ => none
  | some x :: xs => (allSome xs).map (x :: ·)

/-- The register with a name. -/
def reg? (l : List Char) : Option Reg := allRegs.find? fun r => (regName r).toList == l

/-- An operand of a command: a number or a register name (R90, R91). -/
def operand? (l : List Char) : Option Operand :=
  match number? l with
  | some v => some (.imm v)
  | none => (reg? l).map .reg

/-- All operands of a list, or none. -/
def operands? : List (List Char) → Option (List Operand)
  | [] => some []
  | l :: ls =>
    match operand? l, operands? ls with
    | some o, some os => some (o :: os)
    | _, _ => none

/-- A line without its comment, as its first word and its comma-separated rest. -/
def splitLine (line : List Char) : List Char × List (List Char) :=
  let l := trim (line.takeWhile (· != ';'))
  let w := l.takeWhile fun c => !isBlank c
  let rest := trim (l.dropWhile fun c => !isBlank c)
  (w, if rest = [] then [] else (cutAt ',' rest).map trim)

/-- A statement or pseudo-command from its first word and its rest; none where it is neither (R90, R91). -/
def statement? (w : List Char) (ops : List (List Char)) : Option (List Stmt) :=
  match allInstrs.find? fun i => (mnemonic i).toList == w with
  | some i => (operands? ops).map fun os => [.command i os]
  | none =>
    if w = "SET".toList then
      match ops with
      | [r, v] =>
        match reg? r, number? v with
        | some r, some v => some [.set r v]
        | _, _ => none
      | _ => none
    else
      match allSome (ops.map number?) with
      | none => none
      | some vs =>
        if w = "MEM8".toList then match vs with | [a, v] => some [.mem8 a v] | _ => none
        else if w = "MEM16".toList then match vs with | [a, v] => some [.mem16 a v] | _ => none
        else if w = "MEM32".toList then match vs with | [a, v] => some [.mem32 a v] | _ => none
        else if w = "WAIT".toList then match vs with | [] => some [.wait] | _ => none
        else if w = "CLEAR".toList then match vs with | [] => some [.clear] | _ => none
        else if w = "GEOM".toList then
          match vs with | [p, q, w, h] => some (expandPseudo (.geom p q w h)) | _ => none
        else if w = "THRESH".toList then match vs with | [v] => some (expandPseudo (.thresh v)) | _ => none
        else if w = "HUFF".toList then
          match vs with | [s, n, d] => some (expandPseudo (.huff s n d)) | _ => none
        else if w = "ZIPFRAME".toList then
          match vs with | [s, n, b, d, p, k] => some (expandPseudo (.zipframe s n b d p k)) | _ => none
        else if w = "UNZIPFRAME".toList then
          match vs with | [s, l, d, k] => some (expandPseudo (.unzipframe s l d k)) | _ => none
        else none

/-- The statements of a line: none of them for an empty line or a comment. -/
def line? (line : List Char) : Option (List Stmt) :=
  match splitLine line with
  | ([], _) => some []
  | (w, ops) => statement? w ops

/-- The statements of all lines. -/
def lines? : List (List Char) → Option (List Stmt)
  | [] => some []
  | l :: ls =>
    match line? l, lines? ls with
    | some x, some xs => some (x ++ xs)
    | _, _ => none

/-- A host program from its text (R90): its statements, all of them well formed, or none. -/
def program? (c : Params) (text : String) : Option (List Stmt) :=
  match lines? (cutAt '\n' text.toList) with
  | some p => if p.all (Stmt.wf c) then some p else none
  | none => none

end Sys2Proof.Machine
end

