-- ==== Sys2Proof/Safety.lean ====
section
/-! DEFINITION. What counts as a good state and a safe step, in the terms claims use: the invariants of 10_state.md
R24, R41 and R42, and the hazards the host must avoid (70_reset_and_hazards.md R244, R247). -/

namespace Sys2Proof.Machine

/-- The invariants of a valid table (10_state.md R40, R41): at most MAX_SYMS entries, symbols strictly ascending, codes
prefix-free, each code of 1 to MAX_CODE_LEN bits. -/
structure TableValid (c : Params) (t : Table) : Prop where
  count : t.length ≤ c.maxSyms
  ascending : t.Pairwise fun d e => d.sym.toNat < e.sym.toNat
  prefixFree : t.Pairwise fun d e => ¬ d.code <+: e.code ∧ ¬ e.code <+: d.code
  lengths : ∀ e ∈ t, 1 ≤ e.len ∧ e.len ≤ c.maxCodeLen

/-- A memory is canonical and lists addresses 0..MEM_BYTES−1 only (20_memory.md R60, log 2). -/
structure MemoryGood (c : Params) (m : Memory) : Prop where
  wf : m.Wf
  within : m.Within c.memBytes

/-- The bytes `y` stand at `a`. -/
def Memory.Holds (m : Memory) (a : Nat) (y : List Byte) : Prop := ∀ k (h : k < y.length), m.byte (a + k) = y[k]

/-- The bits `bs` stand packed at `a`, first bit in bit 7 of the first byte (20_memory.md R63). -/
def Memory.HoldsBits (m : Memory) (a : Nat) (bs : Bits) : Prop := ∀ k (h : k < bs.length), m.bit a k = bs[k]

/-- The symbol has an entry in the table (41_huffman.md R125). -/
def InTable (t : Table) (x : Word) : Prop := ∃ e ∈ t, e.sym = x

/-- CODE[Lookup(x)] (R124). -/
def codeFor (t : Table) (x : Word) : Bits := ((t.find? fun e => e.sym == x).map Entry.code).getD []

/-- Enc(seq) (R124). -/
def enc (t : Table) (seq : List Word) : Bits := seq.flatMap (codeFor t)

/-- The state invariant: legal parameters (R5), good memories, a valid table (R41), and the invariants R24 states for
STATUS. R24's 'ERR = 1 implies DONE = 1' is not among them: a host write to STATUS can clear DONE alone (log 12). -/
structure State.Inv (s : State) : Prop where
  params : s.cfg.Legal
  memory : MemoryGood s.cfg s.mem
  startMemory : ∀ m d, s.phase = .busy m d → MemoryGood s.cfg m
  table : ∀ t, s.table = some t → TableValid s.cfg t
  busyNotDone : s.isBusy = true → s.done = false ∧ s.err = false
  errHasCode : s.err = true → s.errCode ≠ 0
  codeHasClass : s.errCode = 0 ↔ s.errClass = 0

/-- A register whose host write is ignored while busy (10_state.md R25). -/
def busyGuarded : Reg → Bool
  | .cmd | .arg0 | .arg1 | .arg2 | .arg3 | .arg4 | .arg5 | .blkP | .blkQ | .imgW | .imgH | .alpha => true
  | .id | .version | .ctrl | .status | .errinfo | .nsym => false
  | .res0 | .res1 | .res2 | .res3 | .res4 | .res5 | .res6 | .res7 => false
  | .memsize | .maxsyms | .maxcodelen => false

/-- The access is one the host must not make while BUSY = 1 (R244 (a), (b)), the block being on the bus as `c` says. -/
def busyHazard (c : Params) (x : BusAccess) : Bool :=
  if c.regBase ≤ x.addr ∧ x.addr < c.regBase + 0x1000 then
    match regAt (x.addr - c.regBase), x.op with
    | some r, .write _ => busyGuarded r
    | _, _ => false
  else true

/-- The running command's destination range overlaps none of its source ranges (R247). -/
def State.noOverlap (s : State) : Prop :=
  ∀ e, s.runningPlan.outcome = .ok e → s.runningPlan.sources.any s.runningPlan.dest.overlaps = false

/-- A step that draws no free value and drops no write: what the host gets by keeping to R244 and R247. -/
def SafeStep (s t : State) : Prop :=
  step s = .next t ∧ t.draws = s.draws ∧ (t.drop = true → s.drop = true)

end Sys2Proof.Machine
end

