-- ==== Sys2Proof/Certificates/Slice0/Obligations.lean ====
section
/-! DEFINITION. What is claimed about the block, for the provers. The definitions of Sys2Proof.Claims are the vocabulary of
the statements; each statement is a definition under Obligations. -/

open Sys2Proof Sys2Proof.Machine

namespace Sys2Proof.Claims

/-- The state after a command that succeeded (60_exceptions.md R213): memory, table and results as given, BUSY <- 0,
DONE <- 1, and everything else as before. -/
def okState (s : State) (m : Memory) (t : Option Table) (r : Results) : State :=
  { s with mem := m, table := t, res := r, phase := .idle, done := true }

/-- The state after a command that ended in an error (R214): no memory write, RES <- 0, ERRCODE, ERRCLASS, ERRINFO,
ERR <- 1, DONE <- 1, BUSY <- 0, the table as given, and everything else as before. -/
def errState (s : State) (t : Option Table) (k : ErrKind) (info : Nat) : State :=
  { s with
    table := t, res := {}, errCode := k.code, errClass := k.cls, errInfo := BitVec.ofNat 32 info,
    err := true, phase := .idle, done := true }

/-- Every byte outside the range reads as before. -/
def SameOutside (r : Range) (m m' : Memory) : Prop := ∀ a, ¬ r.Has a → m'.byte a = m.byte a

/-- The range [a, a + n) is legal: empty, or inside the memory (92 D41). -/
def InMemory (s : State) (a n : Nat) : Prop := n = 0 ∨ a + n ≤ s.cfg.memBytes

/-- The range is not legal. -/
def OutOfMemory (s : State) (a n : Nat) : Prop := 0 < n ∧ s.cfg.memBytes < a + n

/-- The ranges [a, a + n) and [b, b + k) share no byte. -/
def Apart (a n b k : Nat) : Prop := n = 0 ∨ k = 0 ∨ a + n ≤ b ∨ b + k ≤ a

/-- SAD of 40_metric.md R103, as a sum over rows, columns and channels. -/
def sad (m : Memory) (a sa b sb p q : Nat) : Nat :=
  ∑ r ∈ Finset.range p, ∑ c ∈ Finset.range q, ∑ k ∈ Finset.range 3,
    (((m.byte (a + r * sa + 3 * c + k)).toNat : ℤ) - ((m.byte (b + r * sb + 3 * c + k)).toNat : ℤ)).natAbs

/-- Kraft sum of a table: Σ 2^(−LEN[i]) (41_huffman.md R123). -/
def kraft (t : Table) : ℚ := (t.map fun e => (1 / 2 : ℚ) ^ e.len).sum

/-- A command that loads the table: HUF_BUILD, TBL_UNPACK or FRAME_UNPACK (60_exceptions.md R214). -/
def Loads (i : Instr) : Prop := i = .hufBuild ∨ i = .tblUnpack ∨ i = .frameUnpack

/-- The next turn is a host register write of w at an offset, the rest of the turns being `rest`. -/
def WritesReg (s : State) (off : Nat) (w : Word) (rest : List Turn) : Prop :=
  s.inputs = .bus { addr := s.cfg.regBase + off, width := 4, op := .write (.imm w) } :: rest

/-- The next turn is a host read of the register region at an offset. -/
def ReadsReg (s : State) (off : Nat) (rest : List Turn) : Prop :=
  s.inputs = .bus { addr := s.cfg.regBase + off, width := 4, op := .read } :: rest

/-- The offsets of ARG0..ARG5, BLK_P, BLK_Q, IMG_W, IMG_H and ALPHA (10_state.md R21). -/
def operandOffsets : List Nat := [0x020, 0x024, 0x028, 0x02C, 0x030, 0x034, 0x060, 0x064, 0x068, 0x06C, 0x070]

/-- The offsets a host write can change: CTRL, STATUS, CMD and the operand registers (R21, R33). -/
def writableOffsets : List Nat := [0x008, 0x00C, 0x010] ++ operandOffsets

/-- The offsets of the register map (R21). -/
def mappedOffsets : List Nat :=
  [0x000, 0x004, 0x014, 0x018, 0x040, 0x044, 0x048, 0x04C, 0x050, 0x054, 0x058, 0x05C, 0x080, 0x084, 0x088] ++
    writableOffsets

/-- Every register at the value of 70_reset_and_hazards.md R240, as the host reads it. -/
def RegistersAtReset (s : State) : Prop :=
  s.readOffset 0x000 = 0x4D5A4950#32 ∧ s.readOffset 0x004 = 1#32 ∧
    (∀ off ∈ ([0x008, 0x00C, 0x010, 0x014, 0x018, 0x020, 0x024, 0x028, 0x02C, 0x030, 0x034] : List Nat),
      s.readOffset off = 0#32) ∧
    (∀ off ∈ ([0x040, 0x044, 0x048, 0x04C, 0x050, 0x054, 0x058, 0x05C, 0x068, 0x06C, 0x070] : List Nat),
      s.readOffset off = 0#32) ∧
    s.readOffset 0x060 = 8#32 ∧ s.readOffset 0x064 = 8#32 ∧
    s.readOffset 0x080 = BitVec.ofNat 32 (s.cfg.memBytes % 2 ^ 32) ∧
    s.readOffset 0x084 = BitVec.ofNat 32 s.cfg.maxSyms ∧ s.readOffset 0x088 = BitVec.ofNat 32 s.cfg.maxCodeLen ∧
    ∀ off < 0x1000, off ∉ mappedOffsets → s.readOffset off = 0#32

/-! ### The code construction of 41_huffman.md R121, on a queue in any order -/

/-- RES0..RES4 of HUF_BUILD (R120). -/
def buildResults (t : Table) (seq : List Word) : Results :=
  { r0 := BitVec.ofNat 32 t.length
    r1 := BitVec.ofNat 32 (t.map Entry.len).sum
    r2 := BitVec.ofNat 32 ((t.map Entry.len).foldr max 0)
    r3 := BitVec.ofNat 32 ((enc t seq).length % 2 ^ 32)
    r4 := BitVec.ofNat 32 ((enc t seq).length / 2 ^ 32) }

/-- (f, q) < (f', q') iff f < f', or f = f' and q < q' (R121). -/
def KeyBefore (f g : Fragment) : Prop := f.freq < g.freq ∨ f.freq = g.freq ∧ f.seq < g.seq

/-- R121's first Q: Leaf(i) with key (freq(s_i), i). -/
def leafFragments (seq syms : List Word) : List Fragment :=
  syms.mapIdx fun i x => { freq := seq.count x, seq := i, tree := .leaf i }

/-- R121's loop from a queue with the next sequence number n: the fragment with the smallest key becomes the left child, the
one with the next smallest the right child, until one tree is left. -/
inductive Merges : Nat → List Fragment → Tree → Prop
  | last (n : Nat) (f : Fragment) : Merges n [f] f.tree
  | merge (n : Nat) (q rest : List Fragment) (f g : Fragment) (t : Tree) : q.Perm (f :: g :: rest) →
      (∀ x ∈ g :: rest, KeyBefore f x) → (∀ x ∈ rest, KeyBefore g x) →
      Merges (n + 1) ({ freq := f.freq + g.freq, seq := n, tree := .node f.tree g.tree } :: rest) t → Merges n q t

/-- Each leaf with its path from the root, "0" for a left edge, "1" for a right edge (R121, R122). -/
def leafPaths : Tree → List (Nat × Bits)
  | .leaf i => [(i, [])]
  | .node l r =>
    (leafPaths l).map (fun p => (p.1, false :: p.2)) ++ (leafPaths r).map fun p => (p.1, true :: p.2)

/-- The entries that R121 gives the symbols `syms` of `seq`: for one symbol the code "0", for more the paths of the tree. -/
def HuffmanTable (seq syms : List Word) (t : Table) : Prop :=
  t.map Entry.sym = syms ∧ (syms.length = 1 → ∀ e ∈ t, e.code = [false]) ∧
    (2 ≤ syms.length → ∃ T, Merges syms.length (leafFragments seq syms) T ∧
      ∀ i (h : i < t.length), (i, t[i].code) ∈ leafPaths T)

/-! ### The table format of 42_serial.md R151, R153, R157, at offsets from an address `a`, below a limit `lim` -/

/-- ReadCount at `off` reads the value v in width w. -/
def CountAt (m : Memory) (a lim off w v : Nat) : Prop :=
  w ∈ [1, 2, 4] ∧ off + 1 + w ≤ lim ∧ (m.byte (a + off)).toNat = w ∧ m.read (a + off + 1) w = v

/-- ReadCount at `off` raises x. -/
def CountFails (m : Memory) (a lim off : Nat) (x : Raise) : Prop :=
  (lim ≤ off ∧ x = ⟨.truncated, off⟩) ∨
    (off < lim ∧ (m.byte (a + off)).toNat ∉ [1, 2, 4] ∧ x = ⟨.badSelector, off⟩) ∨
    (off < lim ∧ (m.byte (a + off)).toNat ∈ [1, 2, 4] ∧ lim < off + 1 + (m.byte (a + off)).toNat ∧
      x = ⟨.truncated, off + 1⟩)

/-- ParseBitSeq at `off` reads T bits behind a count of width w. -/
def BitsAt (m : Memory) (a lim off w T : Nat) : Prop := CountAt m a lim off w T ∧ off + 1 + w + (T + 7) / 8 ≤ lim

/-- ParseBitSeq at `off` raises x. -/
def BitsFail (m : Memory) (a lim off : Nat) (x : Raise) : Prop :=
  CountFails m a lim off x ∨
    ∃ w T, CountAt m a lim off w T ∧ lim < off + 1 + w + (T + 7) / 8 ∧ x = ⟨.truncated, off + 1 + w⟩

/-- S_i, the symbols standing from p on. -/
def symAt (m : Memory) (a p i : Nat) : Nat := m.read (a + p + 4 * i) 4

/-- o_j, the offsets of width w standing from r on. -/
def offAt (m : Memory) (a r w j : Nat) : Nat := m.read (a + r + w * j) w

/-- C[o_i .. o_{i+1}), the code bits standing from q on. -/
def codeAt (m : Memory) (a q r w i : Nat) : Bits :=
  (List.range (offAt m a r w (i + 1) - offAt m a r w i)).map fun k => m.bit (a + q) (offAt m a r w i + k)

/-- The first j offsets increase, by at most MAX_CODE_LEN. -/
def StepsGood (c : Params) (m : Memory) (a r w j : Nat) : Prop :=
  ∀ i < j, offAt m a r w i < offAt m a r w (i + 1) ∧ offAt m a r w (i + 1) ≤ offAt m a r w i + c.maxCodeLen

/-- Codes i and j are prefix-related. -/
def Related (m : Memory) (a q r w i j : Nat) : Prop :=
  codeAt m a q r w i <+: codeAt m a q r w j ∨ codeAt m a q r w j <+: codeAt m a q r w i

/-- The checks of R157 on the n + 1 offsets from r on and the T code bits from q on raise x first. -/
def OffsetsFail (c : Params) (m : Memory) (a n T q r w : Nat) (x : Raise) : Prop :=
  (offAt m a r w 0 ≠ 0 ∧ x = ⟨.badOffsets, r⟩) ∨
    (offAt m a r w 0 = 0 ∧
      ((∃ j < n, StepsGood c m a r w j ∧
          ((offAt m a r w (j + 1) ≤ offAt m a r w j ∧ x = ⟨.badOffsets, r + w * (j + 1)⟩) ∨
            (offAt m a r w j + c.maxCodeLen < offAt m a r w (j + 1) ∧
              x = ⟨.codeTooLong, offAt m a r w (j + 1) - offAt m a r w j⟩))) ∨
        (StepsGood c m a r w n ∧ offAt m a r w n ≠ T ∧ x = ⟨.badOffsets, r + w * n⟩) ∨
        (StepsGood c m a r w n ∧ offAt m a r w n = T ∧
          ∃ j < n, (∃ i < j, Related m a q r w i j) ∧ (∀ k < j, ∀ i < k, ¬ Related m a q r w i k) ∧
            x = ⟨.notPrefixFree, j⟩)))

/-- ParseTable at `off` raises x first (R157, top to bottom). -/
def TableFails (c : Params) (m : Memory) (a lim off : Nat) (x : Raise) : Prop :=
  CountFails m a lim off x ∨
    ∃ wn n p, CountAt m a lim off wn n ∧ p = off + 1 + wn ∧
      ((c.maxSyms < n ∧ x = ⟨.tableFull, n⟩) ∨
        (n ≤ c.maxSyms ∧ lim < p + 4 * n ∧ x = ⟨.truncated, p⟩) ∨
        (n ≤ c.maxSyms ∧ p + 4 * n ≤ lim ∧ ∃ i, i + 1 < n ∧ (∀ j < i, symAt m a p j < symAt m a p (j + 1)) ∧
          symAt m a p (i + 1) ≤ symAt m a p i ∧ x = ⟨.tableOrder, p + 4 * (i + 1)⟩) ∨
        (n ≤ c.maxSyms ∧ p + 4 * n ≤ lim ∧ (∀ i, i + 1 < n → symAt m a p i < symAt m a p (i + 1)) ∧
          (BitsFail m a lim (p + 4 * n) x ∨
            ∃ w T q r, BitsAt m a lim (p + 4 * n) w T ∧ q = p + 4 * n + 1 + w ∧ r = q + (T + 7) / 8 ∧
              ((lim < r + w * (n + 1) ∧ x = ⟨.truncated, r⟩) ∨
                (r + w * (n + 1) ≤ lim ∧ OffsetsFail c m a n T q r w x)))))

/-- ParseTable at `off` passes every check, reads the table t and ends at `stop` (R157). -/
def TableAt (c : Params) (m : Memory) (a lim off : Nat) (t : Table) (stop : Nat) : Prop :=
  ∃ wn n p w T q r, CountAt m a lim off wn n ∧ p = off + 1 + wn ∧ n ≤ c.maxSyms ∧
    (∀ i, i + 1 < n → symAt m a p i < symAt m a p (i + 1)) ∧ BitsAt m a lim (p + 4 * n) w T ∧
    q = p + 4 * n + 1 + w ∧ r = q + (T + 7) / 8 ∧ r + w * (n + 1) ≤ lim ∧ offAt m a r w 0 = 0 ∧
    StepsGood c m a r w n ∧ offAt m a r w n = T ∧ (∀ j < n, ∀ i < j, ¬ Related m a q r w i j) ∧
    t.length = n ∧ (∀ i (h : i < t.length), t[i].sym.toNat = symAt m a p i ∧ t[i].code = codeAt m a q r w i) ∧
    stop = r + w * (n + 1)

end Sys2Proof.Claims

open Sys2Proof.Claims

/-! ## Decoding and stepping -/

/-- 30_encoding.md R81 to R83: each command has exactly one legal word, and a word is illegal exactly when RSVD ≠ 0 or OPC
is in 0x0B..0xFF. -/
def Obligations.EveryWordSelectsOneCommandOrIsIllegal : Prop :=
  ∀ w : Word,
    (∀ i, decode w = .ok i ↔ w = encode i) ∧
      ((∃ e, decode w = .error e) ↔ w.toNat / 2 ^ 8 ≠ 0 ∨ 0x0A < w.toNat % 2 ^ 8)

/-- R82: the eleven words of the opcode map decode to their commands, and two words next to them are illegal. -/
def Obligations.OpcodeMapWordsDecode : Prop :=
  decode 0x00000000#32 = .ok .nop ∧ decode 0x00000001#32 = .ok .mad ∧ decode 0x00000002#32 = .ok .hufBuild ∧
    decode 0x00000003#32 = .ok .hufEncode ∧ decode 0x00000004#32 = .ok .hufDecode ∧
    decode 0x00000005#32 = .ok .bitseqPack ∧ decode 0x00000006#32 = .ok .bitseqUnpack ∧
    decode 0x00000007#32 = .ok .tblPack ∧ decode 0x00000008#32 = .ok .tblUnpack ∧
    decode 0x00000009#32 = .ok .framePack ∧ decode 0x0000000A#32 = .ok .frameUnpack ∧
    decode 0x0000000B#32 = .error .unassignedOpcode ∧ decode 0x00000101#32 = .error .reservedBits

/-- A step runs the decoded command: a Busy engine whose CMD decodes to i, having the turn, makes the step exec i; whatever
is in CMD, such a step is the engine's turn. The turn is dropped from the list (the model's own schedule, log 3). -/
def Obligations.StepRunsDecodedCommand : Prop :=
  ∀ s : State,
    (∀ i, s.isBusy = true → decode s.cmd = .ok i →
        (s.inputs = [] → step s = exec i s) ∧
          ∀ rest, s.inputs = .engine :: rest → step s = exec i { s with inputs := rest }) ∧
      (s.inputs = [] → step s = engineTurn s) ∧
      ∀ rest, s.inputs = .engine :: rest → step s = engineTurn { s with inputs := rest }

/-- R81, R83: the engine's turn on an illegal command word completes with ILLEGAL_CMD(w), reads no operand, writes no memory
and leaves the table unchanged, whatever else holds. -/
def Obligations.IllegalWordRaisesIllegalCmd : Prop :=
  ∀ s : State, s.isBusy = true → (s.cmd.toNat / 2 ^ 8 ≠ 0 ∨ 0x0A < s.cmd.toNat % 2 ^ 8) →
    engineTurn s = .next (errState s s.table .illegalCmd s.cmd.toNat)

/-- 60_exceptions.md R230: an Idle block keeps all state while no turn is pending. -/
def Obligations.IdleBlockKeepsAllState : Prop :=
  ∀ s : State, s.isBusy = false → s.inputs = [] → step s = .next s

/-- A command word accepted from the host is run by the engine's next turn on the registers, memory and table as they are
at the write (10_state.md R25; the order of turns is log 3). -/
def Obligations.AcceptedCommandRunsOnItsStartState : Prop :=
  ∀ (s : State) (i : Instr), s.isBusy = false → WritesReg s 0x010 (encode i) [] →
    ∃ t, step s = .next t ∧ t.engineMem = s.mem ∧ t.table = s.table ∧ t.args = s.args ∧ t.blkP = s.blkP ∧
      t.blkQ = s.blkQ ∧ t.imgW = s.imgW ∧ t.imgH = s.imgH ∧ t.alpha = s.alpha ∧ t.disturbed = false ∧
      step t = exec i t

/-! ## The register region -/

/-- R25: a write of w to CMD while Idle starts the command; while Busy it is ignored and sets DROP. -/
def Obligations.CmdWriteStartsOrDrops : Prop :=
  ∀ (s : State) (w : Word) (rest : List Turn), WritesReg s 0x010 w rest →
    (s.isBusy = false →
      step s = .next
        { s with
          inputs := rest, cmd := w, done := false, err := false, errCode := 0, errClass := 0, errInfo := 0,
          phase := .busy s.mem false }) ∧
      (s.isBusy = true → step s = .next { s with inputs := rest, drop := true })

/-- R25, R28, R30 to R32: a write to an operand register while Idle changes what that offset reads, and nothing else;
while Busy it is ignored and sets DROP. -/
def Obligations.OperandWriteTakesEffectOnlyWhenIdle : Prop :=
  ∀ (s : State) (off : Nat) (w : Word) (rest : List Turn), off ∈ operandOffsets → WritesReg s off w rest →
    (s.isBusy = false →
      ∃ t, step s = .next t ∧ t.readOffset off = w ∧ (∀ o, o ≠ off → t.readOffset o = s.readOffset o) ∧
        t.mem = s.mem ∧ t.table = s.table ∧ t.phase = s.phase ∧ t.inputs = rest) ∧
      (s.isBusy = true → step s = .next { s with inputs := rest, drop := true })

/-- R21: writes to read-only registers and to reserved offsets are ignored, busy or not. -/
def Obligations.ReadOnlyAndReservedWritesAreIgnored : Prop :=
  ∀ (s : State) (off : Nat) (w : Word) (rest : List Turn), off % 4 = 0 → off < 0x1000 → off ∉ writableOffsets →
    WritesReg s off w rest → step s = .next { s with inputs := rest }

/-- R21: every offset of the region that the map does not list reads as 0, and the read changes nothing else. -/
def Obligations.ReservedOffsetsReadZero : Prop :=
  ∀ (s : State) (off : Nat) (rest : List Turn), off % 4 = 0 → off < 0x1000 → off ∉ mappedOffsets → ReadsReg s off rest →
    step s = .next { s with inputs := rest, busData := 0 }

/-- R22 to R32: what a host read of each register of the map returns, CTRL and STATUS included (their bits). The read
changes nothing but the value the host has read (log 5). -/
def Obligations.MappedRegistersReadTheirState : Prop :=
  ∀ (s : State) (rest : List Turn) (off : Nat) (v : Word),
    (off, v) ∈
      ([(0x000, 0x4D5A4950#32), (0x004, 1#32), (0x008, BitVec.ofNat 32 s.irqEn.toNat),
          (0x00C,
            BitVec.ofNat 32
              (s.isBusy.toNat + 2 * s.done.toNat + 4 * s.err.toNat + 8 * s.drop.toNat + 16 * s.table.isSome.toNat +
                2 ^ 8 * s.errCode.toNat + 2 ^ 16 * s.errClass.toNat)),
          (0x010, s.cmd), (0x014, s.errInfo),
          (0x018, BitVec.ofNat 32 ((s.table.getD []).length)), (0x020, s.args.a0), (0x024, s.args.a1),
          (0x028, s.args.a2), (0x02C, s.args.a3), (0x030, s.args.a4), (0x034, s.args.a5), (0x040, s.res.r0),
          (0x044, s.res.r1), (0x048, s.res.r2), (0x04C, s.res.r3), (0x050, s.res.r4), (0x054, s.res.r5),
          (0x058, s.res.r6), (0x05C, s.res.r7), (0x060, s.blkP), (0x064, s.blkQ), (0x068, s.imgW), (0x06C, s.imgH),
          (0x070, s.alpha), (0x080, BitVec.ofNat 32 (s.cfg.memBytes % 2 ^ 32)),
          (0x084, BitVec.ofNat 32 s.cfg.maxSyms), (0x088, BitVec.ofNat 32 s.cfg.maxCodeLen)] :
        List (Nat × Word)) →
      ReadsReg s off rest → step s = .next { s with inputs := rest, busData := v }

/-- R23, R24, R44: the fields of STATUS and CTRL, bit by bit, and the interrupt output. -/
def Obligations.StatusAndCtrlFieldsStandAtTheirBits : Prop :=
  ∀ s : State,
    (s.readOffset 0x00C).getLsbD 0 = s.isBusy ∧ (s.readOffset 0x00C).getLsbD 1 = s.done ∧
      (s.readOffset 0x00C).getLsbD 2 = s.err ∧ (s.readOffset 0x00C).getLsbD 3 = s.drop ∧
      (s.readOffset 0x00C).getLsbD 4 = s.table.isSome ∧ (s.readOffset 0x00C).toNat / 2 ^ 5 % 2 ^ 3 = 0 ∧
      (s.readOffset 0x00C).extractLsb' 8 8 = s.errCode ∧ (s.readOffset 0x00C).extractLsb' 16 2 = s.errClass ∧
      (s.readOffset 0x00C).toNat / 2 ^ 18 = 0 ∧ (s.readOffset 0x008).getLsbD 0 = s.irqEn ∧
      (s.readOffset 0x008).toNat / 2 = 0 ∧ (s.irq = true ↔ s.irqEn = true ∧ (s.done = true ∨ s.drop = true))

/-- R24: a write to STATUS clears each of DONE, ERR, DROP whose bit in the written value is 1, and changes nothing else,
whether or not BUSY = 1. -/
def Obligations.StatusWriteClearsWrittenOnes : Prop :=
  ∀ (s : State) (w : Word) (rest : List Turn), WritesReg s 0x00C w rest →
    step s = .next
      { s with
        inputs := rest
        done := if w.getLsbD 1 then false else s.done
        err := if w.getLsbD 2 then false else s.err
        drop := if w.getLsbD 3 then false else s.drop }

/-- R23, R220: a write to CTRL with bit 1 = 0 sets IRQ_EN and nothing else; with IRQ_EN = 0 the interrupt is masked and
DONE and DROP are kept. -/
def Obligations.CtrlWriteSetsIrqEnable : Prop :=
  ∀ (s : State) (w : Word) (rest : List Turn), WritesReg s 0x008 w rest → w.getLsbD 1 = false →
    ∃ t, step s = .next t ∧ t = { s with inputs := rest, irqEn := w.getLsbD 0 } ∧
      (w.getLsbD 0 = false → t.irq = false ∧ t.done = s.done ∧ t.drop = s.drop)

/-- R220: IRQ_EN <- 0 masks IRQ and keeps DONE and DROP; writing 1 to DONE and DROP clears both, and IRQ falls exactly when
both are 0; command start clears DONE but not DROP; after a soft reset IRQ_EN = 0 and IRQ = 0. -/
def Obligations.IrqMaskingAndClearing : Prop :=
  ∀ (s : State) (w : Word) (rest : List Turn),
    (WritesReg s 0x008 w rest → w.getLsbD 0 = false → w.getLsbD 1 = false →
        ∃ t, step s = .next t ∧ t.irq = false ∧ t.done = s.done ∧ t.drop = s.drop) ∧
      (WritesReg s 0x00C w rest → w.getLsbD 1 = true → w.getLsbD 3 = true →
        ∃ t, step s = .next t ∧ t.done = false ∧ t.drop = false ∧ t.irq = false) ∧
      (s.irqEn = true → (s.irq = false ↔ s.done = false ∧ s.drop = false)) ∧
      (WritesReg s 0x010 w rest → s.isBusy = false → ∃ t, step s = .next t ∧ t.done = false ∧ t.drop = s.drop) ∧
      (WritesReg s 0x008 w rest → w.getLsbD 1 = true → ∃ t, step s = .next t ∧ t.irqEn = false ∧ t.irq = false)

/-! ## Reset -/

/-- R240: after power-on reset every register has its reset value, the table is invalid, the engine Idle, IRQ 0, and no
byte of the buffer memory is settled (the parameters, and the model's own fields, are log 1 and the model's choice). -/
def Obligations.ResetStateIsAsSpecified : Prop :=
  RegistersAtReset State.reset ∧ State.reset.table = none ∧ State.reset.isBusy = false ∧ State.reset.irq = false ∧
    State.reset.mem.cells = []

/-- R241: a write to CTRL with bit 1 = 1 resets every register, invalidates the table and makes the engine Idle, busy or
not, whatever bit 0 is. Memory is kept, but for the destination bytes of a running command that would have succeeded,
which are free values. -/
def Obligations.SoftResetKeepsBufferMemory : Prop :=
  ∀ (s : State) (w : Word) (rest : List Turn), WritesReg s 0x008 w rest → w.getLsbD 1 = true →
    ∃ t, step s = .next t ∧ RegistersAtReset t ∧ t.table = none ∧ t.isBusy = false ∧ t.irq = false ∧ t.cfg = s.cfg ∧
      t.inputs = rest ∧ (s.isBusy = false → t.mem = s.mem) ∧
      (∀ r, s.isBusy = true → s.runningPlan.outcome = .error r → t.mem = s.mem) ∧
      (∀ e, s.isBusy = true → s.runningPlan.outcome = .ok e → SameOutside s.runningPlan.dest s.mem t.mem ∧
        ∀ a, s.runningPlan.dest.Has a → ∃ k, s.draws ≤ k ∧ k < t.draws ∧ t.mem.byte a = Config.freeByte k)

/-- Power-on reset as an event (R240, log 20): every register at its reset value, and no byte of the buffer settled. -/
def Obligations.PowerOnResetsEverything : Prop :=
  ∀ (s : State) (rest : List Turn), s.inputs = .powerOn :: rest →
    ∃ t, step s = .next t ∧ RegistersAtReset t ∧ t.table = none ∧ t.isBusy = false ∧ t.irq = false ∧ t.cfg = s.cfg ∧
      t.inputs = rest ∧ t.mem.cells = [] ∧ ∀ a, t.mem.byte a = Config.powerOnByte (s.mem.epoch + 1) a

/-! ## Host accesses to the buffer memory -/

/-- R62, R65: while Idle, a host write of 1, 2 or 4 bytes at a naturally aligned address stores the value little-endian,
and changes nothing else; a later host read of the same bytes returns it. The two windows do not share an address (log 10). -/
def Obligations.HostBufferWriteReadsBack : Prop :=
  ∀ (s : State) (a n : Nat) (w : Word) (rest : List Turn), s.cfg.Placed → s.isBusy = false → n ∈ [1, 2, 4] → a % n = 0 →
    a + n ≤ s.cfg.memBytes →
    s.inputs =
      .bus { addr := s.cfg.memBase + a, width := n, op := .write (.imm w) } ::
        .bus { addr := s.cfg.memBase + a, width := n, op := .read } :: rest →
    ∃ t u, step s = .next t ∧ SameOutside ⟨a, n⟩ s.mem t.mem ∧
      (∀ k < n, (t.mem.byte (a + k)).toNat = w.toNat / 2 ^ (8 * k) % 2 ^ 8) ∧
      t = { s with mem := t.mem, inputs := t.inputs } ∧ step t = .next u ∧ u.busData.toNat = w.toNat % 2 ^ (8 * n) ∧
      u = { t with busData := u.busData, inputs := rest }

/-- R65, 93 U6, U7: a host access of any other width or alignment has no defined effect, nor has a buffer access that passes
MEM_BYTES or begins at or above it: the model refuses each. The register region comes first where the two windows meet
(log 10), so an access to the buffer is one whose bus address lies outside that region. -/
def Obligations.UndefinedHostAccessesAreRefused : Prop :=
  ∀ (s : State) (a n : Nat) (op : BusOp) (rest : List Turn),
    (a < 0x1000 → (n ≠ 4 ∨ a % 4 ≠ 0) → s.inputs = .bus { addr := s.cfg.regBase + a, width := n, op := op } :: rest →
        step s = .refused .registerAccessForm) ∧
      (¬ (s.cfg.regBase ≤ s.cfg.memBase + a ∧ s.cfg.memBase + a < s.cfg.regBase + 0x1000) →
        s.inputs = .bus { addr := s.cfg.memBase + a, width := n, op := op } :: rest →
        ((n ∉ [1, 2, 4] ∨ a % n ≠ 0) → step s = .refused .bufferAccessForm) ∧
          (n ∈ [1, 2, 4] → a % n = 0 → s.cfg.memBytes < a + n → step s = .refused .bufferAccessRange))

/-- R67: while BUSY = 1 a host read of the buffer returns bytes that are fresh free values (log 6) and changes nothing else; a
host write changes the bytes it names at once and nothing else. That it also leaves alone the memory the running command
reads is inferred (log 7). The two windows do not share an address (log 10). -/
def Obligations.HostBufferAccessWhileBusy : Prop :=
  ∀ (s : State) (m : Memory) (d : Bool) (a n : Nat) (w : Word) (rest : List Turn), s.cfg.Placed → s.phase = .busy m d →
    n ∈ [1, 2, 4] → a % n = 0 → a + n ≤ s.cfg.memBytes →
    (s.inputs = .bus { addr := s.cfg.memBase + a, width := n, op := .read } :: rest →
        ∃ t, step s = .next t ∧ t = { s with busData := t.busData, draws := s.draws + n, inputs := rest } ∧
          t.busData.toNat < 2 ^ (8 * n) ∧
          ∀ k < n, t.busData.toNat / 2 ^ (8 * k) % 2 ^ 8 = (Config.freeByte (s.draws + k)).toNat) ∧
      (s.inputs = .bus { addr := s.cfg.memBase + a, width := n, op := .write (.imm w) } :: rest →
        ∃ t, step s = .next t ∧ SameOutside ⟨a, n⟩ s.mem t.mem ∧
          (∀ k < n, (t.mem.byte (a + k)).toNat = w.toNat / 2 ^ (8 * k) % 2 ^ 8) ∧
          t = { s with mem := t.mem, phase := .busy m true, inputs := rest })

/-- R67: after a host write while busy, every byte of the running command's source and destination ranges is a free value
drawn by its completion, whatever the outcome, and every other byte is as it was; results, table and status are as computed
from the memory at its start (log 7; the range of a command that ends before its length is known is log 8). It holds for
every value of the free bytes. -/
def Obligations.DisturbedCommandLeavesItsRangesUnspecified : Prop :=
  ∀ (s : State) (m : Memory) (i : Instr), s.phase = .busy m true →
    ∃ t, exec i s = .next t ∧
      (∀ a, (∀ r ∈ (commandPlan i s).dest :: (commandPlan i s).sources, ¬ r.Has a) → t.mem.byte a = s.mem.byte a) ∧
      (∀ a < s.cfg.memBytes, (∃ r ∈ (commandPlan i s).dest :: (commandPlan i s).sources, r.Has a) →
        ∃ k, s.draws ≤ k ∧ k < t.draws ∧ t.mem.byte a = Config.freeByte k) ∧
      (∀ e, (commandPlan i s).outcome = .ok e →
        t = { okState s t.mem (e.table.or s.table) e.results with draws := t.draws }) ∧
      ∀ k n, (commandPlan i s).outcome = .error ⟨k, n⟩ →
        t = { errState s (if (commandPlan i s).loadsTable then none else s.table) k n with
              mem := t.mem, draws := t.draws }

/-- 20_memory.md R68: if the destination range overlaps a source range, every destination byte is a free value after an ok
completion; results, status and table are as computed from the memory at start, and nothing else changes. An error
completion writes no memory, overlap or not. -/
def Obligations.OverlapLeavesDestinationUnspecified : Prop :=
  ∀ (s : State) (i : Instr), s.disturbed = false →
    (∀ (e : Effect) (r : Range), (commandPlan i s).outcome = .ok e → r ∈ (commandPlan i s).sources →
        (∃ a, (commandPlan i s).dest.Has a ∧ r.Has a) →
        ∃ t, exec i s = .next t ∧
          t = { okState s t.mem (e.table.or s.table) e.results with draws := t.draws } ∧
          SameOutside (commandPlan i s).dest s.mem t.mem ∧
          ∀ a, (commandPlan i s).dest.Has a → ∃ k, s.draws ≤ k ∧ k < t.draws ∧ t.mem.byte a = Config.freeByte k) ∧
      ∀ x, (commandPlan i s).outcome = .error x → ∃ t, exec i s = .next t ∧ t.mem = s.mem

/-! ## Completion -/

/-- R213, R214, R29, R35: every command completes in one transition, and leaves alone every register but STATUS, ERRINFO,
NSYM and RES; only the three table-loading commands can change the table. A byte of memory can change only in the command's
destination range or, if the host wrote the buffer while it ran (R67; logs 7 and 8), in its source ranges; an error of an
undisturbed command changes none. -/
def Obligations.EveryCommandCompletesAndKeepsItsFrame : Prop :=
  ∀ (i : Instr) (s : State),
    ∃ t, exec i s = .next t ∧ t.phase = .idle ∧ t.done = true ∧
      t = { s with
            mem := t.mem, table := t.table, phase := .idle, done := true, err := t.err, errCode := t.errCode,
            errClass := t.errClass, errInfo := t.errInfo, res := t.res, draws := t.draws } ∧
      (¬ Loads i → t.table = s.table) ∧
      (∀ a, ¬ (commandPlan i s).dest.Has a → (s.disturbed = true → ∀ r ∈ (commandPlan i s).sources, ¬ r.Has a) →
        t.mem.byte a = s.mem.byte a) ∧
      ∀ x, s.disturbed = false → (commandPlan i s).outcome = .error x → t.mem = s.mem

/-- R213, R214: an undisturbed command ends in one of two ways. With an error: no byte of memory changes, RES0..RES7 are
0, ERR = 1 with a non-zero code and class, and the table is lost for the three loading commands and kept for the others.
Without: ERR, ERRCODE, ERRCLASS and ERRINFO stay as command start set them. -/
def Obligations.CommandSucceedsOrWritesNoMemory : Prop :=
  ∀ (i : Instr) (s : State), s.disturbed = false →
    ∃ t, exec i s = .next t ∧
      ((t.mem = s.mem ∧ t.res = {} ∧ t.err = true ∧ t.errCode ≠ 0 ∧ t.errClass ≠ 0 ∧ (Loads i → t.table = none) ∧
          (¬ Loads i → t.table = s.table)) ∨
        (t.err = s.err ∧ t.errCode = s.errCode ∧ t.errClass = s.errClass ∧ t.errInfo = s.errInfo ∧
          (Loads i → t.table ≠ none) ∧ (¬ Loads i → t.table = s.table)))

/-- R213, R214: an undisturbed command whose outcome is err(code, info) writes no memory, zeroes RES, records the code, its
class and the info, and loses the table if it is a loading command; one whose outcome is ok(writes, results, table'), its
destination apart from its sources, applies the writes, the results and the table. Nothing else changes. -/
def Obligations.CommandCompletesAsItsOutcomeSays : Prop :=
  ∀ (i : Instr) (s : State), s.disturbed = false →
    (∀ k n, (commandPlan i s).outcome = .error ⟨k, n⟩ →
        (Loads i → exec i s = .next (errState s none k n)) ∧ (¬ Loads i → exec i s = .next (errState s s.table k n))) ∧
      ∀ e, (commandPlan i s).outcome = .ok e → (∀ r ∈ (commandPlan i s).sources, ∀ a, (commandPlan i s).dest.Has a → ¬ r.Has a) →
        exec i s = .next (okState s (s.mem.setCells e.writes) (e.table.or s.table) e.results)

/-- R211, R212: the code and the class of every error. -/
def Obligations.ErrorCodesAndClasses : Prop :=
  ([.illegalCmd, .addrRange, .noTable, .tableFull, .codeTooLong, .symbolNotInTable, .invalidCode, .truncatedCode,
        .dstOverflow, .bitcountOverflow, .truncated, .badSelector, .tableOrder, .badOffsets, .notPrefixFree,
        .sizeMismatch, .badGeometry, .paletteRemainder, .badFrameGeometry] : List ErrKind).map
      (fun k => (k.code.toNat, k.cls.toNat)) =
    [(0x01, 3), (0x02, 3), (0x03, 3), (0x04, 3), (0x05, 3), (0x06, 3), (0x07, 2), (0x08, 2), (0x09, 3), (0x0A, 3),
      (0x0B, 2), (0x0C, 2), (0x0D, 2), (0x0E, 2), (0x0F, 2), (0x10, 2), (0x11, 1), (0x12, 2), (0x13, 2)]

/-- 10_state.md R42: HUF_ENCODE, HUF_DECODE, TBL_PACK and FRAME_PACK raise NO_TABLE(0) when TBL_VALID = 0, before any other
check. -/
def Obligations.TableReadersRaiseNoTable : Prop :=
  ∀ (i : Instr) (s : State), i ∈ [.hufEncode, .hufDecode, .tblPack, .framePack] → s.disturbed = false → s.table = none →
    exec i s = .next (errState s none .noTable 0)

/-- 00_scope.md R10: a source range that passes MEM_BYTES raises ADDR_RANGE with lo32 of its start, before its contents are
looked at; the loading commands lose the table (60_exceptions.md R214). -/
def Obligations.SourceRangeIsCheckedFirst : Prop :=
  ∀ s : State, s.disturbed = false →
    (OutOfMemory s s.args.a0.toNat (4 * s.args.a1.toNat) →
        exec .hufBuild s = .next (errState s none .addrRange s.args.a0.toNat) ∧
          (s.table ≠ none → exec .hufEncode s = .next (errState s s.table .addrRange s.args.a0.toNat))) ∧
      (OutOfMemory s s.args.a0.toNat ((s.args.a1.toNat + 7) / 8) →
        exec .bitseqPack s = .next (errState s s.table .addrRange s.args.a0.toNat) ∧
          (s.table ≠ none → exec .hufDecode s = .next (errState s s.table .addrRange s.args.a0.toNat))) ∧
      (OutOfMemory s s.args.a0.toNat s.args.a1.toNat →
        exec .bitseqUnpack s = .next (errState s s.table .addrRange s.args.a0.toNat) ∧
          exec .tblUnpack s = .next (errState s none .addrRange s.args.a0.toNat) ∧
          exec .frameUnpack s = .next (errState s none .addrRange s.args.a0.toNat))

/-! ## NOP -/

/-- 44_system.md R200: NOP, the word 0, completes, zeroes RES0..RES7 and changes nothing else, whatever holds. -/
def Obligations.NopOnlyZeroesResults : Prop :=
  decode 0x00000000#32 = .ok .nop ∧ ∀ s : State, exec .nop s = .next (okState s s.mem s.table {})

/-! ## MAD -/

/-- 40_metric.md R103: SAD, N, MADQ and LT of two blocks that lie in memory; no byte and no table entry changes. -/
def Obligations.MadReportsBlockDistance : Prop :=
  ∀ (s : State) (a sa b sb p q : Nat), s.disturbed = false →
    a = s.args.a0.toNat → sa = s.args.a1.toNat → b = s.args.a2.toNat → sb = s.args.a3.toNat →
    p = s.blkP.toNat → q = s.blkQ.toNat → 1 ≤ p → 1 ≤ q → 3 * p * q ≤ 2 ^ 32 - 1 →
    (∀ r < p, a + r * sa + 3 * q ≤ s.cfg.memBytes) → (∀ r < p, b + r * sb + 3 * q ≤ s.cfg.memBytes) →
    exec .mad s = .next
      (okState s s.mem s.table
        { r0 := BitVec.ofNat 32 (sad s.engineMem a sa b sb p q % 2 ^ 32)
          r1 := BitVec.ofNat 32 (sad s.engineMem a sa b sb p q / 2 ^ 32)
          r2 := BitVec.ofNat 32 (3 * p * q)
          r3 := BitVec.ofNat 32 (sad s.engineMem a sa b sb p q * 2 ^ 16 / (3 * p * q))
          r4 := if sad s.engineMem a sa b sb p q * 2 ^ 16 < s.alpha.toNat * (3 * p * q) then 1 else 0 })

/-- R102, R103: MAD's errors in order: BAD_GEOMETRY(0); then ADDR_RANGE of the smallest failing row of A; then of B. -/
def Obligations.MadErrorsInOrder : Prop :=
  ∀ (s : State) (a sa b sb p q : Nat), s.disturbed = false →
    a = s.args.a0.toNat → sa = s.args.a1.toNat → b = s.args.a2.toNat → sb = s.args.a3.toNat →
    p = s.blkP.toNat → q = s.blkQ.toNat →
    ((p = 0 ∨ q = 0 ∨ 2 ^ 32 - 1 < 3 * p * q) → exec .mad s = .next (errState s s.table .badGeometry 0)) ∧
      (1 ≤ p → 1 ≤ q → 3 * p * q ≤ 2 ^ 32 - 1 →
        (∀ r < p, (∀ j < r, a + j * sa + 3 * q ≤ s.cfg.memBytes) → s.cfg.memBytes < a + r * sa + 3 * q →
            exec .mad s = .next (errState s s.table .addrRange (a + r * sa))) ∧
          ((∀ r < p, a + r * sa + 3 * q ≤ s.cfg.memBytes) →
            ∀ r < p, (∀ j < r, b + j * sb + 3 * q ≤ s.cfg.memBytes) → s.cfg.memBytes < b + r * sb + 3 * q →
              exec .mad s = .next (errState s s.table .addrRange (b + r * sb))))

/-- R104: SAD is symmetric, zero exactly for byte-identical blocks, at most 255 · N, and obeys the triangle inequality;
LT is monotone in ALPHA. -/
def Obligations.BlockDistanceLaws : Prop :=
  ∀ (m : Memory) (a sa b sb c sc p q : Nat),
    m.sad a sa b sb p q = m.sad b sb a sa p q ∧
      (m.sad a sa b sb p q = 0 ↔
        ∀ r < p, ∀ i < 3 * q, m.byte (a + r * sa + i) = m.byte (b + r * sb + i)) ∧
      m.sad a sa b sb p q ≤ 255 * (3 * p * q) ∧
      m.sad a sa c sc p q ≤ m.sad a sa b sb p q + m.sad b sb c sc p q ∧
      ∀ n v v', v ≤ v' → belowThreshold (m.sad a sa b sb p q) n v = true →
        belowThreshold (m.sad a sa b sb p q) n v' = true

/-! ## Huffman -/

/-- 41_huffman.md R120, R121: HUF_BUILD loads the table of the sequence's symbols, ascending, one entry each, whenever
they fit MAX_SYMS and no code can be too long (R123 (c)); the results count entries, code bits and encoded bits. -/
def Obligations.HufBuildLoadsTableOfSequence : Prop :=
  ∀ (s : State) (seq : List Word), s.disturbed = false → seq = s.engineMem.words s.args.a0.toNat s.args.a1.toNat →
    InMemory s s.args.a0.toNat (4 * s.args.a1.toNat) → seq.toFinset.card ≤ s.cfg.maxSyms →
    seq.toFinset.card ≤ s.cfg.maxCodeLen + 1 →
    ∃ t : Table,
      exec .hufBuild s = .next
        (okState s s.mem (some t) (buildResults t seq)) ∧
        (t.map fun e => e.sym.toNat).Pairwise (· < ·) ∧ (∀ x, InTable t x ↔ x ∈ seq)

/-- R120, R121, R214: for the distinct symbols of the sequence, ascending, HUF_BUILD raises TABLE_FULL(m) if they are more
than MAX_SYMS; else their codes are those of R121's construction, frequencies, tie-break and children's order included: it
loads them with their results, or raises CODE_TOO_LONG of the longest. The errors leave no table. -/
def Obligations.HufBuildFollowsHuffmanCodes : Prop :=
  ∀ (s : State) (seq syms : List Word), s.cfg.Legal → s.disturbed = false →
    seq = s.engineMem.words s.args.a0.toNat s.args.a1.toNat → InMemory s s.args.a0.toNat (4 * s.args.a1.toNat) →
    syms.Pairwise (fun x y => x.toNat < y.toNat) → (∀ x, x ∈ syms ↔ x ∈ seq) →
    (∀ t, huffmanCodes s.cfg seq = .ok t → exec .hufBuild s = .next (okState s s.mem (some t) (buildResults t seq))) ∧
      (s.cfg.maxSyms < syms.length → exec .hufBuild s = .next (errState s none .tableFull syms.length)) ∧
      (syms.length ≤ s.cfg.maxSyms →
        ∃ (t : Table) (n : Nat), HuffmanTable seq syms t ∧ n = (t.map Entry.len).foldr max 0 ∧
          (n ≤ s.cfg.maxCodeLen → exec .hufBuild s = .next (okState s s.mem (some t) (buildResults t seq))) ∧
          (s.cfg.maxCodeLen < n → n < syms.length ∧ exec .hufBuild s = .next (errState s none .codeTooLong n)))

/-- R123 (a), (b), (c): a built table is valid (R41), so prefix-free; its Kraft sum is 1 for two or more symbols and 1/2
for one; and no code is longer than max(1, m − 1). -/
def Obligations.BuiltTableIsACompletePrefixCode : Prop :=
  ∀ (c : Params) (seq : List Word) (t : Table), c.Legal → huffmanCodes c seq = .ok t →
    TableValid c t ∧ (2 ≤ t.length → kraft t = 1) ∧ (t.length = 1 → kraft t = 1 / 2) ∧
      ∀ e ∈ t, e.len ≤ max 1 (t.length - 1)

/-- R133: HUF_BUILD's table depends only on how often each symbol occurs: two runs on sequences that are permutations of
each other, in whatever states, leave the same table. -/
def Obligations.HuffmanTableIgnoresOrder : Prop :=
  ∀ s s' : State, s.cfg = s'.cfg → s.disturbed = false → s'.disturbed = false →
    InMemory s s.args.a0.toNat (4 * s.args.a1.toNat) → InMemory s' s'.args.a0.toNat (4 * s'.args.a1.toNat) →
    (s.engineMem.words s.args.a0.toNat s.args.a1.toNat).Perm (s'.engineMem.words s'.args.a0.toNat s'.args.a1.toNat) →
    ∃ t t', exec .hufBuild s = .next t ∧ exec .hufBuild s' = .next t' ∧ t.table = t'.table

/-- R124, R126: HUF_ENCODE writes the concatenated codes, packed and zero-padded, for every sequence whose symbols are in
the table; bytes outside [dst, dst + ceil(T/8)) and the table do not change. -/
def Obligations.HufEncodeWritesConcatenatedCodes : Prop :=
  ∀ (s : State) (t : Table) (seq : List Word) (src n dst T : Nat), s.disturbed = false → s.table = some t →
    src = s.args.a0.toNat → n = s.args.a1.toNat → dst = s.args.a2.toNat → seq = s.engineMem.words src n →
    (∀ x ∈ seq, InTable t x) → T = (enc t seq).length → T ≤ 2 ^ 32 - 1 → InMemory s src (4 * n) →
    InMemory s dst ((T + 7) / 8) → Apart dst ((T + 7) / 8) src (4 * n) →
    ∃ m, exec .hufEncode s = .next
        (okState s m (some t) { r0 := BitVec.ofNat 32 T, r1 := BitVec.ofNat 32 ((T + 7) / 8) }) ∧
      m.HoldsBits dst (enc t seq) ∧ (∀ k, T ≤ k → k < 8 * ((T + 7) / 8) → m.bit dst k = false) ∧
      SameOutside ⟨dst, (T + 7) / 8⟩ s.mem m

/-- R126: HUF_ENCODE's later errors: SYMBOL_NOT_IN_TABLE(i) for the smallest failing i; BITCOUNT_OVERFLOW(0); then
ADDR_RANGE(dst). The table stays. -/
def Obligations.HufEncodeErrorsInOrder : Prop :=
  ∀ (s : State) (t : Table) (seq : List Word) (src n dst : Nat), s.disturbed = false → s.table = some t →
    src = s.args.a0.toNat → n = s.args.a1.toNat → dst = s.args.a2.toNat → seq = s.engineMem.words src n →
    InMemory s src (4 * n) →
    (∀ i (h : i < seq.length), ¬ InTable t seq[i] → (∀ j (hj : j < i), InTable t seq[j]) →
        exec .hufEncode s = .next (errState s (some t) .symbolNotInTable i)) ∧
      ((∀ x ∈ seq, InTable t x) → 2 ^ 32 - 1 < (enc t seq).length →
        exec .hufEncode s = .next (errState s (some t) .bitcountOverflow 0)) ∧
      ((∀ x ∈ seq, InTable t x) → (enc t seq).length ≤ 2 ^ 32 - 1 →
        OutOfMemory s dst (((enc t seq).length + 7) / 8) →
        exec .hufEncode s = .next (errState s (some t) .addrRange dst))

/-- R130, R131: HUF_DECODE inverts the encoding. If the bits at src are Enc(seq) under the current valid table, it writes
seq at dst; bytes outside [dst, dst + 4·|seq|) and the table do not change. -/
def Obligations.HufDecodeInvertsEncoding : Prop :=
  ∀ (s : State) (t : Table) (seq : List Word) (src T dst cap : Nat), s.disturbed = false → s.table = some t →
    TableValid s.cfg t → src = s.args.a0.toNat → T = s.args.a1.toNat → dst = s.args.a2.toNat → cap = s.args.a3.toNat →
    (∀ x ∈ seq, InTable t x) → T = (enc t seq).length → s.engineMem.HoldsBits src (enc t seq) → seq.length ≤ cap →
    InMemory s src ((T + 7) / 8) → InMemory s dst (4 * seq.length) →
    Apart dst (4 * seq.length) src ((T + 7) / 8) →
    ∃ m, exec .hufDecode s = .next (okState s m (some t) { r0 := BitVec.ofNat 32 seq.length }) ∧
      m.words dst seq.length = seq ∧ SameOutside ⟨dst, 4 * seq.length⟩ s.mem m

/-- R130, R131: the decode errors in order. Bits that end inside a code raise TRUNCATED_CODE at the bit where that code began,
and a bit that leads to no node of the code tree raises INVALID_CODE at that bit; then the decoded count is checked against
cap, then the destination range. -/
def Obligations.HufDecodeErrorsInOrder : Prop :=
  ∀ (s : State) (t : Table) (seq : List Word) (w : Bits) (src T dst cap : Nat), s.disturbed = false → s.table = some t →
    TableValid s.cfg t → src = s.args.a0.toNat → T = s.args.a1.toNat → dst = s.args.a2.toNat → cap = s.args.a3.toNat →
    InMemory s src ((T + 7) / 8) → (∀ x ∈ seq, InTable t x) →
    (w ≠ [] → (∃ e ∈ t, w <+: e.code ∧ w ≠ e.code) → T = (enc t seq ++ w).length →
        s.engineMem.HoldsBits src (enc t seq ++ w) →
        exec .hufDecode s = .next (errState s (some t) .truncatedCode (enc t seq).length)) ∧
      (∀ (b : Bool) (rest : Bits), (w = [] ∨ ∃ e ∈ t, w <+: e.code ∧ w ≠ e.code) →
        (∀ e ∈ t, ¬ (w ++ [b]) <+: e.code) → T = (enc t seq ++ w ++ b :: rest).length →
        s.engineMem.HoldsBits src (enc t seq ++ w ++ b :: rest) →
        exec .hufDecode s = .next (errState s (some t) .invalidCode ((enc t seq).length + w.length))) ∧
      (T = (enc t seq).length → s.engineMem.HoldsBits src (enc t seq) →
        (cap < seq.length → exec .hufDecode s = .next (errState s (some t) .dstOverflow seq.length)) ∧
          (seq.length ≤ cap → OutOfMemory s dst (4 * seq.length) →
            exec .hufDecode s = .next (errState s (some t) .addrRange dst)))

/-- R132: the round trip at the machine. HUF_ENCODE of a sequence whose symbols are in the current valid table, followed by
HUF_DECODE of its output with T = RES0 and a capacity of at least n, writes the sequence back. Every symbol of a sequence is
in the table built from it. -/
def Obligations.EncodeThenDecodeWritesSequenceBack : Prop :=
  (∀ (s t : State) (tb : Table) (seq : List Word) (src n out dst cap : Nat), s.disturbed = false → s.table = some tb →
      TableValid s.cfg tb → src = s.args.a0.toNat → n = s.args.a1.toNat → out = s.args.a2.toNat →
      seq = s.engineMem.words src n → (∀ x ∈ seq, InTable tb x) → (enc tb seq).length ≤ 2 ^ 32 - 1 →
      InMemory s src (4 * n) → InMemory s out (((enc tb seq).length + 7) / 8) →
      Apart out (((enc tb seq).length + 7) / 8) src (4 * n) → exec .hufEncode s = .next t →
      n ≤ cap → cap < 2 ^ 32 → dst < 2 ^ 32 → InMemory s dst (4 * n) →
      Apart dst (4 * n) out (((enc tb seq).length + 7) / 8) →
      ∃ u, exec .hufDecode
            { t with args :=
                { t.args with
                  a0 := s.args.a2, a1 := t.res.r0, a2 := BitVec.ofNat 32 dst, a3 := BitVec.ofNat 32 cap } } = .next u ∧
        u.err = s.err ∧ u.res = { r0 := BitVec.ofNat 32 n } ∧ u.table = some tb ∧ u.mem.words dst n = seq) ∧
    ∀ (c : Params) (seq : List Word) (tb : Table), huffmanCodes c seq = .ok tb → ∀ x ∈ seq, InTable tb x

/-! ## Serialization -/

/-- 42_serial.md R152, R160: BITSEQ_PACK writes the selector, the count in that width and the bits, padding cleared, or raises
ADDR_RANGE(dst), its last check. -/
def Obligations.BitseqPackWritesLengthPrefixedBits : Prop :=
  ∀ (s : State) (src T dst w : Nat), s.disturbed = false → src = s.args.a0.toNat → T = s.args.a1.toNat →
    dst = s.args.a2.toNat → w = (if T ≤ 0xFF then 1 else if T ≤ 0xFFFF then 2 else 4) →
    InMemory s src ((T + 7) / 8) →
    (InMemory s dst (1 + w + (T + 7) / 8) → Apart dst (1 + w + (T + 7) / 8) src ((T + 7) / 8) →
        ∃ m, exec .bitseqPack s = .next (okState s m s.table { r0 := BitVec.ofNat 32 (1 + w + (T + 7) / 8) }) ∧
          (m.byte dst).toNat = w ∧ m.read (dst + 1) w = T ∧
          (∀ k < T, m.bit (dst + 1 + w) k = s.engineMem.bit src k) ∧
          (∀ k, T ≤ k → k < 8 * ((T + 7) / 8) → m.bit (dst + 1 + w) k = false) ∧
          SameOutside ⟨dst, 1 + w + (T + 7) / 8⟩ s.mem m) ∧
      (OutOfMemory s dst (1 + w + (T + 7) / 8) → exec .bitseqPack s = .next (errState s s.table .addrRange dst))

/-- R151, R153, R161: BITSEQ_UNPACK returns the count, the bytes used and the payload address, for every selector, minimal
or not; it copies nothing. -/
def Obligations.BitseqUnpackParsesLengthPrefixedBits : Prop :=
  ∀ (s : State) (src len w T : Nat), s.disturbed = false → src = s.args.a0.toNat → len = s.args.a1.toNat →
    InMemory s src len → 1 ≤ len → w = (s.engineMem.byte src).toNat → w ∈ [1, 2, 4] → 1 + w ≤ len →
    T = s.engineMem.read (src + 1) w → 1 + w + (T + 7) / 8 ≤ len →
    exec .bitseqUnpack s = .next
      (okState s s.mem s.table
        { r0 := BitVec.ofNat 32 T, r1 := BitVec.ofNat 32 (1 + w + (T + 7) / 8),
          r2 := BitVec.ofNat 32 ((src + 1 + w) % 2 ^ 32) })

/-- R161: BITSEQ_UNPACK's errors in order: TRUNCATED(0), BAD_SELECTOR(0), TRUNCATED(1), TRUNCATED(1 + w). -/
def Obligations.BitseqUnpackErrorsInOrder : Prop :=
  ∀ (s : State) (src len w : Nat), s.disturbed = false → src = s.args.a0.toNat → len = s.args.a1.toNat →
    InMemory s src len → w = (s.engineMem.byte src).toNat →
    (len = 0 → exec .bitseqUnpack s = .next (errState s s.table .truncated 0)) ∧
      (1 ≤ len → w ∉ [1, 2, 4] → exec .bitseqUnpack s = .next (errState s s.table .badSelector 0)) ∧
      (1 ≤ len → w ∈ [1, 2, 4] → len < 1 + w → exec .bitseqUnpack s = .next (errState s s.table .truncated 1)) ∧
      (w ∈ [1, 2, 4] → 1 + w ≤ len → len < 1 + w + (s.engineMem.read (src + 1) w + 7) / 8 →
        exec .bitseqUnpack s = .next (errState s s.table .truncated (1 + w)))

/-- R156, R166: TBL_PACK writes TableBytes of the current table, whose length is (1 + Sel(m)) + 4·m + (1 + wb + ceil(Tc/8))
+ wb·(m + 1), or raises ADDR_RANGE(dst) if they do not fit. -/
def Obligations.TblPackWritesTableBytes : Prop :=
  ∀ (s : State) (t : Table) (dst tc len : Nat), s.disturbed = false → s.table = some t → dst = s.args.a0.toNat →
    tc = (t.map Entry.len).sum →
    len = (1 + sel t.length) + 4 * t.length + (1 + sel tc + (tc + 7) / 8) + sel tc * (t.length + 1) →
    (dst + len ≤ s.cfg.memBytes →
      ∃ m, exec .tblPack s = .next (okState s m (some t) { r0 := BitVec.ofNat 32 len }) ∧
        (tableBytes t).length = len ∧ m.Holds dst (tableBytes t) ∧ SameOutside ⟨dst, len⟩ s.mem m) ∧
      (s.cfg.memBytes < dst + len → exec .tblPack s = .next (errState s (some t) .addrRange dst))

/-- R158 (c), R167: TBL_UNPACK of the serialization of any valid table loads exactly that table; bytes after it do not
matter, and no byte of memory changes. -/
def Obligations.TblUnpackRestoresPackedTable : Prop :=
  ∀ (s : State) (t : Table) (src len : Nat), s.cfg.Legal → s.disturbed = false → TableValid s.cfg t →
    src = s.args.a0.toNat → len = s.args.a1.toNat → InMemory s src len → (tableBytes t).length ≤ len →
    s.engineMem.Holds src (tableBytes t) →
    exec .tblUnpack s = .next
      (okState s s.mem (some t)
        { r0 := BitVec.ofNat 32 (tableBytes t).length, r1 := BitVec.ofNat 32 t.length })

/-- R157, R41: whatever the bytes, TBL_UNPACK and FRAME_UNPACK load only valid tables, or leave none. -/
def Obligations.UnpackedTablesAreValid : Prop :=
  ∀ (i : Instr) (s : State), i = .tblUnpack ∨ i = .frameUnpack →
    ∃ t, exec i s = .next t ∧ ∀ tb, t.table = some tb → TableValid s.cfg tb

/-- R157, R167: on every source in memory TBL_UNPACK either loads the table whose serialization passes every check of
ParseTable, selectors wider than needed included, or raises the first failing check's error and leaves no table; no byte of
memory changes. -/
def Obligations.TblUnpackParsesOrRaisesTheFirstError : Prop :=
  ∀ (s : State) (src len : Nat), s.disturbed = false → src = s.args.a0.toNat → len = s.args.a1.toNat →
    InMemory s src len →
    (∀ t stop, TableAt s.cfg s.engineMem src len 0 t stop →
        exec .tblUnpack s = .next
          (okState s s.mem (some t) { r0 := BitVec.ofNat 32 stop, r1 := BitVec.ofNat 32 t.length })) ∧
      (∀ x, TableFails s.cfg s.engineMem src len 0 x →
        exec .tblUnpack s = .next (errState s none x.kind x.info)) ∧
      ((∃ t stop, TableAt s.cfg s.engineMem src len 0 t stop) ∨ ∃ x, TableFails s.cfg s.engineMem src len 0 x)

/-- 43_frame.md R180, R182: FRAME_PACK lays out S, the table and the code, p, q, the image size and the palette. -/
def Obligations.FramePackLaysOutTheFrame : Prop :=
  ∀ (s : State) (t : Table) (dst csrc T psrc k p q S : Nat), s.cfg.Legal → s.disturbed = false → s.table = some t →
    dst = s.args.a0.toNat → csrc = s.args.a1.toNat → T = s.args.a2.toNat → psrc = s.args.a3.toNat →
    k = s.args.a4.toNat → p = s.blkP.toNat → q = s.blkQ.toNat → 1 ≤ p → 1 ≤ q → s.imgW.toNat % q = 0 →
    s.imgH.toNat % p = 0 → S = (tableBytes t).length + (1 + sel T + (T + 7) / 8) → InMemory s csrc ((T + 7) / 8) →
    InMemory s psrc (k * (3 * p * q)) → dst + (20 + S + k * (3 * p * q)) ≤ s.cfg.memBytes →
    Apart dst (20 + S + k * (3 * p * q)) csrc ((T + 7) / 8) → Apart dst (20 + S + k * (3 * p * q)) psrc (k * (3 * p * q)) →
    ∃ m, exec .framePack s = .next
        (okState s m (some t)
          { r0 := BitVec.ofNat 32 ((20 + S + k * (3 * p * q)) % 2 ^ 32), r1 := BitVec.ofNat 32 S }) ∧
      m.read dst 4 = S ∧ m.Holds (dst + 4) (tableBytes t ++ s.engineMem.bitSeqBytes csrc T) ∧
      m.read (dst + 4 + S) 4 = p ∧ m.read (dst + 4 + S + 4) 4 = q ∧ m.read (dst + 4 + S + 8) 4 = s.imgW.toNat ∧
      m.read (dst + 4 + S + 12) 4 = s.imgH.toNat ∧
      (∀ j < k * (3 * p * q), m.byte (dst + 4 + S + 16 + j) = s.engineMem.byte (psrc + j)) ∧
      SameOutside ⟨dst, 20 + S + k * (3 * p * q)⟩ s.mem m

/-- R182: FRAME_PACK's errors after NO_TABLE: BAD_GEOMETRY(0), ADDR_RANGE(csrc), ADDR_RANGE(psrc), ADDR_RANGE(dst). -/
def Obligations.FramePackErrorsInOrder : Prop :=
  ∀ (s : State) (t : Table) (dst csrc T psrc k p q S : Nat), s.disturbed = false → s.table = some t →
    dst = s.args.a0.toNat → csrc = s.args.a1.toNat → T = s.args.a2.toNat → psrc = s.args.a3.toNat →
    k = s.args.a4.toNat → p = s.blkP.toNat → q = s.blkQ.toNat → S = (tableBytes t).length + (1 + sel T + (T + 7) / 8) →
    ((p = 0 ∨ q = 0 ∨ s.imgW.toNat % q ≠ 0 ∨ s.imgH.toNat % p ≠ 0) →
        exec .framePack s = .next (errState s (some t) .badGeometry 0)) ∧
      (1 ≤ p → 1 ≤ q → s.imgW.toNat % q = 0 → s.imgH.toNat % p = 0 →
        (OutOfMemory s csrc ((T + 7) / 8) → exec .framePack s = .next (errState s (some t) .addrRange csrc)) ∧
          (InMemory s csrc ((T + 7) / 8) → OutOfMemory s psrc (k * (3 * p * q)) →
            exec .framePack s = .next (errState s (some t) .addrRange psrc)) ∧
          (InMemory s csrc ((T + 7) / 8) → InMemory s psrc (k * (3 * p * q)) →
            OutOfMemory s dst (20 + S + k * (3 * p * q)) →
            exec .framePack s = .next (errState s (some t) .addrRange dst)))

/-- R185: FRAME_UNPACK of a frame laid out as R180 loads its table and reports the code, the palette, the block and image
sizes; the bits at the reported code address are the frame's code bits. -/
def Obligations.FrameUnpackReadsTheFrame : Prop :=
  ∀ (s : State) (t : Table) (code : Bits) (palette : List Byte) (src len p q w h k S : Nat), s.cfg.Legal →
    s.disturbed = false → TableValid s.cfg t → code.length < 2 ^ 32 → src = s.args.a0.toNat → len = s.args.a1.toNat →
    1 ≤ p → 1 ≤ q → p < 2 ^ 32 → q < 2 ^ 32 → w < 2 ^ 32 → h < 2 ^ 32 → w % q = 0 → h % p = 0 →
    palette.length = k * (3 * p * q) → S = (tableBytes t ++ bitSeqOf code).length → len = 20 + S + palette.length →
    InMemory s src len →
    s.engineMem.Holds src (frameBytes (tableBytes t ++ bitSeqOf code) p q w h palette) →
    exec .frameUnpack s = .next
        (okState s s.mem (some t)
          { r0 := BitVec.ofNat 32 ((src + 4 + (tableBytes t).length + 1 + sel code.length) % 2 ^ 32)
            r1 := BitVec.ofNat 32 code.length
            r2 := BitVec.ofNat 32 ((src + 4 + S + 16) % 2 ^ 32)
            r3 := BitVec.ofNat 32 k
            r4 := BitVec.ofNat 32 p
            r5 := BitVec.ofNat 32 q
            r6 := BitVec.ofNat 32 w
            r7 := BitVec.ofNat 32 h }) ∧
      s.engineMem.HoldsBits (src + 4 + (tableBytes t).length + 1 + sel code.length) code

/-- R185: FRAME_UNPACK reads S and, below 4 + S, the table and the code bits, then the header and the palette size: it raises
the first failing check's error and leaves no table, or loads the table and reports what it read. No byte of memory changes. -/
def Obligations.FrameUnpackParsesOrRaisesTheFirstError : Prop :=
  ∀ (s : State) (src len S : Nat), s.disturbed = false → src = s.args.a0.toNat → len = s.args.a1.toNat →
    InMemory s src len → S = s.engineMem.read src 4 →
    (len < 4 → exec .frameUnpack s = .next (errState s none .truncated 0)) ∧
      (4 ≤ len → len < 4 + S → exec .frameUnpack s = .next (errState s none .truncated 4)) ∧
      (4 + S ≤ len →
        (∀ x, TableFails s.cfg s.engineMem src (4 + S) 4 x →
          exec .frameUnpack s = .next (errState s none x.kind x.info)) ∧
        ∀ tb off, TableAt s.cfg s.engineMem src (4 + S) 4 tb off →
          (∀ x, BitsFail s.engineMem src (4 + S) off x →
            exec .frameUnpack s = .next (errState s none x.kind x.info)) ∧
          ∀ wt T stop p q w h R, BitsAt s.engineMem src (4 + S) off wt T → stop = off + 1 + wt + (T + 7) / 8 →
            p = s.engineMem.read (src + 4 + S) 4 → q = s.engineMem.read (src + 4 + S + 4) 4 →
            w = s.engineMem.read (src + 4 + S + 8) 4 → h = s.engineMem.read (src + 4 + S + 12) 4 →
            R = len - (4 + S + 16) →
            (stop ≠ 4 + S → exec .frameUnpack s = .next (errState s none .sizeMismatch stop)) ∧
            (stop = 4 + S → len < 4 + S + 16 → exec .frameUnpack s = .next (errState s none .truncated (4 + S))) ∧
            (stop = 4 + S → 4 + S + 16 ≤ len → (p = 0 ∨ q = 0 ∨ w % q ≠ 0 ∨ h % p ≠ 0) →
              exec .frameUnpack s = .next (errState s none .badFrameGeometry (4 + S))) ∧
            (stop = 4 + S → 4 + S + 16 ≤ len → 1 ≤ p → 1 ≤ q → w % q = 0 → h % p = 0 →
              (R % (3 * p * q) ≠ 0 →
                exec .frameUnpack s = .next (errState s none .paletteRemainder (4 + S + 16))) ∧
              (R % (3 * p * q) = 0 →
                exec .frameUnpack s = .next
                  (okState s s.mem (some tb)
                    { r0 := BitVec.ofNat 32 ((src + off + 1 + wt) % 2 ^ 32)
                      r1 := BitVec.ofNat 32 T
                      r2 := BitVec.ofNat 32 ((src + 4 + S + 16) % 2 ^ 32)
                      r3 := BitVec.ofNat 32 (R / (3 * p * q))
                      r4 := BitVec.ofNat 32 p
                      r5 := BitVec.ofNat 32 q
                      r6 := BitVec.ofNat 32 w
                      r7 := BitVec.ofNat 32 h }))))

/-- R187: the frame round trip at the machine. If FRAME_PACK succeeds with a valid table, FRAME_UNPACK of what it wrote
succeeds and gives back the table, the code count, the palette count, p, q and the image size. -/
def Obligations.FrameRoundTrip : Prop :=
  ∀ (s t : State) (tb : Table) (x : Option Table) (dst S : Nat), s.cfg.Legal → s.disturbed = false →
    s.table = some tb → TableValid s.cfg tb → s.err = false → exec .framePack s = .next t → t.err = false →
    dst = s.args.a0.toNat → S = t.res.r1.toNat →
    20 + S + s.args.a4.toNat * (3 * s.blkP.toNat * s.blkQ.toNat) < 2 ^ 32 →
    Apart dst (20 + S + s.args.a4.toNat * (3 * s.blkP.toNat * s.blkQ.toNat)) s.args.a1.toNat
      ((s.args.a2.toNat + 7) / 8) →
    Apart dst (20 + S + s.args.a4.toNat * (3 * s.blkP.toNat * s.blkQ.toNat)) s.args.a3.toNat
      (s.args.a4.toNat * (3 * s.blkP.toNat * s.blkQ.toNat)) →
    ∃ u, exec .frameUnpack { t with table := x, args := { t.args with a0 := s.args.a0, a1 := t.res.r0 } } = .next u ∧
      u.err = false ∧ u.table = some tb ∧ u.mem = t.mem ∧ u.res.r1 = s.args.a2 ∧ u.res.r3 = s.args.a4 ∧
      u.res.r4 = s.blkP ∧ u.res.r5 = s.blkQ ∧ u.res.r6 = s.imgW ∧ u.res.r7 = s.imgH ∧
      (∀ k < s.args.a2.toNat, u.mem.bit u.res.r0.toNat k = s.engineMem.bit s.args.a1.toNat k) ∧
      (∀ j < s.args.a4.toNat * (3 * s.blkP.toNat * s.blkQ.toNat),
        u.mem.byte (u.res.r2.toNat + j) = s.engineMem.byte (s.args.a3.toNat + j))

/-! ## Host programs -/

/-- 30_encoding.md R90: a command statement with number operands, issued to an Idle block with nothing pending, is run by as
many steps as it has operands, and four more: it writes ARG0..ARGk in order, then CMD, and waits until the command has
completed (the failing poll before the completion is the model's choice, log 13). -/
def Obligations.CommandStatementRunsTheCommand : Prop :=
  ∀ (s : State) (i : Instr) (vs : List Nat), s.isBusy = false → s.inputs = [] →
    (Stmt.command i (vs.map Operand.imm)).wf s.cfg = true →
    ∃ (t u : State), t.isBusy = true ∧ t.engineMem = s.mem ∧ t.table = s.table ∧ t.disturbed = false ∧ t.inputs = [] ∧
      t.cmd = encode i ∧
      (∀ j (h : j < vs.length), [t.args.a0, t.args.a1, t.args.a2, t.args.a3, t.args.a4, t.args.a5].getD j 0 =
        BitVec.ofNat 32 vs[j]) ∧
      exec i t = .next u ∧
      Host.Core.run Sys2Proof.core (vs.length + 4) (s.issue [.command i (vs.map Operand.imm)]) =
        .next { u with busData := u.readOffset 0x00C }

/-! ## Invariants -/

/-- R24, R41, R42, R60: the state invariant (legal parameters, canonical memories of MEM_BYTES bytes, a valid table, the
STATUS invariants that hold) is kept by every step, whichever turn it is. -/
def Obligations.EveryStepKeepsTheInvariant : Prop :=
  ∀ s t : State, s.Inv → step s = .next t → t.Inv

/-- The invariant holds at reset. -/
def Obligations.ResetMeetsTheInvariant : Prop := State.reset.Inv

/-- 00_scope.md R5: the parameters are fixed for a run. -/
def Obligations.NoStepChangesTheParameters : Prop :=
  ∀ s t : State, step s = .next t → t.cfg = s.cfg

/-- 10_state.md R24 lists, among the invariants of every reachable state, that ERR = 1 implies DONE = 1. This statement says
that every step from a state that meets it and the other invariants keeps it. It is expected to FAIL: the W1C rule of the
same R24 lets the host clear DONE and leave ERR (log 12). -/
def Obligations.EveryStepKeepsErrImpliesDone : Prop :=
  ∀ s t : State, s.Inv → (s.err = true → s.done = true) → step s = .next t → t.err = true → t.done = true

/-- R244, R247: a step that keeps off the busy hazards, from an undisturbed state whose running command, if any, overlaps no
range, draws no free byte (log 6) and sets no DROP; while Busy it is no write to CTRL, which could be a soft reset. It says
nothing of the value of a byte that nothing has written since power-on (log 2). -/
def Obligations.HazardFreeStepDrawsNothing : Prop :=
  ∀ s t : State, s.disturbed = false → (s.isBusy = true → s.noOverlap) →
    (∀ x rest, s.inputs = .bus x :: rest → s.isBusy = true → busyHazard s.cfg x = false ∧
      ¬ (s.cfg.regBase + 0x008 = x.addr ∧ ∃ d, x.op = .write d)) →
    step s = .next t → SafeStep s t
end

