-- ==== Sys2Proof/Laws/State.lean ====
section
/-! SUPPORT. One lemma per field per update of State, so that no proof unfolds a record update. -/

namespace Sys2Proof.Machine

namespace State

/-! ### Command start (10_state.md R25) -/

@[simp] theorem startCommand_cfg (s : State) (w : Word) : (s.startCommand w).cfg = s.cfg := rfl
@[simp] theorem startCommand_mem (s : State) (w : Word) : (s.startCommand w).mem = s.mem := rfl
@[simp] theorem startCommand_table (s : State) (w : Word) : (s.startCommand w).table = s.table := rfl
@[simp] theorem startCommand_phase (s : State) (w : Word) : (s.startCommand w).phase = .busy s.mem false := rfl
@[simp] theorem startCommand_irqEn (s : State) (w : Word) : (s.startCommand w).irqEn = s.irqEn := rfl
@[simp] theorem startCommand_done (s : State) (w : Word) : (s.startCommand w).done = false := rfl
@[simp] theorem startCommand_err (s : State) (w : Word) : (s.startCommand w).err = false := rfl
@[simp] theorem startCommand_drop (s : State) (w : Word) : (s.startCommand w).drop = s.drop := rfl
@[simp] theorem startCommand_errCode (s : State) (w : Word) : (s.startCommand w).errCode = 0 := rfl
@[simp] theorem startCommand_errClass (s : State) (w : Word) : (s.startCommand w).errClass = 0 := rfl
@[simp] theorem startCommand_errInfo (s : State) (w : Word) : (s.startCommand w).errInfo = 0 := rfl
@[simp] theorem startCommand_cmd (s : State) (w : Word) : (s.startCommand w).cmd = w := rfl
@[simp] theorem startCommand_args (s : State) (w : Word) : (s.startCommand w).args = s.args := rfl
@[simp] theorem startCommand_res (s : State) (w : Word) : (s.startCommand w).res = s.res := rfl
@[simp] theorem startCommand_blkP (s : State) (w : Word) : (s.startCommand w).blkP = s.blkP := rfl
@[simp] theorem startCommand_blkQ (s : State) (w : Word) : (s.startCommand w).blkQ = s.blkQ := rfl
@[simp] theorem startCommand_imgW (s : State) (w : Word) : (s.startCommand w).imgW = s.imgW := rfl
@[simp] theorem startCommand_imgH (s : State) (w : Word) : (s.startCommand w).imgH = s.imgH := rfl
@[simp] theorem startCommand_alpha (s : State) (w : Word) : (s.startCommand w).alpha = s.alpha := rfl
@[simp] theorem startCommand_busData (s : State) (w : Word) : (s.startCommand w).busData = s.busData := rfl
@[simp] theorem startCommand_draws (s : State) (w : Word) : (s.startCommand w).draws = s.draws := rfl
@[simp] theorem startCommand_inputs (s : State) (w : Word) : (s.startCommand w).inputs = s.inputs := rfl

/-! ### W1C of STATUS (10_state.md R24) -/

@[simp] theorem clearStatus_cfg (s : State) (w : Word) : (s.clearStatus w).cfg = s.cfg := rfl
@[simp] theorem clearStatus_mem (s : State) (w : Word) : (s.clearStatus w).mem = s.mem := rfl
@[simp] theorem clearStatus_table (s : State) (w : Word) : (s.clearStatus w).table = s.table := rfl
@[simp] theorem clearStatus_phase (s : State) (w : Word) : (s.clearStatus w).phase = s.phase := rfl
@[simp] theorem clearStatus_irqEn (s : State) (w : Word) : (s.clearStatus w).irqEn = s.irqEn := rfl
@[simp] theorem clearStatus_done (s : State) (w : Word) : (s.clearStatus w).done = (s.done && !w.getLsbD 1) := rfl
@[simp] theorem clearStatus_err (s : State) (w : Word) : (s.clearStatus w).err = (s.err && !w.getLsbD 2) := rfl
@[simp] theorem clearStatus_drop (s : State) (w : Word) : (s.clearStatus w).drop = (s.drop && !w.getLsbD 3) := rfl
@[simp] theorem clearStatus_errCode (s : State) (w : Word) : (s.clearStatus w).errCode = s.errCode := rfl
@[simp] theorem clearStatus_errClass (s : State) (w : Word) : (s.clearStatus w).errClass = s.errClass := rfl
@[simp] theorem clearStatus_errInfo (s : State) (w : Word) : (s.clearStatus w).errInfo = s.errInfo := rfl
@[simp] theorem clearStatus_cmd (s : State) (w : Word) : (s.clearStatus w).cmd = s.cmd := rfl
@[simp] theorem clearStatus_args (s : State) (w : Word) : (s.clearStatus w).args = s.args := rfl
@[simp] theorem clearStatus_res (s : State) (w : Word) : (s.clearStatus w).res = s.res := rfl
@[simp] theorem clearStatus_blkP (s : State) (w : Word) : (s.clearStatus w).blkP = s.blkP := rfl
@[simp] theorem clearStatus_blkQ (s : State) (w : Word) : (s.clearStatus w).blkQ = s.blkQ := rfl
@[simp] theorem clearStatus_imgW (s : State) (w : Word) : (s.clearStatus w).imgW = s.imgW := rfl
@[simp] theorem clearStatus_imgH (s : State) (w : Word) : (s.clearStatus w).imgH = s.imgH := rfl
@[simp] theorem clearStatus_alpha (s : State) (w : Word) : (s.clearStatus w).alpha = s.alpha := rfl
@[simp] theorem clearStatus_busData (s : State) (w : Word) : (s.clearStatus w).busData = s.busData := rfl
@[simp] theorem clearStatus_draws (s : State) (w : Word) : (s.clearStatus w).draws = s.draws := rfl
@[simp] theorem clearStatus_inputs (s : State) (w : Word) : (s.clearStatus w).inputs = s.inputs := rfl

/-! ### A dropped write (10_state.md R25) -/

@[simp] theorem dropWrite_cfg (s : State) : (s.dropWrite).cfg = s.cfg := rfl
@[simp] theorem dropWrite_mem (s : State) : (s.dropWrite).mem = s.mem := rfl
@[simp] theorem dropWrite_table (s : State) : (s.dropWrite).table = s.table := rfl
@[simp] theorem dropWrite_phase (s : State) : (s.dropWrite).phase = s.phase := rfl
@[simp] theorem dropWrite_irqEn (s : State) : (s.dropWrite).irqEn = s.irqEn := rfl
@[simp] theorem dropWrite_done (s : State) : (s.dropWrite).done = s.done := rfl
@[simp] theorem dropWrite_err (s : State) : (s.dropWrite).err = s.err := rfl
@[simp] theorem dropWrite_drop (s : State) : (s.dropWrite).drop = true := rfl
@[simp] theorem dropWrite_errCode (s : State) : (s.dropWrite).errCode = s.errCode := rfl
@[simp] theorem dropWrite_errClass (s : State) : (s.dropWrite).errClass = s.errClass := rfl
@[simp] theorem dropWrite_errInfo (s : State) : (s.dropWrite).errInfo = s.errInfo := rfl
@[simp] theorem dropWrite_cmd (s : State) : (s.dropWrite).cmd = s.cmd := rfl
@[simp] theorem dropWrite_args (s : State) : (s.dropWrite).args = s.args := rfl
@[simp] theorem dropWrite_res (s : State) : (s.dropWrite).res = s.res := rfl
@[simp] theorem dropWrite_blkP (s : State) : (s.dropWrite).blkP = s.blkP := rfl
@[simp] theorem dropWrite_blkQ (s : State) : (s.dropWrite).blkQ = s.blkQ := rfl
@[simp] theorem dropWrite_imgW (s : State) : (s.dropWrite).imgW = s.imgW := rfl
@[simp] theorem dropWrite_imgH (s : State) : (s.dropWrite).imgH = s.imgH := rfl
@[simp] theorem dropWrite_alpha (s : State) : (s.dropWrite).alpha = s.alpha := rfl
@[simp] theorem dropWrite_busData (s : State) : (s.dropWrite).busData = s.busData := rfl
@[simp] theorem dropWrite_draws (s : State) : (s.dropWrite).draws = s.draws := rfl
@[simp] theorem dropWrite_inputs (s : State) : (s.dropWrite).inputs = s.inputs := rfl

/-! ### Unspecified bytes -/

@[simp] theorem unspecify_cfg (s : State) (r : Range) : (s.unspecify r).cfg = s.cfg := rfl
@[simp] theorem unspecify_mem (s : State) (r : Range) : (s.unspecify r).mem = s.mem.setCells (emitAt r.start (freeBytes s.draws (r.clip s.cfg.memBytes).len)) := rfl
@[simp] theorem unspecify_table (s : State) (r : Range) : (s.unspecify r).table = s.table := rfl
@[simp] theorem unspecify_phase (s : State) (r : Range) : (s.unspecify r).phase = s.phase := rfl
@[simp] theorem unspecify_irqEn (s : State) (r : Range) : (s.unspecify r).irqEn = s.irqEn := rfl
@[simp] theorem unspecify_done (s : State) (r : Range) : (s.unspecify r).done = s.done := rfl
@[simp] theorem unspecify_err (s : State) (r : Range) : (s.unspecify r).err = s.err := rfl
@[simp] theorem unspecify_drop (s : State) (r : Range) : (s.unspecify r).drop = s.drop := rfl
@[simp] theorem unspecify_errCode (s : State) (r : Range) : (s.unspecify r).errCode = s.errCode := rfl
@[simp] theorem unspecify_errClass (s : State) (r : Range) : (s.unspecify r).errClass = s.errClass := rfl
@[simp] theorem unspecify_errInfo (s : State) (r : Range) : (s.unspecify r).errInfo = s.errInfo := rfl
@[simp] theorem unspecify_cmd (s : State) (r : Range) : (s.unspecify r).cmd = s.cmd := rfl
@[simp] theorem unspecify_args (s : State) (r : Range) : (s.unspecify r).args = s.args := rfl
@[simp] theorem unspecify_res (s : State) (r : Range) : (s.unspecify r).res = s.res := rfl
@[simp] theorem unspecify_blkP (s : State) (r : Range) : (s.unspecify r).blkP = s.blkP := rfl
@[simp] theorem unspecify_blkQ (s : State) (r : Range) : (s.unspecify r).blkQ = s.blkQ := rfl
@[simp] theorem unspecify_imgW (s : State) (r : Range) : (s.unspecify r).imgW = s.imgW := rfl
@[simp] theorem unspecify_imgH (s : State) (r : Range) : (s.unspecify r).imgH = s.imgH := rfl
@[simp] theorem unspecify_alpha (s : State) (r : Range) : (s.unspecify r).alpha = s.alpha := rfl
@[simp] theorem unspecify_busData (s : State) (r : Range) : (s.unspecify r).busData = s.busData := rfl
@[simp] theorem unspecify_draws (s : State) (r : Range) : (s.unspecify r).draws = s.draws + (r.clip s.cfg.memBytes).len := rfl
@[simp] theorem unspecify_inputs (s : State) (r : Range) : (s.unspecify r).inputs = s.inputs := rfl

/-! ### Unspecified bytes of several ranges -/

@[simp] theorem unspecifyAll_cfg (s : State) (rs : List Range) : (s.unspecifyAll rs).cfg = s.cfg := by
  induction rs generalizing s with
  | nil => rfl
  | cons r rs ih => simp [unspecifyAll, ih]
@[simp] theorem unspecifyAll_table (s : State) (rs : List Range) : (s.unspecifyAll rs).table = s.table := by
  induction rs generalizing s with
  | nil => rfl
  | cons r rs ih => simp [unspecifyAll, ih]
@[simp] theorem unspecifyAll_phase (s : State) (rs : List Range) : (s.unspecifyAll rs).phase = s.phase := by
  induction rs generalizing s with
  | nil => rfl
  | cons r rs ih => simp [unspecifyAll, ih]
@[simp] theorem unspecifyAll_irqEn (s : State) (rs : List Range) : (s.unspecifyAll rs).irqEn = s.irqEn := by
  induction rs generalizing s with
  | nil => rfl
  | cons r rs ih => simp [unspecifyAll, ih]
@[simp] theorem unspecifyAll_done (s : State) (rs : List Range) : (s.unspecifyAll rs).done = s.done := by
  induction rs generalizing s with
  | nil => rfl
  | cons r rs ih => simp [unspecifyAll, ih]
@[simp] theorem unspecifyAll_err (s : State) (rs : List Range) : (s.unspecifyAll rs).err = s.err := by
  induction rs generalizing s with
  | nil => rfl
  | cons r rs ih => simp [unspecifyAll, ih]
@[simp] theorem unspecifyAll_drop (s : State) (rs : List Range) : (s.unspecifyAll rs).drop = s.drop := by
  induction rs generalizing s with
  | nil => rfl
  | cons r rs ih => simp [unspecifyAll, ih]
@[simp] theorem unspecifyAll_errCode (s : State) (rs : List Range) : (s.unspecifyAll rs).errCode = s.errCode := by
  induction rs generalizing s with
  | nil => rfl
  | cons r rs ih => simp [unspecifyAll, ih]
@[simp] theorem unspecifyAll_errClass (s : State) (rs : List Range) : (s.unspecifyAll rs).errClass = s.errClass := by
  induction rs generalizing s with
  | nil => rfl
  | cons r rs ih => simp [unspecifyAll, ih]
@[simp] theorem unspecifyAll_errInfo (s : State) (rs : List Range) : (s.unspecifyAll rs).errInfo = s.errInfo := by
  induction rs generalizing s with
  | nil => rfl
  | cons r rs ih => simp [unspecifyAll, ih]
@[simp] theorem unspecifyAll_cmd (s : State) (rs : List Range) : (s.unspecifyAll rs).cmd = s.cmd := by
  induction rs generalizing s with
  | nil => rfl
  | cons r rs ih => simp [unspecifyAll, ih]
@[simp] theorem unspecifyAll_args (s : State) (rs : List Range) : (s.unspecifyAll rs).args = s.args := by
  induction rs generalizing s with
  | nil => rfl
  | cons r rs ih => simp [unspecifyAll, ih]
@[simp] theorem unspecifyAll_res (s : State) (rs : List Range) : (s.unspecifyAll rs).res = s.res := by
  induction rs generalizing s with
  | nil => rfl
  | cons r rs ih => simp [unspecifyAll, ih]
@[simp] theorem unspecifyAll_blkP (s : State) (rs : List Range) : (s.unspecifyAll rs).blkP = s.blkP := by
  induction rs generalizing s with
  | nil => rfl
  | cons r rs ih => simp [unspecifyAll, ih]
@[simp] theorem unspecifyAll_blkQ (s : State) (rs : List Range) : (s.unspecifyAll rs).blkQ = s.blkQ := by
  induction rs generalizing s with
  | nil => rfl
  | cons r rs ih => simp [unspecifyAll, ih]
@[simp] theorem unspecifyAll_imgW (s : State) (rs : List Range) : (s.unspecifyAll rs).imgW = s.imgW := by
  induction rs generalizing s with
  | nil => rfl
  | cons r rs ih => simp [unspecifyAll, ih]
@[simp] theorem unspecifyAll_imgH (s : State) (rs : List Range) : (s.unspecifyAll rs).imgH = s.imgH := by
  induction rs generalizing s with
  | nil => rfl
  | cons r rs ih => simp [unspecifyAll, ih]
@[simp] theorem unspecifyAll_alpha (s : State) (rs : List Range) : (s.unspecifyAll rs).alpha = s.alpha := by
  induction rs generalizing s with
  | nil => rfl
  | cons r rs ih => simp [unspecifyAll, ih]
@[simp] theorem unspecifyAll_busData (s : State) (rs : List Range) : (s.unspecifyAll rs).busData = s.busData := by
  induction rs generalizing s with
  | nil => rfl
  | cons r rs ih => simp [unspecifyAll, ih]
@[simp] theorem unspecifyAll_inputs (s : State) (rs : List Range) : (s.unspecifyAll rs).inputs = s.inputs := by
  induction rs generalizing s with
  | nil => rfl
  | cons r rs ih => simp [unspecifyAll, ih]

/-! ### The memory part of a completion -/

@[simp] theorem land_cfg (s : State) (d : Range) (src : List Range) (e : Effect) : (s.land d src e).cfg = s.cfg := by
  unfold land; split <;> simp
@[simp] theorem land_table (s : State) (d : Range) (src : List Range) (e : Effect) : (s.land d src e).table = s.table := by
  unfold land; split <;> simp
@[simp] theorem land_phase (s : State) (d : Range) (src : List Range) (e : Effect) : (s.land d src e).phase = s.phase := by
  unfold land; split <;> simp
@[simp] theorem land_irqEn (s : State) (d : Range) (src : List Range) (e : Effect) : (s.land d src e).irqEn = s.irqEn := by
  unfold land; split <;> simp
@[simp] theorem land_done (s : State) (d : Range) (src : List Range) (e : Effect) : (s.land d src e).done = s.done := by
  unfold land; split <;> simp
@[simp] theorem land_err (s : State) (d : Range) (src : List Range) (e : Effect) : (s.land d src e).err = s.err := by
  unfold land; split <;> simp
@[simp] theorem land_drop (s : State) (d : Range) (src : List Range) (e : Effect) : (s.land d src e).drop = s.drop := by
  unfold land; split <;> simp
@[simp] theorem land_errCode (s : State) (d : Range) (src : List Range) (e : Effect) : (s.land d src e).errCode = s.errCode := by
  unfold land; split <;> simp
@[simp] theorem land_errClass (s : State) (d : Range) (src : List Range) (e : Effect) : (s.land d src e).errClass = s.errClass := by
  unfold land; split <;> simp
@[simp] theorem land_errInfo (s : State) (d : Range) (src : List Range) (e : Effect) : (s.land d src e).errInfo = s.errInfo := by
  unfold land; split <;> simp
@[simp] theorem land_cmd (s : State) (d : Range) (src : List Range) (e : Effect) : (s.land d src e).cmd = s.cmd := by
  unfold land; split <;> simp
@[simp] theorem land_args (s : State) (d : Range) (src : List Range) (e : Effect) : (s.land d src e).args = s.args := by
  unfold land; split <;> simp
@[simp] theorem land_res (s : State) (d : Range) (src : List Range) (e : Effect) : (s.land d src e).res = s.res := by
  unfold land; split <;> simp
@[simp] theorem land_blkP (s : State) (d : Range) (src : List Range) (e : Effect) : (s.land d src e).blkP = s.blkP := by
  unfold land; split <;> simp
@[simp] theorem land_blkQ (s : State) (d : Range) (src : List Range) (e : Effect) : (s.land d src e).blkQ = s.blkQ := by
  unfold land; split <;> simp
@[simp] theorem land_imgW (s : State) (d : Range) (src : List Range) (e : Effect) : (s.land d src e).imgW = s.imgW := by
  unfold land; split <;> simp
@[simp] theorem land_imgH (s : State) (d : Range) (src : List Range) (e : Effect) : (s.land d src e).imgH = s.imgH := by
  unfold land; split <;> simp
@[simp] theorem land_alpha (s : State) (d : Range) (src : List Range) (e : Effect) : (s.land d src e).alpha = s.alpha := by
  unfold land; split <;> simp
@[simp] theorem land_busData (s : State) (d : Range) (src : List Range) (e : Effect) : (s.land d src e).busData = s.busData := by
  unfold land; split <;> simp
@[simp] theorem land_inputs (s : State) (d : Range) (src : List Range) (e : Effect) : (s.land d src e).inputs = s.inputs := by
  unfold land; split <;> simp

/-! ### A disturbed command's ranges -/

@[simp] theorem settle_cfg (s : State) (rs : List Range) : (s.settle rs).cfg = s.cfg := by
  unfold settle; split <;> simp
@[simp] theorem settle_table (s : State) (rs : List Range) : (s.settle rs).table = s.table := by
  unfold settle; split <;> simp
@[simp] theorem settle_phase (s : State) (rs : List Range) : (s.settle rs).phase = s.phase := by
  unfold settle; split <;> simp
@[simp] theorem settle_irqEn (s : State) (rs : List Range) : (s.settle rs).irqEn = s.irqEn := by
  unfold settle; split <;> simp
@[simp] theorem settle_done (s : State) (rs : List Range) : (s.settle rs).done = s.done := by
  unfold settle; split <;> simp
@[simp] theorem settle_err (s : State) (rs : List Range) : (s.settle rs).err = s.err := by
  unfold settle; split <;> simp
@[simp] theorem settle_drop (s : State) (rs : List Range) : (s.settle rs).drop = s.drop := by
  unfold settle; split <;> simp
@[simp] theorem settle_errCode (s : State) (rs : List Range) : (s.settle rs).errCode = s.errCode := by
  unfold settle; split <;> simp
@[simp] theorem settle_errClass (s : State) (rs : List Range) : (s.settle rs).errClass = s.errClass := by
  unfold settle; split <;> simp
@[simp] theorem settle_errInfo (s : State) (rs : List Range) : (s.settle rs).errInfo = s.errInfo := by
  unfold settle; split <;> simp
@[simp] theorem settle_cmd (s : State) (rs : List Range) : (s.settle rs).cmd = s.cmd := by
  unfold settle; split <;> simp
@[simp] theorem settle_args (s : State) (rs : List Range) : (s.settle rs).args = s.args := by
  unfold settle; split <;> simp
@[simp] theorem settle_res (s : State) (rs : List Range) : (s.settle rs).res = s.res := by
  unfold settle; split <;> simp
@[simp] theorem settle_blkP (s : State) (rs : List Range) : (s.settle rs).blkP = s.blkP := by
  unfold settle; split <;> simp
@[simp] theorem settle_blkQ (s : State) (rs : List Range) : (s.settle rs).blkQ = s.blkQ := by
  unfold settle; split <;> simp
@[simp] theorem settle_imgW (s : State) (rs : List Range) : (s.settle rs).imgW = s.imgW := by
  unfold settle; split <;> simp
@[simp] theorem settle_imgH (s : State) (rs : List Range) : (s.settle rs).imgH = s.imgH := by
  unfold settle; split <;> simp
@[simp] theorem settle_alpha (s : State) (rs : List Range) : (s.settle rs).alpha = s.alpha := by
  unfold settle; split <;> simp
@[simp] theorem settle_busData (s : State) (rs : List Range) : (s.settle rs).busData = s.busData := by
  unfold settle; split <;> simp
@[simp] theorem settle_inputs (s : State) (rs : List Range) : (s.settle rs).inputs = s.inputs := by
  unfold settle; split <;> simp

/-! ### Successful completion (60_exceptions.md R213) -/

@[simp] theorem completeOk_cfg (s : State) (d : Range) (src : List Range) (e : Effect) : (s.completeOk d src e).cfg = s.cfg := by
  simp [completeOk]
@[simp] theorem completeOk_mem (s : State) (d : Range) (src : List Range) (e : Effect) : (s.completeOk d src e).mem = ((s.land d src e).settle (d :: src)).mem := by
  simp [completeOk]
@[simp] theorem completeOk_table (s : State) (d : Range) (src : List Range) (e : Effect) : (s.completeOk d src e).table = e.table.or s.table := by
  simp [completeOk]
@[simp] theorem completeOk_phase (s : State) (d : Range) (src : List Range) (e : Effect) : (s.completeOk d src e).phase = .idle := by
  simp [completeOk]
@[simp] theorem completeOk_irqEn (s : State) (d : Range) (src : List Range) (e : Effect) : (s.completeOk d src e).irqEn = s.irqEn := by
  simp [completeOk]
@[simp] theorem completeOk_done (s : State) (d : Range) (src : List Range) (e : Effect) : (s.completeOk d src e).done = true := by
  simp [completeOk]
@[simp] theorem completeOk_err (s : State) (d : Range) (src : List Range) (e : Effect) : (s.completeOk d src e).err = s.err := by
  simp [completeOk]
@[simp] theorem completeOk_drop (s : State) (d : Range) (src : List Range) (e : Effect) : (s.completeOk d src e).drop = s.drop := by
  simp [completeOk]
@[simp] theorem completeOk_errCode (s : State) (d : Range) (src : List Range) (e : Effect) : (s.completeOk d src e).errCode = s.errCode := by
  simp [completeOk]
@[simp] theorem completeOk_errClass (s : State) (d : Range) (src : List Range) (e : Effect) : (s.completeOk d src e).errClass = s.errClass := by
  simp [completeOk]
@[simp] theorem completeOk_errInfo (s : State) (d : Range) (src : List Range) (e : Effect) : (s.completeOk d src e).errInfo = s.errInfo := by
  simp [completeOk]
@[simp] theorem completeOk_cmd (s : State) (d : Range) (src : List Range) (e : Effect) : (s.completeOk d src e).cmd = s.cmd := by
  simp [completeOk]
@[simp] theorem completeOk_args (s : State) (d : Range) (src : List Range) (e : Effect) : (s.completeOk d src e).args = s.args := by
  simp [completeOk]
@[simp] theorem completeOk_res (s : State) (d : Range) (src : List Range) (e : Effect) : (s.completeOk d src e).res = e.results := by
  simp [completeOk]
@[simp] theorem completeOk_blkP (s : State) (d : Range) (src : List Range) (e : Effect) : (s.completeOk d src e).blkP = s.blkP := by
  simp [completeOk]
@[simp] theorem completeOk_blkQ (s : State) (d : Range) (src : List Range) (e : Effect) : (s.completeOk d src e).blkQ = s.blkQ := by
  simp [completeOk]
@[simp] theorem completeOk_imgW (s : State) (d : Range) (src : List Range) (e : Effect) : (s.completeOk d src e).imgW = s.imgW := by
  simp [completeOk]
@[simp] theorem completeOk_imgH (s : State) (d : Range) (src : List Range) (e : Effect) : (s.completeOk d src e).imgH = s.imgH := by
  simp [completeOk]
@[simp] theorem completeOk_alpha (s : State) (d : Range) (src : List Range) (e : Effect) : (s.completeOk d src e).alpha = s.alpha := by
  simp [completeOk]
@[simp] theorem completeOk_busData (s : State) (d : Range) (src : List Range) (e : Effect) : (s.completeOk d src e).busData = s.busData := by
  simp [completeOk]
@[simp] theorem completeOk_draws (s : State) (d : Range) (src : List Range) (e : Effect) : (s.completeOk d src e).draws = ((s.land d src e).settle (d :: src)).draws := by
  simp [completeOk]
@[simp] theorem completeOk_inputs (s : State) (d : Range) (src : List Range) (e : Effect) : (s.completeOk d src e).inputs = s.inputs := by
  simp [completeOk]

/-! ### Completion with an error (60_exceptions.md R214) -/

@[simp] theorem raiseError_cfg (s : State) (loads : Bool) (src : List Range) (r : Raise) : (s.raiseError loads src r).cfg = s.cfg := by
  simp [raiseError]
@[simp] theorem raiseError_mem (s : State) (loads : Bool) (src : List Range) (r : Raise) : (s.raiseError loads src r).mem = (s.settle src).mem := by
  simp [raiseError]
@[simp] theorem raiseError_table (s : State) (loads : Bool) (src : List Range) (r : Raise) : (s.raiseError loads src r).table = if loads then none else s.table := by
  simp [raiseError]
@[simp] theorem raiseError_phase (s : State) (loads : Bool) (src : List Range) (r : Raise) : (s.raiseError loads src r).phase = .idle := by
  simp [raiseError]
@[simp] theorem raiseError_irqEn (s : State) (loads : Bool) (src : List Range) (r : Raise) : (s.raiseError loads src r).irqEn = s.irqEn := by
  simp [raiseError]
@[simp] theorem raiseError_done (s : State) (loads : Bool) (src : List Range) (r : Raise) : (s.raiseError loads src r).done = true := by
  simp [raiseError]
@[simp] theorem raiseError_err (s : State) (loads : Bool) (src : List Range) (r : Raise) : (s.raiseError loads src r).err = true := by
  simp [raiseError]
@[simp] theorem raiseError_drop (s : State) (loads : Bool) (src : List Range) (r : Raise) : (s.raiseError loads src r).drop = s.drop := by
  simp [raiseError]
@[simp] theorem raiseError_errCode (s : State) (loads : Bool) (src : List Range) (r : Raise) : (s.raiseError loads src r).errCode = r.kind.code := by
  simp [raiseError]
@[simp] theorem raiseError_errClass (s : State) (loads : Bool) (src : List Range) (r : Raise) : (s.raiseError loads src r).errClass = r.kind.cls := by
  simp [raiseError]
@[simp] theorem raiseError_errInfo (s : State) (loads : Bool) (src : List Range) (r : Raise) : (s.raiseError loads src r).errInfo = lo32 r.info := by
  simp [raiseError]
@[simp] theorem raiseError_cmd (s : State) (loads : Bool) (src : List Range) (r : Raise) : (s.raiseError loads src r).cmd = s.cmd := by
  simp [raiseError]
@[simp] theorem raiseError_args (s : State) (loads : Bool) (src : List Range) (r : Raise) : (s.raiseError loads src r).args = s.args := by
  simp [raiseError]
@[simp] theorem raiseError_res (s : State) (loads : Bool) (src : List Range) (r : Raise) : (s.raiseError loads src r).res = {} := by
  simp [raiseError]
@[simp] theorem raiseError_blkP (s : State) (loads : Bool) (src : List Range) (r : Raise) : (s.raiseError loads src r).blkP = s.blkP := by
  simp [raiseError]
@[simp] theorem raiseError_blkQ (s : State) (loads : Bool) (src : List Range) (r : Raise) : (s.raiseError loads src r).blkQ = s.blkQ := by
  simp [raiseError]
@[simp] theorem raiseError_imgW (s : State) (loads : Bool) (src : List Range) (r : Raise) : (s.raiseError loads src r).imgW = s.imgW := by
  simp [raiseError]
@[simp] theorem raiseError_imgH (s : State) (loads : Bool) (src : List Range) (r : Raise) : (s.raiseError loads src r).imgH = s.imgH := by
  simp [raiseError]
@[simp] theorem raiseError_alpha (s : State) (loads : Bool) (src : List Range) (r : Raise) : (s.raiseError loads src r).alpha = s.alpha := by
  simp [raiseError]
@[simp] theorem raiseError_busData (s : State) (loads : Bool) (src : List Range) (r : Raise) : (s.raiseError loads src r).busData = s.busData := by
  simp [raiseError]
@[simp] theorem raiseError_draws (s : State) (loads : Bool) (src : List Range) (r : Raise) : (s.raiseError loads src r).draws = (s.settle src).draws := by
  simp [raiseError]
@[simp] theorem raiseError_inputs (s : State) (loads : Bool) (src : List Range) (r : Raise) : (s.raiseError loads src r).inputs = s.inputs := by
  simp [raiseError]

/-! ### Power-on reset (70_reset_and_hazards.md R240) -/

@[simp] theorem powerOnReset_cfg (s : State) : (s.powerOnReset).cfg = s.cfg := rfl
@[simp] theorem powerOnReset_mem (s : State) : (s.powerOnReset).mem = (State.powerOn s.cfg (s.mem.epoch + 1)).mem := rfl
@[simp] theorem powerOnReset_table (s : State) : (s.powerOnReset).table = (State.powerOn s.cfg (s.mem.epoch + 1)).table := rfl
@[simp] theorem powerOnReset_phase (s : State) : (s.powerOnReset).phase = (State.powerOn s.cfg (s.mem.epoch + 1)).phase := rfl
@[simp] theorem powerOnReset_irqEn (s : State) : (s.powerOnReset).irqEn = (State.powerOn s.cfg (s.mem.epoch + 1)).irqEn := rfl
@[simp] theorem powerOnReset_done (s : State) : (s.powerOnReset).done = (State.powerOn s.cfg (s.mem.epoch + 1)).done := rfl
@[simp] theorem powerOnReset_err (s : State) : (s.powerOnReset).err = (State.powerOn s.cfg (s.mem.epoch + 1)).err := rfl
@[simp] theorem powerOnReset_drop (s : State) : (s.powerOnReset).drop = (State.powerOn s.cfg (s.mem.epoch + 1)).drop := rfl
@[simp] theorem powerOnReset_errCode (s : State) : (s.powerOnReset).errCode = (State.powerOn s.cfg (s.mem.epoch + 1)).errCode := rfl
@[simp] theorem powerOnReset_errClass (s : State) : (s.powerOnReset).errClass = (State.powerOn s.cfg (s.mem.epoch + 1)).errClass := rfl
@[simp] theorem powerOnReset_errInfo (s : State) : (s.powerOnReset).errInfo = (State.powerOn s.cfg (s.mem.epoch + 1)).errInfo := rfl
@[simp] theorem powerOnReset_cmd (s : State) : (s.powerOnReset).cmd = (State.powerOn s.cfg (s.mem.epoch + 1)).cmd := rfl
@[simp] theorem powerOnReset_args (s : State) : (s.powerOnReset).args = (State.powerOn s.cfg (s.mem.epoch + 1)).args := rfl
@[simp] theorem powerOnReset_res (s : State) : (s.powerOnReset).res = (State.powerOn s.cfg (s.mem.epoch + 1)).res := rfl
@[simp] theorem powerOnReset_blkP (s : State) : (s.powerOnReset).blkP = (State.powerOn s.cfg (s.mem.epoch + 1)).blkP := rfl
@[simp] theorem powerOnReset_blkQ (s : State) : (s.powerOnReset).blkQ = (State.powerOn s.cfg (s.mem.epoch + 1)).blkQ := rfl
@[simp] theorem powerOnReset_imgW (s : State) : (s.powerOnReset).imgW = (State.powerOn s.cfg (s.mem.epoch + 1)).imgW := rfl
@[simp] theorem powerOnReset_imgH (s : State) : (s.powerOnReset).imgH = (State.powerOn s.cfg (s.mem.epoch + 1)).imgH := rfl
@[simp] theorem powerOnReset_alpha (s : State) : (s.powerOnReset).alpha = (State.powerOn s.cfg (s.mem.epoch + 1)).alpha := rfl
@[simp] theorem powerOnReset_busData (s : State) : (s.powerOnReset).busData = s.busData := rfl
@[simp] theorem powerOnReset_draws (s : State) : (s.powerOnReset).draws = s.draws := rfl
@[simp] theorem powerOnReset_inputs (s : State) : (s.powerOnReset).inputs = s.inputs := rfl

/-! ### Soft reset (70_reset_and_hazards.md R241) -/

@[simp] theorem softReset_cfg (s : State) : (s.softReset).cfg = s.cfg := rfl
@[simp] theorem softReset_table (s : State) : (s.softReset).table = (State.powerOn s.cfg s.mem.epoch).table := rfl
@[simp] theorem softReset_phase (s : State) : (s.softReset).phase = (State.powerOn s.cfg s.mem.epoch).phase := rfl
@[simp] theorem softReset_irqEn (s : State) : (s.softReset).irqEn = (State.powerOn s.cfg s.mem.epoch).irqEn := rfl
@[simp] theorem softReset_done (s : State) : (s.softReset).done = (State.powerOn s.cfg s.mem.epoch).done := rfl
@[simp] theorem softReset_err (s : State) : (s.softReset).err = (State.powerOn s.cfg s.mem.epoch).err := rfl
@[simp] theorem softReset_drop (s : State) : (s.softReset).drop = (State.powerOn s.cfg s.mem.epoch).drop := rfl
@[simp] theorem softReset_errCode (s : State) : (s.softReset).errCode = (State.powerOn s.cfg s.mem.epoch).errCode := rfl
@[simp] theorem softReset_errClass (s : State) : (s.softReset).errClass = (State.powerOn s.cfg s.mem.epoch).errClass := rfl
@[simp] theorem softReset_errInfo (s : State) : (s.softReset).errInfo = (State.powerOn s.cfg s.mem.epoch).errInfo := rfl
@[simp] theorem softReset_cmd (s : State) : (s.softReset).cmd = (State.powerOn s.cfg s.mem.epoch).cmd := rfl
@[simp] theorem softReset_args (s : State) : (s.softReset).args = (State.powerOn s.cfg s.mem.epoch).args := rfl
@[simp] theorem softReset_res (s : State) : (s.softReset).res = (State.powerOn s.cfg s.mem.epoch).res := rfl
@[simp] theorem softReset_blkP (s : State) : (s.softReset).blkP = (State.powerOn s.cfg s.mem.epoch).blkP := rfl
@[simp] theorem softReset_blkQ (s : State) : (s.softReset).blkQ = (State.powerOn s.cfg s.mem.epoch).blkQ := rfl
@[simp] theorem softReset_imgW (s : State) : (s.softReset).imgW = (State.powerOn s.cfg s.mem.epoch).imgW := rfl
@[simp] theorem softReset_imgH (s : State) : (s.softReset).imgH = (State.powerOn s.cfg s.mem.epoch).imgH := rfl
@[simp] theorem softReset_alpha (s : State) : (s.softReset).alpha = (State.powerOn s.cfg s.mem.epoch).alpha := rfl
@[simp] theorem softReset_busData (s : State) : (s.softReset).busData = s.busData := rfl
@[simp] theorem softReset_inputs (s : State) : (s.softReset).inputs = s.inputs := rfl

end State

end Sys2Proof.Machine
end

