-- ==== Sys2Proof/Laws/Memory.lean ====
section
/-! SUPPORT. The laws of the buffer memory: a read after a write, what a write leaves alone, the canonical form, and
what multi-byte reads say of the bytes (00_scope.md R10, 20_memory.md R60 to R66). -/

namespace Sys2Proof.Machine

/-! ## Cells -/

theorem lookupCell_insertCell (l : List Host.Cell) (a b : Nat) (v : Byte) :
    lookupCell (insertCell l a v) b = if b = a then some v else lookupCell l b := by
  induction l with
  | nil => simp [insertCell, lookupCell]
  | cons c rest ih =>
    obtain ⟨k, w⟩ := c
    rcases Nat.lt_trichotomy a k with h | h | h
    · simp [insertCell, lookupCell, h]
    · subst h
      simp only [insertCell, lt_irrefl, if_false, if_true, lookupCell]
      split <;> rfl
    · simp only [insertCell, Nat.not_lt.2 h.le, if_false, Nat.ne_of_gt h, lookupCell, ih]
      by_cases hb : b = k
      · simp [hb, Nat.ne_of_lt h]
      · simp [hb]

theorem mem_insertCell {l : List Host.Cell} {a : Nat} {v : Byte} {c : Host.Cell} (h : c ∈ insertCell l a v) :
    c = (a, v) ∨ c ∈ l := by
  induction l with
  | nil => simpa [insertCell] using h
  | cons d rest ih =>
    simp only [insertCell] at h
    split at h
    · simpa using h
    · split at h
      · rcases List.mem_cons.1 h with h | h <;> simp [h]
      · rcases List.mem_cons.1 h with h | h
        · simp [h]
        · rcases ih h with h | h <;> simp [h]

theorem insertCell_pairwise {l : List Host.Cell} (a : Nat) (v : Byte)
    (h : (l.map Prod.fst).Pairwise (· < ·)) : ((insertCell l a v).map Prod.fst).Pairwise (· < ·) := by
  induction l with
  | nil => simp [insertCell]
  | cons c rest ih =>
    obtain ⟨k, w⟩ := c
    simp only [List.map_cons, List.pairwise_cons, List.mem_map, forall_exists_index, and_imp,
      forall_apply_eq_imp_iff₂] at h
    simp only [insertCell]
    split
    · rename_i hlt
      simp only [List.map_cons, List.pairwise_cons, List.mem_cons, List.mem_map]
      refine ⟨?_, by simpa using h.1, h.2⟩
      rintro x (rfl | ⟨c, hc, rfl⟩)
      · exact hlt
      · exact hlt.trans (h.1 c hc)
    · split
      · rename_i heq
        subst heq
        simpa [List.pairwise_cons] using h
      · simp only [List.map_cons, List.pairwise_cons, List.mem_map, forall_exists_index, and_imp,
          forall_apply_eq_imp_iff₂]
        refine ⟨fun c hc => ?_, ih h.2⟩
        rcases mem_insertCell hc with rfl | hc
        · simp only; omega
        · exact h.1 c hc

namespace Memory

/-! ## Bytes -/

@[simp] theorem setByte_epoch (m : Memory) (a : Nat) (v : Byte) : (m.setByte a v).epoch = m.epoch := rfl

@[simp] theorem setCells_nil (m : Memory) : m.setCells [] = m := rfl

@[simp] theorem setCells_cons (m : Memory) (c : Host.Cell) (cs : List Host.Cell) :
    m.setCells (c :: cs) = (m.setByte c.1 c.2).setCells cs := rfl

theorem setCells_append (m : Memory) (cs ds : List Host.Cell) : m.setCells (cs ++ ds) = (m.setCells cs).setCells ds := by
  induction cs generalizing m with
  | nil => rfl
  | cons c cs ih => simp [ih]

@[simp] theorem setCells_epoch (m : Memory) (cs : List Host.Cell) : (m.setCells cs).epoch = m.epoch := by
  induction cs generalizing m with
  | nil => rfl
  | cons c cs ih => simp [ih]

theorem byte_setByte (m : Memory) (a b : Nat) (v : Byte) :
    (m.setByte a v).byte b = if b = a then v else m.byte b := by
  simp only [byte, setByte, lookupCell_insertCell]
  split <;> rfl

/-- A write leaves every other byte alone. -/
theorem byte_setCells_of_not_mem (m : Memory) (cs : List Host.Cell) (b : Nat) (h : ∀ c ∈ cs, c.1 ≠ b) :
    (m.setCells cs).byte b = m.byte b := by
  induction cs generalizing m with
  | nil => rfl
  | cons c cs ih =>
    rw [setCells_cons, ih _ fun d hd => h d (List.mem_cons_of_mem _ hd), byte_setByte,
      if_neg (h c List.mem_cons_self).symm]

end Memory

@[simp] theorem emitAt_length (a : Nat) (ys : List Byte) : (emitAt a ys).length = ys.length := by
  induction ys generalizing a with
  | nil => rfl
  | cons y ys ih => simp [emitAt, ih]

theorem mem_emitAt {a : Nat} {ys : List Byte} {c : Host.Cell} (h : c ∈ emitAt a ys) :
    a ≤ c.1 ∧ c.1 < a + ys.length := by
  induction ys generalizing a with
  | nil => simp [emitAt] at h
  | cons y ys ih =>
    rcases List.mem_cons.1 h with rfl | h
    · simp
    · have := ih h
      simp only [List.length_cons]
      omega

@[simp] theorem freeBytes_length (k n : Nat) : (freeBytes k n).length = n := by
  induction n generalizing k with
  | zero => rfl
  | succ n ih => simp [freeBytes, ih]

theorem freeBytes_getElem (k n i : Nat) (h : i < (freeBytes k n).length) :
    (freeBytes k n)[i] = Config.freeByte (k + i) := by
  induction n generalizing k i with
  | zero => simp at h
  | succ n ih =>
    cases i with
    | zero => rfl
    | succ i => simp [freeBytes, ih, Nat.add_assoc, Nat.add_comm 1]

@[simp] theorem leBytes_length (v n : Nat) : (leBytes v n).length = n := by
  induction n generalizing v with
  | zero => rfl
  | succ n ih => simp [leBytes, ih]

@[simp] theorem clip_start (n : Nat) (r : Range) : (r.clip n).start = r.start := rfl

theorem clip_len_le (n : Nat) (r : Range) : (r.clip n).len ≤ r.len := Nat.min_le_left _ _

theorem clip_stop_le (n : Nat) (r : Range) (h : 0 < (r.clip n).len) : r.start + (r.clip n).len ≤ n := by
  simp only [Range.clip] at h ⊢
  omega

theorem clip_eq_self (n : Nat) (r : Range) (h : r.len = 0 ∨ r.start + r.len ≤ n) : r.clip n = r := by
  cases r
  simp only [Range.clip, Range.mk.injEq, true_and] at h ⊢
  omega

namespace Memory

/-- Bytes outside an emitted block are unchanged. -/
theorem byte_emitAt_outside (m : Memory) (a : Nat) (ys : List Byte) (b : Nat) (h : b < a ∨ a + ys.length ≤ b) :
    (m.setCells (emitAt a ys)).byte b = m.byte b :=
  byte_setCells_of_not_mem _ _ _ fun c hc => by have := mem_emitAt hc; omega

/-- A byte inside an emitted block is the byte emitted there. -/
theorem byte_emitAt_inside (m : Memory) (a : Nat) (ys : List Byte) (i : Nat) (h : i < ys.length) :
    (m.setCells (emitAt a ys)).byte (a + i) = ys[i] := by
  induction ys generalizing m a i with
  | nil => simp at h
  | cons y ys ih =>
    cases i with
    | zero =>
      rw [emitAt, setCells_cons, byte_emitAt_outside _ _ _ _ (by omega), byte_setByte]
      simp
    | succ i =>
      have := ih (m.setByte a y) (a + 1) i (by simpa using h)
      rw [emitAt, setCells_cons, ← Nat.add_assoc a i 1, Nat.add_right_comm a i 1, this]
      rfl

/-! ## The canonical form -/

theorem wf_setByte {m : Memory} (a : Nat) (v : Byte) (h : m.Wf) : (m.setByte a v).Wf := insertCell_pairwise a v h

theorem within_setByte {n : Nat} {m : Memory} {a : Nat} (v : Byte) (h : m.Within n) (ha : a < n) :
    (m.setByte a v).Within n := fun c hc => by
  rcases mem_insertCell hc with rfl | hc
  · exact ha
  · exact h c hc

theorem wf_setCells {m : Memory} (cs : List Host.Cell) (h : m.Wf) : (m.setCells cs).Wf := by
  induction cs generalizing m with
  | nil => exact h
  | cons c cs ih => exact ih (wf_setByte _ _ h)

theorem within_setCells {n : Nat} {m : Memory} (cs : List Host.Cell) (h : m.Within n) (hc : ∀ c ∈ cs, c.1 < n) :
    (m.setCells cs).Within n := by
  induction cs generalizing m with
  | nil => exact h
  | cons c cs ih =>
    exact ih (within_setByte _ h (hc c List.mem_cons_self)) fun d hd => hc d (List.mem_cons_of_mem _ hd)

/-! ## Multi-byte reads -/

@[simp] theorem read_zero (m : Memory) (a : Nat) : m.read a 0 = 0 := rfl

theorem read_succ (m : Memory) (a n : Nat) :
    m.read a (n + 1) = (m.byte a).toNat + 2 ^ 8 * m.read (a + 1) n := rfl

@[simp] theorem read_one (m : Memory) (a : Nat) : m.read a 1 = (m.byte a).toNat := by simp [read_succ]

theorem read_lt (m : Memory) (a n : Nat) : m.read a n < 2 ^ (8 * n) := by
  induction n generalizing a with
  | zero => simp
  | succ n ih =>
    have h := ih (a + 1)
    have hb := (m.byte a).isLt
    have : (2 : Nat) ^ (8 * (n + 1)) = 2 ^ 8 * 2 ^ (8 * n) := by rw [Nat.mul_succ, Nat.pow_add, Nat.mul_comm]
    rw [read_succ, this]
    omega

/-- Byte k of a little-endian number is the byte at its place (R62). -/
theorem read_div (m : Memory) (a n k : Nat) (h : k < n) : m.read a n / 2 ^ (8 * k) % 2 ^ 8 = (m.byte (a + k)).toNat := by
  induction n generalizing a k with
  | zero => omega
  | succ n ih =>
    have hb := (m.byte a).isLt
    rw [read_succ]
    cases k with
    | zero => simpa using hb
    | succ k =>
      rw [show 8 * (k + 1) = 8 + 8 * k by ring, pow_add, ← Nat.div_div_eq_div_mul,
        show ((m.byte a).toNat + 2 ^ 8 * m.read (a + 1) n) / 2 ^ 8 = m.read (a + 1) n by omega, ih _ _ (by omega)]
      congr 2
      omega

/-- A read depends on its bytes only. -/
theorem read_congr {m m' : Memory} (a a' n : Nat) (h : ∀ i < n, m.byte (a + i) = m'.byte (a' + i)) :
    m.read a n = m'.read a' n := by
  induction n generalizing a a' with
  | zero => rfl
  | succ n ih =>
    rw [read_succ, read_succ, ih (a + 1) (a' + 1), (show m.byte a = m'.byte a' from by simpa using h 0 (by omega))]
    intro i hi
    have := h (i + 1) (by omega)
    rwa [← Nat.add_assoc, ← Nat.add_assoc, Nat.add_right_comm a, Nat.add_right_comm a'] at this

@[simp] theorem bytes_length (m : Memory) (a n : Nat) : (m.bytes a n).length = n := by
  induction n generalizing a with
  | zero => rfl
  | succ n ih => simp [bytes, ih]

theorem bytes_getElem (m : Memory) (a n i : Nat) (h : i < (m.bytes a n).length) :
    (m.bytes a n)[i] = m.byte (a + i) := by
  induction n generalizing a i with
  | zero => simp at h
  | succ n ih =>
    cases i with
    | zero => rfl
    | succ i =>
      simp only [bytes, List.getElem_cons_succ]
      rw [ih, Nat.add_assoc, Nat.add_comm 1]

@[simp] theorem words_length (m : Memory) (a n : Nat) : (m.words a n).length = n := by
  induction n generalizing a with
  | zero => rfl
  | succ n ih => simp [words, ih]

theorem words_getElem (m : Memory) (a n i : Nat) (h : i < (m.words a n).length) :
    (m.words a n)[i] = BitVec.ofNat 32 (m.read (a + 4 * i) 4) := by
  induction n generalizing a i with
  | zero => simp at h
  | succ n ih =>
    cases i with
    | zero => rfl
    | succ i =>
      simp only [words, List.getElem_cons_succ]
      rw [ih, Nat.add_assoc, show 4 + 4 * i = 4 * (i + 1) by omega]

@[simp] theorem bits_length (m : Memory) (a T : Nat) : (m.bits a T).length = T := by simp [bits]

theorem bits_getElem (m : Memory) (a T k : Nat) (h : k < (m.bits a T).length) : (m.bits a T)[k] = m.bit a k := by
  simp [bits]

theorem bits_congr {m m' : Memory} (a a' T : Nat) (h : ∀ i < bytesOfBits T, m.byte (a + i) = m'.byte (a' + i)) :
    m.bits a T = m'.bits a' T := by
  refine List.map_congr_left fun k hk => ?_
  have hk := List.mem_range.1 hk
  rw [bit, bit, h]
  unfold bytesOfBits
  omega

end Memory

/-! ## Bytes of a number -/

theorem leBytes_succ (v n : Nat) : leBytes v (n + 1) = BitVec.ofNat 8 (v % 2 ^ 8) :: leBytes (v / 2 ^ 8) n := rfl

theorem leBytes_getElem (v n k : Nat) (h : k < (leBytes v n).length) :
    (leBytes v n)[k].toNat = v / 2 ^ (8 * k) % 2 ^ 8 := by
  induction n generalizing v k with
  | zero => simp at h
  | succ n ih =>
    cases k with
    | zero => simp [leBytes]
    | succ k =>
      simp only [leBytes, List.getElem_cons_succ]
      rw [ih, Nat.div_div_eq_div_mul, ← Nat.pow_add, Nat.mul_succ, Nat.add_comm]

/-- Bytes that spell a number read as that number. -/
theorem Memory.read_of_leBytes (m : Memory) (a v n : Nat)
    (h : ∀ i (hi : i < n), m.byte (a + i) = (leBytes v n)[i]'(by simpa using hi)) :
    m.read a n = v % 2 ^ (8 * n) := by
  induction n generalizing a v with
  | zero => simp [Nat.mod_one]
  | succ n ih =>
    have h0 : m.byte a = BitVec.ofNat 8 (v % 2 ^ 8) := by simpa [leBytes_succ] using h 0 (by omega)
    have hr : m.read (a + 1) n = v / 2 ^ 8 % 2 ^ (8 * n) := by
      refine ih (a + 1) (v / 2 ^ 8) fun i hi => ?_
      have := h (i + 1) (by omega)
      rw [← Nat.add_assoc, Nat.add_right_comm] at this
      simpa [leBytes_succ] using this
    rw [Memory.read_succ, hr, h0, BitVec.toNat_ofNat, Nat.mod_mod,
      show 8 * (n + 1) = 8 + 8 * n by omega, Nat.pow_add, Nat.mod_mul]

end Sys2Proof.Machine
end

