-- ==== Sys2Proof/Laws/Ops.lean ====
section
/-! SUPPORT. One lemma per shared operation: what a check lets through, what a completion changes and leaves alone, and
what a step can be. Later proofs cite these and do not unfold the operations. -/

namespace Sys2Proof.Machine

/-! ## Computations that may raise -/

theorem try_bind_eq_ok {α β : Type} {x : Try α} {f : α → Try β} {b : β} :
    (x >>= f) = .ok b ↔ ∃ a, x = .ok a ∧ f a = .ok b := by
  cases x with
  | error r =>
    constructor
    · intro h
      cases h
    · rintro ⟨_, h, _⟩
      cases h
  | ok a =>
    constructor
    · exact fun h => ⟨a, rfl, h⟩
    · rintro ⟨_, h, h'⟩
      cases h
      exact h'

theorem try_bind_eq_error {α β : Type} {x : Try α} {f : α → Try β} {r : Raise} :
    (x >>= f) = .error r ↔ x = .error r ∨ ∃ a, x = .ok a ∧ f a = .error r := by
  cases x with
  | error q =>
    constructor
    · intro h
      cases h
      exact .inl rfl
    · rintro (h | ⟨_, h, _⟩)
      · cases h
        rfl
      · cases h
  | ok a =>
    constructor
    · exact fun h => .inr ⟨a, rfl, h⟩
    · rintro (h | ⟨_, h, h'⟩)
      · cases h
      · cases h
        exact h'

@[simp] theorem try_ok_bind {α β : Type} (a : α) (f : α → Try β) : ((.ok a : Try α) >>= f) = f a := rfl

@[simp] theorem try_error_bind {α β : Type} (r : Raise) (f : α → Try β) :
    ((.error r : Try α) >>= f) = .error r := rfl

@[simp] theorem try_pure {α : Type} (a : α) : (pure a : Try α) = .ok a := rfl

theorem raiseIf_eq_ok {bad : Prop} [Decidable bad] {r : Raise} {u : Unit} : raiseIf bad r = .ok u ↔ ¬ bad := by
  unfold raiseIf
  split <;> simp [*]

theorem raiseIf_of {bad : Prop} [Decidable bad] {r : Raise} (h : bad) : raiseIf bad r = .error r := if_pos h

theorem raiseIf_of_not {bad : Prop} [Decidable bad] {r : Raise} (h : ¬ bad) : raiseIf bad r = .ok () := if_neg h

theorem raiseIf_eq_error {bad : Prop} [Decidable bad] {r q : Raise} : raiseIf bad r = .error q ↔ bad ∧ q = r := by
  unfold raiseIf
  split
  · simp [*, eq_comm]
  · simp [*]

/-- A checked range that is not empty lies in memory (R10). -/
theorem checkRange_eq_ok {c : Params} {a n : Nat} {u : Unit} :
    checkRange c a n = .ok u ↔ n = 0 ∨ a + n ≤ c.memBytes := by
  rw [checkRange, raiseIf_eq_ok]
  omega

theorem checkRange_of_le {c : Params} {a n : Nat} (h : n = 0 ∨ a + n ≤ c.memBytes) : checkRange c a n = .ok () :=
  raiseIf_of_not (by omega)

theorem checkRange_of_gt {c : Params} {a n : Nat} (h0 : 0 < n) (h : c.memBytes < a + n) :
    checkRange c a n = .error ⟨.addrRange, (lo32 a).toNat⟩ := raiseIf_of ⟨h0, h⟩

theorem checkRange_eq_error {c : Params} {a n : Nat} {r : Raise} :
    checkRange c a n = .error r ↔ (0 < n ∧ c.memBytes < a + n) ∧ r = ⟨.addrRange, (lo32 a).toNat⟩ :=
  raiseIf_eq_error

theorem requireTable_eq_ok {s : State} {t : Table} : s.requireTable = .ok t ↔ s.table = some t := by
  unfold State.requireTable
  split <;> simp [*]

theorem requireTable_of_some {s : State} {t : Table} (h : s.table = some t) : s.requireTable = .ok t :=
  requireTable_eq_ok.2 h

theorem requireTable_of_none {s : State} (h : s.table = none) : s.requireTable = .error ⟨.noTable, 0⟩ := by
  simp [State.requireTable, h]

/-! ## Numbers -/

@[simp] theorem lo32_toNat (v : Nat) : (lo32 v).toNat = v % 2 ^ 32 := by simp [lo32]

theorem lo32_eq_ofNat (v : Nat) : lo32 v = BitVec.ofNat 32 v := by
  apply BitVec.eq_of_toNat_eq
  simp

@[simp] theorem lo32_lo32 (v : Nat) : lo32 (lo32 v).toNat = lo32 v := by
  apply BitVec.eq_of_toNat_eq
  simp

theorem sumBelow_eq_sum (f : Nat → Nat) (n : Nat) : sumBelow f n = ∑ i ∈ Finset.range n, f i := by
  induction n with
  | zero => rfl
  | succ n ih => rw [sumBelow, ih, Finset.sum_range_succ]

/-! ## Ranges that hold unspecified bytes -/

theorem overlaps_iff (r q : Range) :
    r.overlaps q = true ↔ ∃ a, r.Has a ∧ q.Has a := by
  simp only [Range.overlaps, Bool.and_eq_true, decide_eq_true_eq, Range.Has]
  constructor
  · rintro ⟨⟨⟨h1, h2⟩, h3⟩, h4⟩
    exact ⟨max r.start q.start, by omega⟩
  · rintro ⟨a, h1, h2⟩
    omega

namespace State

theorem unspecify_byte_outside (s : State) (r : Range) (a : Nat) (h : ¬ r.Has a) :
    (s.unspecify r).mem.byte a = s.mem.byte a := by
  have := clip_len_le s.cfg.memBytes r
  rw [unspecify_mem, Memory.byte_emitAt_outside]
  simp only [freeBytes_length, Range.Has] at h ⊢
  omega

/-- Every byte of an unspecified range is a fresh free value (R68, log 6). -/
theorem unspecify_byte_inside (s : State) (r : Range) (i : Nat) (h : i < r.len)
    (hr : r.start + r.len ≤ s.cfg.memBytes) :
    (s.unspecify r).mem.byte (r.start + i) = Config.freeByte (s.draws + i) := by
  have hc : r.clip s.cfg.memBytes = r := clip_eq_self _ _ (.inr hr)
  rw [unspecify_mem, hc, Memory.byte_emitAt_inside _ _ _ _ (by simpa using h), freeBytes_getElem]

theorem unspecifyAll_byte_outside (s : State) (rs : List Range) (a : Nat) (h : ∀ r ∈ rs, ¬ r.Has a) :
    (s.unspecifyAll rs).mem.byte a = s.mem.byte a := by
  induction rs generalizing s with
  | nil => rfl
  | cons r rs ih =>
    rw [unspecifyAll, ih _ fun q hq => h q (List.mem_cons_of_mem _ hq),
      unspecify_byte_outside _ _ _ (h r List.mem_cons_self)]

/-- A byte of an unspecified range that the memory has is a free value drawn by it. -/
theorem unspecify_byte_free (s : State) (r : Range) (a : Nat) (ha : a < s.cfg.memBytes) (h : r.Has a) :
    ∃ k, s.draws ≤ k ∧ k < (s.unspecify r).draws ∧ (s.unspecify r).mem.byte a = Config.freeByte k := by
  have hl : a - r.start < (r.clip s.cfg.memBytes).len := by
    simp only [Range.clip, Range.Has] at *
    omega
  refine ⟨s.draws + (a - r.start), by omega, by rw [unspecify_draws]; omega, ?_⟩
  have e : a = r.start + (a - r.start) := by
    simp only [Range.Has] at h
    omega
  rw [unspecify_mem]
  conv_lhs => rw [e]
  rw [Memory.byte_emitAt_inside _ _ _ _ (by simpa using hl), freeBytes_getElem]

theorem draws_le_unspecifyAll (s : State) (rs : List Range) : s.draws ≤ (s.unspecifyAll rs).draws := by
  induction rs generalizing s with
  | nil => exact le_rfl
  | cons r rs ih => exact le_trans (by simp) (ih (s.unspecify r))

theorem unspecifyAll_byte_free (s : State) (rs : List Range) (a : Nat) (ha : a < s.cfg.memBytes)
    (h : ∃ r ∈ rs, r.Has a) :
    ∃ k, s.draws ≤ k ∧ k < (s.unspecifyAll rs).draws ∧ (s.unspecifyAll rs).mem.byte a = Config.freeByte k := by
  induction rs generalizing s with
  | nil => simp at h
  | cons r rs ih =>
    by_cases h' : ∃ r ∈ rs, r.Has a
    · obtain ⟨k, h1, h2, h3⟩ := ih (s.unspecify r) (by simpa using ha) h'
      rw [unspecify_draws] at h1
      exact ⟨k, by omega, h2, h3⟩
    · push Not at h'
      obtain ⟨q, hq, hqa⟩ := h
      rcases List.mem_cons.1 hq with rfl | hq
      · obtain ⟨k, h1, h2, h3⟩ := unspecify_byte_free s q a ha hqa
        refine ⟨k, h1, lt_of_lt_of_le h2 (draws_le_unspecifyAll _ _), ?_⟩
        rw [unspecifyAll, unspecifyAll_byte_outside _ _ _ h', h3]
      · exact absurd hqa (h' q hq)

/-- Nothing but memory and the draw counter changes. -/
theorem unspecifyAll_eq (s : State) (rs : List Range) :
    s.unspecifyAll rs = { s with mem := (s.unspecifyAll rs).mem, draws := (s.unspecifyAll rs).draws } := by
  induction rs generalizing s with
  | nil => rfl
  | cons r rs ih => exact ih (s.unspecify r)

theorem settle_eq (s : State) (rs : List Range) :
    s.settle rs = { s with mem := (s.settle rs).mem, draws := (s.settle rs).draws } := by
  unfold settle
  split
  · exact unspecifyAll_eq s rs
  · rfl

theorem land_eq (s : State) (d : Range) (src : List Range) (e : Effect) :
    s.land d src e = { s with mem := (s.land d src e).mem, draws := (s.land d src e).draws } := by
  unfold land
  split <;> rfl

theorem unspecify_good {s : State} {c : Params} (r : Range) (h : MemoryGood c s.mem) (hc : c = s.cfg) :
    MemoryGood c (s.unspecify r).mem := by
  subst hc
  refine ⟨?_, ?_⟩
  · rw [unspecify_mem]
    exact Memory.wf_setCells _ h.wf
  · rw [unspecify_mem]
    refine Memory.within_setCells _ h.within fun x hx => ?_
    have hx := mem_emitAt hx
    simp only [freeBytes_length] at hx
    have := clip_stop_le s.cfg.memBytes r (by omega)
    omega

theorem unspecifyAll_good {s : State} {c : Params} (rs : List Range) (h : MemoryGood c s.mem) (hc : c = s.cfg) :
    MemoryGood c (s.unspecifyAll rs).mem := by
  induction rs generalizing s with
  | nil => exact h
  | cons r rs ih => exact ih (unspecify_good r h hc) (by simpa using hc)

/-! ## What a command reads -/

@[simp] theorem engineMem_startCommand (s : State) (w : Word) : (s.startCommand w).engineMem = s.mem := rfl

@[simp] theorem disturbed_startCommand (s : State) (w : Word) : (s.startCommand w).disturbed = false := rfl

@[simp] theorem isBusy_startCommand (s : State) (w : Word) : (s.startCommand w).isBusy = true := rfl

theorem isBusy_of_busy {s : State} {m : Memory} {d : Bool} (h : s.phase = .busy m d) : s.isBusy = true := by
  simp [isBusy, h]

theorem isBusy_of_idle {s : State} (h : s.phase = .idle) : s.isBusy = false := by simp [isBusy, h]

theorem phase_of_isBusy {s : State} (h : s.isBusy = true) : ∃ m d, s.phase = .busy m d := by
  unfold isBusy at h
  split at h
  · cases h
  · exact ⟨_, _, ‹_›⟩

theorem idle_of_isBusy {s : State} (h : s.isBusy = false) : s.phase = .idle := by
  unfold isBusy at h
  split at h
  · assumption
  · cases h

/-! ## Completion -/

theorem settle_of_undisturbed {s : State} (rs : List Range) (h : s.disturbed = false) : s.settle rs = s := by
  simp [settle, h]

theorem disturbed_land (s : State) (d : Range) (src : List Range) (e : Effect) :
    (s.land d src e).disturbed = s.disturbed := by
  simp [disturbed]

/-- A successful completion of an undisturbed command whose destination overlaps no source (R213, R66). -/
theorem completeOk_of_clean {s : State} {d : Range} {src : List Range} {e : Effect} (hd : s.disturbed = false)
    (ho : src.any d.overlaps = false) :
    s.completeOk d src e =
      { s with
        mem := s.mem.setCells e.writes
        table := e.table.or s.table
        res := e.results
        phase := .idle
        done := true } := by
  have h1 : s.land d src e = { s with mem := s.mem.setCells e.writes } := by simp [land, ho]
  have h2 : (s.land d src e).disturbed = false := by rw [disturbed_land, hd]
  rw [completeOk, settle_of_undisturbed _ h2]
  simp only [h1]

/-- An error completion of an undisturbed command (R214). -/
theorem raiseError_of_clean {s : State} (loads : Bool) (rs : List Range) (r : Raise) (hd : s.disturbed = false) :
    s.raiseError loads rs r =
      { s with
        table := if loads then none else s.table
        res := {}
        errCode := r.kind.code
        errClass := r.kind.cls
        errInfo := lo32 r.info
        err := true
        phase := .idle
        done := true } := by
  rw [raiseError, settle_of_undisturbed _ hd]

theorem complete_ok {s : State} {p : Plan} {e : Effect} (h : p.outcome = .ok e) :
    s.complete p = s.completeOk p.dest p.sources e := by simp [complete, h]

theorem complete_error {s : State} {p : Plan} {r : Raise} (h : p.outcome = .error r) :
    s.complete p = s.raiseError p.loadsTable (p.dest :: p.sources) r := by simp [complete, h]

/-- A successful completion, whatever happens to the memory (R213). -/
theorem completeOk_eq (s : State) (d : Range) (src : List Range) (e : Effect) :
    s.completeOk d src e =
      { s with
        mem := (s.completeOk d src e).mem
        draws := (s.completeOk d src e).draws
        table := e.table.or s.table
        res := e.results
        phase := .idle
        done := true } := by
  unfold completeOk
  rw [settle_eq, land_eq]

/-- An error completion, whatever happens to the memory (R214). -/
theorem raiseError_eq (s : State) (loads : Bool) (rs : List Range) (r : Raise) :
    s.raiseError loads rs r =
      { s with
        mem := (s.raiseError loads rs r).mem
        draws := (s.raiseError loads rs r).draws
        table := if loads then none else s.table
        res := {}
        errCode := r.kind.code
        errClass := r.kind.cls
        errInfo := lo32 r.info
        err := true
        phase := .idle
        done := true } := by
  unfold raiseError
  rw [settle_eq]

/-- What a completion leaves alone, whatever its outcome (R213, R214). -/
theorem complete_frame (s : State) (p : Plan) :
    (s.complete p).cfg = s.cfg ∧ (s.complete p).irqEn = s.irqEn ∧ (s.complete p).drop = s.drop ∧
      (s.complete p).cmd = s.cmd ∧ (s.complete p).args = s.args ∧ (s.complete p).blkP = s.blkP ∧
      (s.complete p).blkQ = s.blkQ ∧ (s.complete p).imgW = s.imgW ∧ (s.complete p).imgH = s.imgH ∧
      (s.complete p).alpha = s.alpha ∧ (s.complete p).busData = s.busData ∧ (s.complete p).inputs = s.inputs ∧
      (s.complete p).phase = .idle ∧ (s.complete p).done = true := by
  unfold complete
  split <;> simp

/-- The bytes outside the destination and, after a host write while busy, outside the sources are unchanged. -/
theorem completeOk_byte_outside (s : State) (d : Range) (src : List Range) (e : Effect) (a : Nat)
    (hw : ∀ c ∈ e.writes, d.Has c.1) (hd : ¬ d.Has a)
    (hs : s.disturbed = true → ∀ r ∈ src, ¬ r.Has a) : (s.completeOk d src e).mem.byte a = s.mem.byte a := by
  have hland : (s.land d src e).mem.byte a = s.mem.byte a := by
    unfold land
    split
    · exact unspecify_byte_outside _ _ _ hd
    · exact Memory.byte_setCells_of_not_mem _ _ _ fun c hc hca => hd (hca ▸ hw c hc)
  rw [completeOk_mem, settle]
  split
  · rename_i h
    rw [unspecifyAll_byte_outside, hland]
    rw [disturbed_land] at h
    intro r hr
    rcases List.mem_cons.1 hr with rfl | hr
    · exact hd
    · exact hs h r hr
  · exact hland

theorem raiseError_byte_outside (s : State) (loads : Bool) (rs : List Range) (r : Raise) (a : Nat)
    (hs : s.disturbed = true → ∀ r ∈ rs, ¬ r.Has a) : (s.raiseError loads rs r).mem.byte a = s.mem.byte a := by
  rw [raiseError_mem, settle]
  split
  · exact unspecifyAll_byte_outside _ _ _ (hs ‹_›)
  · rfl

/-- After a host write while busy, every byte of the destination and of the sources is a free value, whatever the outcome
(20_memory.md R67). -/
theorem completeOk_byte_free (s : State) (d : Range) (src : List Range) (e : Effect) (a : Nat)
    (hd : s.disturbed = true) (ha : a < s.cfg.memBytes) (h : ∃ r ∈ d :: src, r.Has a) :
    ∃ k, s.draws ≤ k ∧ k < (s.completeOk d src e).draws ∧ (s.completeOk d src e).mem.byte a = Config.freeByte k := by
  have hl : s.draws ≤ (s.land d src e).draws := by
    unfold land
    split <;> simp
  have hd' : (s.land d src e).disturbed = true := by rw [disturbed_land, hd]
  rw [completeOk_mem, completeOk_draws, settle, if_pos hd']
  obtain ⟨k, h1, h2⟩ := unspecifyAll_byte_free (s.land d src e) (d :: src) a (by simpa using ha) h
  exact ⟨k, by omega, h2⟩

theorem raiseError_byte_free (s : State) (loads : Bool) (rs : List Range) (r : Raise) (a : Nat)
    (hd : s.disturbed = true) (ha : a < s.cfg.memBytes) (h : ∃ r ∈ rs, r.Has a) :
    ∃ k, s.draws ≤ k ∧ k < (s.raiseError loads rs r).draws ∧
      (s.raiseError loads rs r).mem.byte a = Config.freeByte k := by
  rw [raiseError_mem, raiseError_draws, settle, if_pos hd]
  exact unspecifyAll_byte_free s rs a ha h

theorem settle_good {s : State} {c : Params} (rs : List Range) (h : MemoryGood c s.mem) (hc : c = s.cfg) :
    MemoryGood c (s.settle rs).mem := by
  unfold settle
  split
  · exact unspecifyAll_good rs h hc
  · exact h

theorem completeOk_good {s : State} {c : Params} (d : Range) (src : List Range) (e : Effect) (h : MemoryGood c s.mem)
    (hc : c = s.cfg) (hw : ∀ x ∈ e.writes, x.1 < c.memBytes) : MemoryGood c (s.completeOk d src e).mem := by
  rw [completeOk_mem]
  refine settle_good _ ?_ (by simpa using hc)
  unfold land
  split
  · exact unspecify_good _ h hc
  · exact ⟨Memory.wf_setCells _ h.wf, Memory.within_setCells _ h.within hw⟩

end State

@[simp] theorem storing_writes (d : Nat) (y : List Byte) (r : Results) : (storing d y r).writes = emitAt d y := rfl
@[simp] theorem storing_results (d : Nat) (y : List Byte) (r : Results) : (storing d y r).results = r := rfl
@[simp] theorem storing_table (d : Nat) (y : List Byte) (r : Results) : (storing d y r).table = none := rfl
@[simp] theorem storingNothing_writes (r : Results) (t : Option Table) : (storingNothing r t).writes = [] := rfl
@[simp] theorem storingNothing_results (r : Results) (t : Option Table) : (storingNothing r t).results = r := rfl
@[simp] theorem storingNothing_table (r : Results) (t : Option Table) : (storingNothing r t).table = t := rfl

theorem empty_overlaps (a : Nat) (q : Range) : Range.overlaps ⟨a, 0⟩ q = false := by simp [Range.overlaps]

@[simp] theorem destRange_ok (s : State) (d n : Nat) : s.destRange d (.ok n) = ⟨d, n⟩ := rfl

@[simp] theorem destRange_error (s : State) (d : Nat) (r : Raise) :
    s.destRange d (.error r) = ⟨d, s.cfg.memBytes - d⟩ := rfl

/-- A storing command's clean completion: the bytes land, nothing else in memory changes. -/
theorem complete_storing {s : State} {p : Plan} {d : Nat} {y : List Byte} {r : Results}
    (h : p.outcome = .ok (storing d y r)) (hd : s.disturbed = false)
    (ho : ∀ q ∈ p.sources, p.dest.overlaps q = false) :
    s.complete p =
      { s with mem := s.mem.setCells (emitAt d y), res := r, phase := .idle, done := true } := by
  rw [State.complete_ok h, State.completeOk_of_clean hd (by simpa [List.any_eq_false] using ho)]
  rfl

/-! ## exec and step -/

/-- Every command completes (R213, R214): exec answers the completion of its plan. -/
theorem exec_eq_complete (i : Instr) (s : State) : exec i s = .next (s.complete (commandPlan i s)) := by
  cases i <;> rfl

theorem runningPlan_of_decode {s : State} {i : Instr} (h : decode s.cmd = .ok i) :
    s.runningPlan = commandPlan i s := by simp [State.runningPlan, h]

theorem engineTurn_of_idle {s : State} (h : s.phase = .idle) : engineTurn s = .next s := by simp [engineTurn, h]

/-- A Busy engine completes the command word in CMD, legal or not (10_state.md R43, 30_encoding.md R81). -/
theorem engineTurn_of_busy {s : State} (h : s.isBusy = true) :
    engineTurn s = .next (s.complete s.runningPlan) := by
  obtain ⟨m, d, hp⟩ := State.phase_of_isBusy h
  simp only [engineTurn, hp, State.runningPlan]
  cases hd : decode s.cmd with
  | ok i => simp [exec_eq_complete]
  | error e => simp [execIllegal]

/-- What a step that answers a next state did: one of the four turns. -/
theorem step_cases {s t : State} (h : step s = .next t) :
    (∃ s0, (s0 = s ∨ ∃ rest, s.inputs = .engine :: rest ∧ s0 = { s with inputs := rest }) ∧
        engineTurn s0 = .next t) ∨
      (∃ x rest, s.inputs = .bus x :: rest ∧ State.busAccess { s with inputs := rest } x = .next t) ∨
      (∃ rest, s.inputs = .poll :: rest ∧ t = State.poll { s with inputs := rest }) ∨
      (∃ rest, s.inputs = .powerOn :: rest ∧ t = State.powerOnReset { s with inputs := rest }) := by
  unfold step at h
  split at h
  · exact .inl ⟨s, .inl rfl, h⟩
  · exact .inl ⟨_, .inr ⟨_, ‹_›, rfl⟩, h⟩
  · exact .inr (.inl ⟨_, _, ‹_›, h⟩)
  · exact .inr (.inr (.inl ⟨_, ‹_›, by simpa using h.symm⟩))
  · exact .inr (.inr (.inr ⟨_, ‹_›, by simpa using h.symm⟩))

/-- What a host access that answers a next state did. -/
theorem busAccess_cases {s t : State} {x : BusAccess} (h : s.busAccess x = .next t) :
    (∃ off, t = { s with busData := s.readOffset off }) ∨ (∃ off w, t = s.writeOffset off w) ∨
      (∃ a n, a + n ≤ s.cfg.memBytes ∧ t = s.readBuffer a n) ∨
      (∃ a n w, a + n ≤ s.cfg.memBytes ∧ t = s.writeBuffer a n w) := by
  unfold State.busAccess at h
  split at h
  · unfold State.registerAccess at h
    split at h
    · split at h
      · exact .inl ⟨_, by simpa using h.symm⟩
      · exact .inr (.inl ⟨_, _, by simpa using h.symm⟩)
    · cases h
  · split at h
    · unfold State.bufferAccess at h
      split at h
      · split at h
        · split at h
          · exact .inr (.inr (.inl ⟨_, _, ‹_›, by simpa using h.symm⟩))
          · exact .inr (.inr (.inr ⟨_, _, _, ‹_›, by simpa using h.symm⟩))
        · cases h
      · cases h
    · cases h

/-- What a host register write did: nothing, a CTRL or STATUS write, a dropped write, a command start, or an operand
register of an Idle block. -/
theorem writeReg_cases (s : State) (w : Word) (r : Reg) :
    s.writeReg w r = s ∨ s.writeReg w r = s.softReset ∨ s.writeReg w r = { s with irqEn := w.getLsbD 0 } ∨
      s.writeReg w r = s.clearStatus w ∨ s.writeReg w r = s.dropWrite ∨ s.writeReg w r = s.startCommand w ∨
      ∃ a p q i j k, s.isBusy = false ∧
        s.writeReg w r = { s with args := a, blkP := p, blkQ := q, imgW := i, imgH := j, alpha := k } := by
  cases hb : s.isBusy
  all_goals cases r
  all_goals simp only [State.writeReg, hb, Bool.false_eq_true, if_false, if_true, true_or, or_true]
  case false.ctrl => split <;> simp
  case true.ctrl => split <;> simp
  all_goals exact .inr (.inr (.inr (.inr (.inr (.inr ⟨_, _, _, _, _, _, trivial, rfl⟩)))))

end Sys2Proof.Machine
end

