-- ==== Sys2Proof/Laws/Bus.lean ====
section
/-! SUPPORT. What a host access to the register region or the buffer memory makes a step do (10_state.md R21 to R32,
20_memory.md R65). -/

namespace Sys2Proof.Machine

theorem regOffset_of_regAt {off : Nat} {r : Reg} (h : regAt off = some r) : regOffset r = off := by
  simpa using List.find?_some h

theorem regAt_regOffset (r : Reg) : regAt (regOffset r) = some r := by cases r <;> rfl

theorem regAt_eq_none {off : Nat} (h : ∀ r, regOffset r ≠ off) : regAt off = none := by
  by_contra hc
  obtain ⟨r, hr⟩ := Option.ne_none_iff_exists'.1 hc
  exact h r (regOffset_of_regAt hr)

theorem regOffset_lt (r : Reg) : regOffset r < 0x1000 := by cases r <;> decide

theorem regOffset_aligned (r : Reg) : regOffset r % 4 = 0 := by cases r <;> rfl

@[simp] theorem readOffset_regOffset (s : State) (r : Reg) : s.readOffset (regOffset r) = s.readReg r := by
  simp [State.readOffset, regAt_regOffset]

@[simp] theorem writeOffset_regOffset (s : State) (r : Reg) (w : Word) :
    s.writeOffset (regOffset r) w = s.writeReg w r := by
  simp [State.writeOffset, regAt_regOffset]

/-- Registers do not depend on the turns to come. -/
@[simp] theorem readOffset_inputs (s : State) (ts : List Turn) (off : Nat) :
    ({ s with inputs := ts } : State).readOffset off = s.readOffset off := by
  unfold State.readOffset
  split
  · rename_i r _
    cases r <;> rfl
  · rfl

@[simp] theorem isBusy_inputs (s : State) (ts : List Turn) : ({ s with inputs := ts } : State).isBusy = s.isBusy := rfl

/-- Plans do not depend on the turns to come. -/
@[simp] theorem commandPlan_inputs (s : State) (ts : List Turn) (i : Instr) :
    commandPlan i { s with inputs := ts } = commandPlan i s := by
  cases i <;> rfl

@[simp] theorem runningPlan_inputs (s : State) (ts : List Turn) :
    ({ s with inputs := ts } : State).runningPlan = s.runningPlan := by
  simp only [State.runningPlan]
  split
  · rw [commandPlan_inputs]
  · rfl

/-- An access inside the register window is an access to the register region (R21, R69). -/
theorem busAccess_register (s : State) {off : Nat} (h : off < 0x1000) (n : Nat) (op : BusOp) :
    s.busAccess { addr := s.cfg.regBase + off, width := n, op := op } = s.registerAccess off n op := by
  simp [State.busAccess, h]

/-- An access at MEM_BASE + a, inside the memory, is an access to the buffer memory (R60). -/
theorem busAccess_buffer (s : State) {a : Nat} (hp : s.cfg.Placed) (h : a < s.cfg.memBytes) (n : Nat) (op : BusOp) :
    s.busAccess { addr := s.cfg.memBase + a, width := n, op := op } = s.bufferAccess a n op := by
  have : ¬ (s.cfg.regBase ≤ s.cfg.memBase + a ∧ s.cfg.memBase + a < s.cfg.regBase + 0x1000) := by
    unfold Params.Placed at hp
    omega
  simp only [State.busAccess]
  rw [if_neg this, if_pos (by omega), Nat.add_sub_cancel_left]

/-- The step of a host register write. -/
theorem step_register_write {s : State} {off : Nat} {w : Word} {rest : List Turn}
    (h : s.inputs = .bus { addr := s.cfg.regBase + off, width := 4, op := .write (.imm w) } :: rest)
    (ho : off < 0x1000) (h4 : off % 4 = 0) :
    step s = .next (({ s with inputs := rest } : State).writeOffset off w) := by
  have h1 : step s = State.busAccess { s with inputs := rest } ⟨s.cfg.regBase + off, 4, .write (.imm w)⟩ := by
    simp [step, h]
  rw [h1]
  refine (busAccess_register { s with inputs := rest } ho 4 _).trans ?_
  simp [State.registerAccess, h4, State.writeValue]

/-- The step of a host register read. -/
theorem step_register_read {s : State} {off : Nat} {rest : List Turn}
    (h : s.inputs = .bus { addr := s.cfg.regBase + off, width := 4, op := .read } :: rest)
    (ho : off < 0x1000) (h4 : off % 4 = 0) :
    step s = .next { s with inputs := rest, busData := s.readOffset off } := by
  have h1 : step s = State.busAccess { s with inputs := rest } ⟨s.cfg.regBase + off, 4, .read⟩ := by
    simp [step, h]
  rw [h1]
  refine (busAccess_register { s with inputs := rest } ho 4 _).trans ?_
  simp [State.registerAccess, h4]

/-- The step of a host buffer access. -/
theorem step_buffer {s : State} {a n : Nat} {op : BusOp} {rest : List Turn} (hp : s.cfg.Placed)
    (ha : a < s.cfg.memBytes) (h : s.inputs = .bus { addr := s.cfg.memBase + a, width := n, op := op } :: rest) :
    step s = State.bufferAccess { s with inputs := rest } a n op := by
  have h1 : step s = State.busAccess { s with inputs := rest } ⟨s.cfg.memBase + a, n, op⟩ := by simp [step, h]
  rw [h1]
  exact busAccess_buffer { s with inputs := rest } hp ha n op

/-- A defined buffer read. -/
theorem bufferAccess_read {s : State} {a n : Nat} (hn : n = 1 ∨ n = 2 ∨ n = 4) (ha : a % n = 0)
    (hm : a + n ≤ s.cfg.memBytes) : s.bufferAccess a n .read = .next (s.readBuffer a n) := by
  simp [State.bufferAccess, hn, ha, hm]

/-- A defined buffer write. -/
theorem bufferAccess_write {s : State} {a n : Nat} {d : WriteData} (hn : n = 1 ∨ n = 2 ∨ n = 4) (ha : a % n = 0)
    (hm : a + n ≤ s.cfg.memBytes) :
    s.bufferAccess a n (.write d) = .next (s.writeBuffer a n (s.writeValue d)) := by
  simp [State.bufferAccess, hn, ha, hm]

/-- The step of a defined host buffer read. -/
theorem step_buffer_read {s : State} {a n : Nat} {rest : List Turn} (hp : s.cfg.Placed)
    (hn : n = 1 ∨ n = 2 ∨ n = 4) (ha : a % n = 0) (hm : a + n ≤ s.cfg.memBytes)
    (h : s.inputs = .bus { addr := s.cfg.memBase + a, width := n, op := .read } :: rest) :
    step s = .next (State.readBuffer { s with inputs := rest } a n) := by
  rw [step_buffer hp (by omega) h]
  exact bufferAccess_read (s := { s with inputs := rest }) hn ha hm

/-- The step of a defined host buffer write. -/
theorem step_buffer_write {s : State} {a n : Nat} {w : Word} {rest : List Turn} (hp : s.cfg.Placed)
    (hn : n = 1 ∨ n = 2 ∨ n = 4) (ha : a % n = 0) (hm : a + n ≤ s.cfg.memBytes)
    (h : s.inputs = .bus { addr := s.cfg.memBase + a, width := n, op := .write (.imm w) } :: rest) :
    step s = .next (State.writeBuffer { s with inputs := rest } a n w) := by
  rw [step_buffer hp (by omega) h]
  exact bufferAccess_write (s := { s with inputs := rest }) (d := .imm w) hn ha hm

/-- What a soft reset does to the memory (70_reset_and_hazards.md R241). -/
theorem softReset_mem (s : State) :
    s.softReset.mem =
      if s.isBusy then
        match s.runningPlan.outcome with
        | .ok _ => (s.unspecify s.runningPlan.dest).mem
        | .error _ => s.mem
      else s.mem := by
  cases hb : s.isBusy <;> cases ho : s.runningPlan.outcome <;> simp [State.softReset, hb, ho]

/-! ## The bits of STATUS (10_state.md R24) -/

theorem status_toNat (s : State) :
    s.status.toNat =
      s.isBusy.toNat + 2 * s.done.toNat + 4 * s.err.toNat + 8 * s.drop.toNat + 16 * s.tblValid.toNat +
        2 ^ 8 * s.errCode.toNat + 2 ^ 16 * s.errClass.toNat := by
  have h1 := Bool.toNat_le s.isBusy
  have h2 := Bool.toNat_le s.done
  have h3 := Bool.toNat_le s.err
  have h4 := Bool.toNat_le s.drop
  have h5 := Bool.toNat_le s.tblValid
  have h6 := s.errCode.isLt
  have h7 := s.errClass.isLt
  rw [State.status, BitVec.toNat_ofNat]
  apply Nat.mod_eq_of_lt
  omega

theorem getLsbD_eq_decide (w : Word) (i : Nat) : w.getLsbD i = decide (w.toNat / 2 ^ i % 2 = 1) := by
  rw [BitVec.getLsbD, Nat.testBit_eq_decide_div_mod_eq]

/-- Exec does not look at the turns to come: with other turns pending, an undisturbed command leaves the same state but for
them. -/
theorem exec_inputs {i : Instr} {s u : State} (ts : List Turn) (hd : s.disturbed = false) (h : exec i s = .next u) :
    exec i { s with inputs := ts } = .next { u with inputs := ts } := by
  rw [exec_eq_complete] at h ⊢
  rw [commandPlan_inputs]
  injection h with h
  subst h
  congr 1
  generalize commandPlan i s = p
  obtain ⟨_, _, _, ph⟩ := s
  unfold State.complete
  cases ph with
  | idle =>
    cases h : p.outcome with
    | error e => rfl
    | ok e =>
      simp only [State.completeOk, State.settle, State.land]
      by_cases ho : p.sources.any p.dest.overlaps = true <;> simp only [ho] <;> rfl
  | busy m d =>
    cases (show d = false from hd)
    cases h : p.outcome with
    | error e => rfl
    | ok e =>
      simp only [State.completeOk, State.settle, State.land]
      by_cases ho : p.sources.any p.dest.overlaps = true <;> simp only [ho] <;> rfl

end Sys2Proof.Machine
end

