-- ==== Sys2Proof/Laws/Huffman.lean ====
section
/-! SUPPORT. The Huffman coder: what encoding answers, that the decoder's walk follows the codes, and how the
construction's queue and trees behave (41_huffman.md R120 to R133). -/

namespace Sys2Proof.Machine

/-! ## Encoding (R124 to R126) -/

theorem lookup_eq_find? (t : Table) (x : Word) : t.lookup x = t.find? fun e => e.sym == x := by
  induction t with
  | nil => rfl
  | cons e t ih =>
    by_cases h : e.sym = x <;> simp [Table.lookup, h, ih]

theorem lookup_of_inTable {t : Table} {x : Word} (h : InTable t x) :
    ∃ e ∈ t, e.sym = x ∧ t.lookup x = some e ∧ codeFor t x = e.code := by
  obtain ⟨e, he⟩ : ∃ e, t.find? (fun e => e.sym == x) = some e := by
    rw [← Option.isSome_iff_exists, List.find?_isSome]
    obtain ⟨e, he, rfl⟩ := h
    exact ⟨e, he, by simp⟩
  have h2 := List.find?_some he
  exact ⟨e, List.mem_of_find?_eq_some he, by simpa using h2, by rw [lookup_eq_find?, he], by simp [codeFor, he]⟩

theorem lookup_of_not_inTable {t : Table} {x : Word} (h : ¬ InTable t x) : t.lookup x = none := by
  rw [lookup_eq_find?, List.find?_eq_none]
  intro e he hx
  exact h ⟨e, he, by simpa using hx⟩

theorem enc_cons (t : Table) (x : Word) (xs : List Word) : enc t (x :: xs) = codeFor t x ++ enc t xs := rfl

/-- Encoding a sequence of known symbols gives the concatenated codes (R124). -/
theorem encodeSymbols_of_inTable {t : Table} {seq : List Word} (i : Nat) (h : ∀ x ∈ seq, InTable t x) :
    encodeSymbols t i seq = .ok (enc t seq) := by
  induction seq generalizing i with
  | nil => rfl
  | cons x xs ih =>
    obtain ⟨e, _, _, h1, h2⟩ := lookup_of_inTable (h x (by simp))
    simp [encodeSymbols, h1, ih (i + 1) fun y hy => h y (by simp [hy]), enc_cons, h2]

/-- Encoding stops at the first unknown symbol (R126). -/
theorem encodeSymbols_of_unknown {t : Table} {seq : List Word} (i k : Nat) (hk : k < seq.length)
    (hx : ¬ InTable t seq[k]) (hb : ∀ j (hj : j < k), InTable t seq[j]) :
    encodeSymbols t i seq = .error ⟨.symbolNotInTable, i + k⟩ := by
  induction seq generalizing i k with
  | nil => simp at hk
  | cons x xs ih =>
    cases k with
    | zero => simp [encodeSymbols, lookup_of_not_inTable (by simpa using hx)]
    | succ k =>
      obtain ⟨e, _, _, h1, _⟩ := lookup_of_inTable (by simpa using hb 0 (by omega))
      have := ih (i + 1) k (by simpa using hk) (by simpa using hx) fun j hj => by simpa using hb (j + 1) (by omega)
      simp [encodeSymbols, h1, this, Nat.add_assoc, Nat.add_comm 1]

/-! ## The decoder's walk (R131) -/

theorem hasNode_iff (t : Table) (w : Bits) : t.hasNode w = true ↔ ∃ e ∈ t, w <+: e.code := by
  simp [Table.hasNode]

theorem leafAt_of_ne {t : Table} {w : Bits} (h : ∀ e ∈ t, e.code ≠ w) : t.leafAt w = none := by
  induction t with
  | nil => rfl
  | cons d t ih => simp [Table.leafAt, h d (by simp), ih fun e he => h e (by simp [he])]

/-- In a prefix-free table a code leads to its own entry. -/
theorem leafAt_code {t : Table} (hp : t.Pairwise fun d e => ¬ d.code <+: e.code ∧ ¬ e.code <+: d.code) {e : Entry}
    (he : e ∈ t) : t.leafAt e.code = some e := by
  induction t with
  | nil => simp at he
  | cons d t ih =>
    rw [List.pairwise_cons] at hp
    rcases List.mem_cons.1 he with rfl | he
    · simp [Table.leafAt]
    · have := hp.1 e he
      rw [Table.leafAt, if_neg fun h => this.1 (by rw [h]), ih hp.2 he]

/-- In a prefix-free table a code that is a prefix of another is that code. -/
theorem eq_of_prefix {t : Table} (hp : t.Pairwise fun d e => ¬ d.code <+: e.code ∧ ¬ e.code <+: d.code) {d e : Entry}
    (hd : d ∈ t) (he : e ∈ t) (h : d.code <+: e.code) : d = e := by
  induction t with
  | nil => simp at hd
  | cons c t ih =>
    rw [List.pairwise_cons] at hp
    rcases List.mem_cons.1 hd with rfl | hd <;> rcases List.mem_cons.1 he with rfl | he
    · rfl
    · exact absurd h (hp.1 e he).1
    · exact absurd h (hp.1 d (by assumption)).2
    · exact ih hp.2 hd he

/-- The walk passes the nodes inside a code: from the node `w`, along `u`, to a node that is not yet a code. -/
theorem walkBits_inside {t : Table} (hp : t.Pairwise fun d e => ¬ d.code <+: e.code ∧ ¬ e.code <+: d.code) {e : Entry}
    (he : e ∈ t) (k start : Nat) (w u rest : Bits) (h : w ++ u <+: e.code) (hne : w ++ u ≠ e.code) :
    walkBits t k start w (u ++ rest) = walkBits t (k + u.length) start (w ++ u) rest := by
  induction u generalizing k w with
  | nil => simp
  | cons b u ih =>
    have happ : w ++ [b] ++ u = w ++ b :: u := by simp
    have hpre : w ++ [b] <+: e.code := (List.prefix_append (w ++ [b]) u).trans (happ ▸ h)
    have hleaf : t.leafAt (w ++ [b]) = none := leafAt_of_ne fun d hd hc => by
      have := eq_of_prefix hp hd he (hc ▸ hpre)
      subst this
      refine hne (List.IsPrefix.eq_of_length_le h ?_)
      rw [hc]
      simp
    rw [List.cons_append, walkBits, if_pos ((hasNode_iff _ _).2 ⟨e, he, hpre⟩), hleaf]
    simp only
    rw [ih (k + 1) (w ++ [b]) (by rwa [happ]) (by rwa [happ]), happ, List.length_cons]
    congr 1
    omega

/-- The walk reads one code and emits its symbol. -/
theorem walkBits_code {t : Table} (hp : t.Pairwise fun d e => ¬ d.code <+: e.code ∧ ¬ e.code <+: d.code) {e : Entry}
    (he : e ∈ t) (hlen : 1 ≤ e.len) (k : Nat) (rest : Bits) :
    walkBits t k k [] (e.code ++ rest) =
      match walkBits t (k + e.len) (k + e.len) [] rest with
      | .error r => .error r
      | .ok out => .ok (e.sym :: out) := by
  obtain ⟨u, b, hub⟩ : ∃ u b, e.code = u ++ [b] := by
    rcases List.eq_nil_or_concat e.code with h | ⟨u, b, h⟩
    · rw [Entry.len, h] at hlen
      simp at hlen
    · exact ⟨u, b, by simpa using h⟩
  have hin := walkBits_inside hp he k k [] u ([b] ++ rest) (by simp [hub]) (by simp [hub])
  rw [hub, List.append_assoc, hin, List.nil_append, List.singleton_append, walkBits,
    if_pos ((hasNode_iff _ _).2 ⟨e, he, by rw [hub]⟩), ← hub, leafAt_code hp he]
  simp only [Entry.len, hub, List.length_append, List.length_singleton, Nat.add_assoc] <;> rfl

/-- The walk of Enc(seq) followed by more bits emits seq and goes on at the root (R131). -/
theorem walkBits_enc {t : Table} (hp : t.Pairwise fun d e => ¬ d.code <+: e.code ∧ ¬ e.code <+: d.code)
    (hl : ∀ e ∈ t, 1 ≤ e.len) {seq : List Word} (hs : ∀ x ∈ seq, InTable t x) (k : Nat) (rest : Bits) :
    walkBits t k k [] (enc t seq ++ rest) =
      match walkBits t (k + (enc t seq).length) (k + (enc t seq).length) [] rest with
      | .error r => .error r
      | .ok out => .ok (seq ++ out) := by
  induction seq generalizing k with
  | nil =>
    simp only [enc, List.flatMap_nil, List.nil_append, List.length_nil, Nat.add_zero]
    cases walkBits t k k [] rest <;> rfl
  | cons x xs ih =>
    obtain ⟨e, he, hx, _, hc⟩ := lookup_of_inTable (hs x (by simp))
    rw [enc_cons, hc, List.append_assoc, walkBits_code hp he (hl e he), ih fun y hy => hs y (by simp [hy])]
    rw [List.length_append, ← Nat.add_assoc]
    cases walkBits t (k + e.len + (enc t xs).length) (k + e.len + (enc t xs).length) [] rest <;> simp [hx]

/-! ## The symbols (R121) -/

theorem mem_insertSymbol {x y : Word} {l : List Word} : y ∈ insertSymbol x l ↔ y = x ∨ y ∈ l := by
  induction l with
  | nil => simp [insertSymbol]
  | cons z zs ih =>
    unfold insertSymbol
    split
    · simp
    · split
      · rename_i h
        simp [h]
      · simp [ih, or_left_comm]

theorem insertSymbol_ascending {x : Word} {l : List Word} (h : l.Pairwise fun a b => a.toNat < b.toNat) :
    (insertSymbol x l).Pairwise fun a b => a.toNat < b.toNat := by
  induction l with
  | nil => simp [insertSymbol]
  | cons z zs ih =>
    have hz := List.pairwise_cons.1 h
    unfold insertSymbol
    split
    · refine List.pairwise_cons.2 ⟨fun y hy => ?_, h⟩
      rcases List.mem_cons.1 hy with rfl | hy
      · assumption
      · have := hz.1 y hy
        omega
    · split
      · exact h
      · rename_i h1 h2
        refine List.pairwise_cons.2 ⟨fun y hy => ?_, ih hz.2⟩
        rcases mem_insertSymbol.1 hy with rfl | hy
        · have : z.toNat ≠ y.toNat := fun hc => h2 (BitVec.eq_of_toNat_eq hc.symm)
          omega
        · exact hz.1 y hy

@[simp] theorem mem_distinctSymbols {x : Word} {seq : List Word} : x ∈ distinctSymbols seq ↔ x ∈ seq := by
  induction seq with
  | nil => simp [distinctSymbols]
  | cons y ys ih => simp [distinctSymbols, mem_insertSymbol, ih]

theorem distinctSymbols_ascending (seq : List Word) :
    (distinctSymbols seq).Pairwise fun a b => a.toNat < b.toNat := by
  induction seq with
  | nil => simp [distinctSymbols]
  | cons y ys ih => exact insertSymbol_ascending ih

theorem distinctSymbols_nodup (seq : List Word) : (distinctSymbols seq).Nodup :=
  (distinctSymbols_ascending seq).imp fun h heq => by simp [heq] at h

theorem distinctSymbols_length (seq : List Word) : (distinctSymbols seq).length = seq.toFinset.card := by
  rw [← List.toFinset_card_of_nodup (distinctSymbols_nodup seq)]
  congr 1
  ext x
  simp

/-- The distinct symbols depend on which symbols occur only. -/
theorem distinctSymbols_congr {seq seq' : List Word} (h : ∀ x, x ∈ seq ↔ x ∈ seq') :
    distinctSymbols seq = distinctSymbols seq' := by
  refine List.Perm.eq_of_pairwise (le := fun a b => a.toNat < b.toNat) (fun a b _ _ h1 h2 => absurd h1 (by omega))
    (distinctSymbols_ascending _) (distinctSymbols_ascending _) ?_
  rw [List.perm_ext_iff_of_nodup (distinctSymbols_nodup _) (distinctSymbols_nodup _)]
  simpa using h

/-! ## The queue and the trees (R121) -/

/-- The leaves of a tree, left to right. -/
def Tree.leaves : Tree → List Nat
  | .leaf i => [i]
  | .node l r => l.leaves ++ r.leaves

/-- The leaves of all fragments of a queue. -/
def queueLeaves (q : List Fragment) : List Nat := q.flatMap fun f => f.tree.leaves

theorem enqueue_perm (f : Fragment) (q : List Fragment) : (enqueue f q).Perm (f :: q) := by
  induction q with
  | nil => exact List.Perm.refl _
  | cons g gs ih =>
    unfold enqueue
    split
    · exact List.Perm.refl _
    · exact (ih.cons g).trans (List.Perm.swap f g gs)

/-- Keys compare by frequency, then by sequence number (R121). -/
theorem before_iff {f g : Fragment} : f.before g = true ↔ f.freq < g.freq ∨ f.freq = g.freq ∧ f.seq < g.seq := by
  simp [Fragment.before]

/-- Adding a fragment with a fresh sequence number keeps a queue in key order. -/
theorem enqueue_sorted {f : Fragment} {q : List Fragment} (hq : q.Pairwise fun a b => a.before b = true)
    (hf : ∀ g ∈ q, g.seq ≠ f.seq) : (enqueue f q).Pairwise fun a b => a.before b = true := by
  induction q with
  | nil => simp [enqueue]
  | cons g gs ih =>
    have hg := List.pairwise_cons.1 hq
    unfold enqueue
    split
    · rename_i h
      refine List.pairwise_cons.2 ⟨fun x hx => ?_, hq⟩
      rcases List.mem_cons.1 hx with rfl | hx
      · exact h
      · have := hg.1 x hx
        rw [before_iff] at *
        omega
    · rename_i h
      refine List.pairwise_cons.2 ⟨fun x hx => ?_, ih hg.2 fun x hx => hf x (List.mem_cons_of_mem _ hx)⟩
      rcases List.mem_cons.1 ((enqueue_perm f gs).mem_iff.1 hx) with rfl | hx
      · have := hf g List.mem_cons_self
        rw [before_iff] at *
        omega
      · exact hg.1 x hx

theorem queueLeaves_enqueue (f : Fragment) (q : List Fragment) :
    (queueLeaves (enqueue f q)).Perm (f.tree.leaves ++ queueLeaves q) :=
  (enqueue_perm f q).flatMap_right _

theorem leafQueue_length (seq : List Word) (i : Nat) (syms : List Word) :
    (leafQueue seq i syms).length = syms.length := by
  induction syms generalizing i with
  | nil => rfl
  | cons x xs ih => rw [leafQueue, (enqueue_perm _ _).length_eq, List.length_cons, ih, List.length_cons]

/-- The leaf fragments stand in the queue once each. -/
theorem leafQueue_perm (seq : List Word) (i : Nat) (syms : List Word) :
    (leafQueue seq i syms).Perm
      (syms.mapIdx fun k x => { freq := seq.count x, seq := i + k, tree := .leaf (i + k) }) := by
  induction syms generalizing i with
  | nil => exact List.Perm.refl _
  | cons x xs ih =>
    refine (enqueue_perm _ _).trans ?_
    rw [List.mapIdx_cons]
    refine List.Perm.cons _ ((ih (i + 1)).trans (List.Perm.of_eq ?_))
    congr 1
    funext k y
    simp [Nat.add_assoc, Nat.add_comm 1]

theorem leafQueue_seq {seq : List Word} {i : Nat} {syms : List Word} {f : Fragment} (h : f ∈ leafQueue seq i syms) :
    i ≤ f.seq ∧ f.seq < i + syms.length := by
  obtain ⟨k, hk, rfl⟩ := List.mem_mapIdx.1 ((leafQueue_perm seq i syms).mem_iff.1 h)
  exact ⟨Nat.le_add_right _ _, Nat.add_lt_add_left hk i⟩

theorem leafQueue_sorted (seq : List Word) (i : Nat) (syms : List Word) :
    (leafQueue seq i syms).Pairwise fun a b => a.before b = true := by
  induction syms generalizing i with
  | nil => exact List.Pairwise.nil
  | cons x xs ih =>
    refine enqueue_sorted (ih (i + 1)) fun g hg => ?_
    have := leafQueue_seq hg
    simp only
    omega

theorem leafQueue_leaves (seq : List Word) (i : Nat) (syms : List Word) :
    (queueLeaves (leafQueue seq i syms)).Perm (List.range' i syms.length) := by
  induction syms generalizing i with
  | nil => exact List.Perm.refl _
  | cons x xs ih => exact (queueLeaves_enqueue _ _).trans ((ih (i + 1)).cons i)

/-- Merging keeps the leaves. -/
theorem mergeFragments_leaves (fuel next : Nat) (q : List Fragment) :
    (queueLeaves (mergeFragments fuel next q)).Perm (queueLeaves q) := by
  induction fuel generalizing next q with
  | zero => exact List.Perm.refl _
  | succ fuel ih =>
    match q with
    | [] => exact List.Perm.refl _
    | [a] => exact List.Perm.refl _
    | a :: b :: q =>
      refine (ih _ _).trans ((queueLeaves_enqueue _ _).trans ?_)
      simp [queueLeaves, Tree.leaves]

/-- Enough merges leave one tree. -/
theorem mergeFragments_one (fuel next : Nat) (q : List Fragment) (h : q.length = fuel + 1) :
    ∃ f, mergeFragments fuel next q = [f] := by
  induction fuel generalizing next q with
  | zero => exact List.length_eq_one_iff.1 h
  | succ fuel ih =>
    match q with
    | [] => simp at h
    | [a] => simp at h
    | a :: b :: q =>
      refine ih _ _ ?_
      rw [(enqueue_perm _ _).length_eq]
      simpa using h

/-- The tree of m ≥ 1 symbols: one fragment, its leaves the indices 0 .. m − 1. -/
theorem mergeFragments_tree (seq syms : List Word) (next : Nat) (h : 1 ≤ syms.length) :
    ∃ f, mergeFragments (syms.length - 1) next (leafQueue seq 0 syms) = [f] ∧
      f.tree.leaves.Perm (List.range syms.length) := by
  obtain ⟨f, hf⟩ := mergeFragments_one (syms.length - 1) next (leafQueue seq 0 syms) (by rw [leafQueue_length]; omega)
  refine ⟨f, hf, ?_⟩
  have h1 := mergeFragments_leaves (syms.length - 1) next (leafQueue seq 0 syms)
  rw [hf] at h1
  have h2 := h1.trans (leafQueue_leaves seq 0 syms)
  rwa [← List.range_eq_range', queueLeaves, List.flatMap_singleton] at h2

/-! ## Paths (R121, R122) -/

theorem path?_leaf {i : Nat} {u : Bits} {j : Nat} (h : (Tree.leaf j).path? i = some u) : i = j ∧ u = [] := by
  simp only [Tree.path?] at h
  split at h
  · simp_all
  · cases h

theorem path?_eq_none {i : Nat} {t : Tree} : t.path? i = none ↔ i ∉ t.leaves := by
  induction t with
  | leaf j => simp [Tree.path?, Tree.leaves, eq_comm]
  | node l r ihl ihr =>
    simp only [Tree.path?, Tree.leaves, List.mem_append, not_or, ← ihl, ← ihr]
    cases l.path? i <;> cases r.path? i <;> simp

theorem path?_isSome {i : Nat} {t : Tree} (h : i ∈ t.leaves) : ∃ u, t.path? i = some u := by
  by_contra hc
  exact path?_eq_none.1 (by simpa [Option.eq_none_iff_forall_not_mem] using hc) h

/-- A path into a node starts with "0" into the left, with "1" into the right subtree. -/
theorem path?_node {i : Nat} {l r : Tree} (hd : (l.leaves ++ r.leaves).Nodup) :
    (i ∈ l.leaves → (Tree.node l r).path? i = (l.path? i).map (false :: ·)) ∧
      (i ∈ r.leaves → (Tree.node l r).path? i = (r.path? i).map (true :: ·)) := by
  refine ⟨fun h => ?_, fun h => ?_⟩
  · obtain ⟨u, hu⟩ := path?_isSome h
    simp [Tree.path?, hu]
  · obtain ⟨u, hu⟩ := path?_isSome h
    have hl : l.path? i = none := path?_eq_none.2 fun hl => (List.nodup_append.1 hd).2.2 i hl i h rfl
    simp [Tree.path?, hu, hl]

/-- No path of a tree is longer than its leaves allow. -/
theorem path?_length {t : Tree} {i : Nat} {u : Bits} (h : t.path? i = some u) : u.length + 1 ≤ t.leaves.length := by
  induction t generalizing u with
  | leaf j => simp [(path?_leaf h).2, Tree.leaves]
  | node l r ihl ihr =>
    have hl : 1 ≤ l.leaves.length ∧ 1 ≤ r.leaves.length := by
      have : ∀ t : Tree, 1 ≤ t.leaves.length := fun t => by
        induction t with
        | leaf j => simp [Tree.leaves]
        | node l r _ _ => simp only [Tree.leaves, List.length_append]; omega
      exact ⟨this l, this r⟩
    simp only [Tree.leaves, List.length_append]
    unfold Tree.path? at h
    split at h
    · rename_i v hv
      obtain rfl := Option.some.inj h
      have := ihl hv
      simp only [List.length_cons]
      omega
    · split at h
      · rename_i v hv
        obtain rfl := Option.some.inj h
        have := ihr hv
        simp only [List.length_cons]
        omega
      · cases h

/-- Paths to different leaves are not prefixes of each other. -/
theorem path?_prefixFree {t : Tree} (hd : t.leaves.Nodup) {i j : Nat} {u v : Bits} (hu : t.path? i = some u)
    (hv : t.path? j = some v) (h : u <+: v) : i = j := by
  induction t generalizing u v with
  | leaf k => rw [(path?_leaf hu).1, (path?_leaf hv).1]
  | node l r ihl ihr =>
    have hn := List.nodup_append.1 hd
    have hmem : ∀ {k w}, (Tree.node l r).path? k = some w → k ∈ l.leaves ∨ k ∈ r.leaves := fun {k w} hk => by
      rw [← List.mem_append]
      by_contra hc
      rw [path?_eq_none.2 hc] at hk
      cases hk
    rcases hmem hu with hi | hi <;> rcases hmem hv with hj | hj
    · rw [(path?_node hd).1 hi] at hu
      rw [(path?_node hd).1 hj] at hv
      obtain ⟨u', h1, rfl⟩ := Option.map_eq_some_iff.1 hu
      obtain ⟨v', h2, rfl⟩ := Option.map_eq_some_iff.1 hv
      exact ihl hn.1 h1 h2 (List.cons_prefix_cons.1 h).2
    · rw [(path?_node hd).1 hi] at hu
      rw [(path?_node hd).2 hj] at hv
      obtain ⟨u', h1, rfl⟩ := Option.map_eq_some_iff.1 hu
      obtain ⟨v', h2, rfl⟩ := Option.map_eq_some_iff.1 hv
      simp at h
    · rw [(path?_node hd).2 hi] at hu
      rw [(path?_node hd).1 hj] at hv
      obtain ⟨u', h1, rfl⟩ := Option.map_eq_some_iff.1 hu
      obtain ⟨v', h2, rfl⟩ := Option.map_eq_some_iff.1 hv
      simp at h
    · rw [(path?_node hd).2 hi] at hu
      rw [(path?_node hd).2 hj] at hv
      obtain ⟨u', h1, rfl⟩ := Option.map_eq_some_iff.1 hu
      obtain ⟨v', h2, rfl⟩ := Option.map_eq_some_iff.1 hv
      exact ihr hn.2.1 h1 h2 (List.cons_prefix_cons.1 h).2

/-- The weights of a tree's paths add up to 1 (R123 (b)). -/
theorem path?_kraft {t : Tree} (hd : t.leaves.Nodup) :
    (t.leaves.map fun i => (1 / 2 : ℚ) ^ ((t.path? i).getD []).length).sum = 1 := by
  induction t with
  | leaf j => simp [Tree.leaves, Tree.path?]
  | node l r ihl ihr =>
    have hn := List.nodup_append.1 hd
    have hl : l.leaves.map (fun i => (1 / 2 : ℚ) ^ (((Tree.node l r).path? i).getD []).length) =
        l.leaves.map fun i => (1 / 2 : ℚ) ^ ((l.path? i).getD []).length * (1 / 2) := by
      refine List.map_congr_left fun i hi => ?_
      obtain ⟨u, hu⟩ := path?_isSome hi
      rw [(path?_node hd).1 hi, hu]
      simp [pow_succ]
    have hr : r.leaves.map (fun i => (1 / 2 : ℚ) ^ (((Tree.node l r).path? i).getD []).length) =
        r.leaves.map fun i => (1 / 2 : ℚ) ^ ((r.path? i).getD []).length * (1 / 2) := by
      refine List.map_congr_left fun i hi => ?_
      obtain ⟨u, hu⟩ := path?_isSome hi
      rw [(path?_node hd).2 hi, hu]
      simp [pow_succ]
    rw [Tree.leaves, List.map_append, List.sum_append, hl, hr, List.sum_map_mul_right, List.sum_map_mul_right,
      ihl hn.1, ihr hn.2.1]
    norm_num

/-! ## The entries -/

theorem pathEntries_eq (q : List Fragment) (i : Nat) (syms : List Word) :
    pathEntries q i syms = (syms.zipIdx i).map fun p => { sym := p.1, code := codeOf q p.2 } := by
  induction syms generalizing i with
  | nil => rfl
  | cons x xs ih => simp [pathEntries, ih]

@[simp] theorem pathEntries_length (q : List Fragment) (i : Nat) (syms : List Word) :
    (pathEntries q i syms).length = syms.length := by simp [pathEntries_eq]

theorem pathEntries_syms (q : List Fragment) (i : Nat) (syms : List Word) :
    (pathEntries q i syms).map Entry.sym = syms := by
  induction syms generalizing i with
  | nil => rfl
  | cons x xs ih => simp [pathEntries, ih]

theorem pathEntries_codes (q : List Fragment) (i : Nat) (syms : List Word) :
    (pathEntries q i syms).map Entry.code = (List.range' i syms.length).map (codeOf q) := by
  induction syms generalizing i with
  | nil => rfl
  | cons x xs ih => simp [pathEntries, ih, List.range'_succ]

theorem le_maxLen {t : Table} {e : Entry} (h : e ∈ t) : e.len ≤ maxLen t := by
  induction t with
  | nil => simp at h
  | cons d t ih =>
    rcases List.mem_cons.1 h with rfl | h
    · exact le_max_left _ _
    · exact (ih h).trans (le_max_right _ _)

theorem maxLen_le {t : Table} {n : Nat} (h : ∀ e ∈ t, e.len ≤ n) : maxLen t ≤ n := by
  induction t with
  | nil => exact Nat.zero_le n
  | cons d t ih => exact max_le (h d (by simp)) (ih fun e he => h e (by simp [he]))

theorem totalLen_eq_sum (t : Table) : totalLen t = (t.map Entry.len).sum := by
  induction t with
  | nil => rfl
  | cons e t ih => simp [totalLen, ih]

theorem codeFor_of_not_inTable {t : Table} {x : Word} (h : ¬ InTable t x) : codeFor t x = [] := by
  have : t.find? (fun e => e.sym == x) = none := by
    rw [← lookup_eq_find?]
    exact lookup_of_not_inTable h
  simp [codeFor, this]

theorem encodedLen_cons {t : Table} (ht : (t.map Entry.sym).Nodup) (x : Word) (xs : List Word) :
    encodedLen (x :: xs) t = (codeFor t x).length + encodedLen xs t := by
  induction t with
  | nil => rfl
  | cons e t ih =>
    rw [List.map_cons, List.nodup_cons] at ht
    simp only [encodedLen, freq, ih ht.2]
    by_cases hx : e.sym = x
    · have hn : codeFor t x = [] := codeFor_of_not_inTable fun ⟨d, hd, hs⟩ =>
        ht.1 (hx.trans hs.symm ▸ List.mem_map_of_mem hd)
      have hc : codeFor (e :: t) x = e.code := by simp [codeFor, hx]
      rw [hn, hc, hx, List.count_cons_self]
      simp only [List.length_nil, Entry.len]
      ring
    · have hc : codeFor (e :: t) x = codeFor t x := by simp [codeFor, hx]
      rw [hc, List.count_cons_of_ne fun h => hx h.symm]
      ring

/-- Σ freq(SYM[i]) · LEN[i] is the length of Enc(seq) (R120). -/
theorem encodedLen_eq {t : Table} (ht : (t.map Entry.sym).Nodup) (seq : List Word) :
    encodedLen seq t = (enc t seq).length := by
  induction seq with
  | nil =>
    have : ∀ t : Table, encodedLen [] t = 0 := fun t => by
      induction t with
      | nil => rfl
      | cons e t ih => simp [encodedLen, freq, ih]
    simp [this, enc]
  | cons x xs ih => rw [encodedLen_cons ht, ih, enc_cons, List.length_append]

/-- What HuffmanCodes can answer (R121): too many symbols; no symbol; one symbol, with the code "0"; or the paths of a
tree whose leaves are the symbols' indices, if none is too long. -/
theorem huffmanCodes_cases (c : Params) (seq syms : List Word) (h : distinctSymbols seq = syms) :
    (c.maxSyms < syms.length ∧ huffmanCodes c seq = .error ⟨.tableFull, syms.length⟩) ∨
      (syms = [] ∧ huffmanCodes c seq = .ok []) ∨
      (∃ x, syms = [x] ∧ 1 ≤ c.maxSyms ∧ huffmanCodes c seq = .ok [{ sym := x, code := [false] }]) ∨
      (2 ≤ syms.length ∧ syms.length ≤ c.maxSyms ∧ ∃ f : Fragment, f.tree.leaves.Perm (List.range syms.length) ∧
        huffmanCodes c seq =
          if c.maxCodeLen < maxLen (pathEntries [f] 0 syms) then
            .error ⟨.codeTooLong, maxLen (pathEntries [f] 0 syms)⟩
          else .ok (pathEntries [f] 0 syms)) := by
  have hml := mergeFragments_tree seq syms syms.length
  unfold huffmanCodes
  rw [h]
  by_cases hm : c.maxSyms < syms.length
  · exact .inl ⟨hm, if_pos hm⟩
  · right
    simp only [if_neg hm, gt_iff_lt]
    match syms with
    | [] => exact .inl ⟨rfl, rfl⟩
    | [x] => exact .inr (.inl ⟨x, rfl, Nat.not_lt.1 hm, rfl⟩)
    | x :: y :: l =>
      obtain ⟨f, hf, hp⟩ := hml (by simp)
      refine .inr (.inr ⟨by simp, by omega, f, hp, ?_⟩)
      simp only
      rw [hf]

end Sys2Proof.Machine
end

