-- ==== Sys2Proof/Laws/Serial.lean ====
section
/-! SUPPORT. The data formats: packing bits and reading them back, counts, bit sequences, tables (42_serial.md R150 to
R158). What a writer puts down, the matching reader gives back. -/

namespace Sys2Proof.Machine

namespace Memory

/-! ## Bytes at an address -/

theorem holds_setCells (m : Memory) (a : Nat) (y : List Byte) : (m.setCells (emitAt a y)).Holds a y :=
  fun k h => byte_emitAt_inside m a y k h

theorem holds_append {m : Memory} {a : Nat} {y z : List Byte} :
    m.Holds a (y ++ z) ↔ m.Holds a y ∧ m.Holds (a + y.length) z := by
  constructor
  · intro h
    refine ⟨fun k hk => ?_, fun k hk => ?_⟩
    · rw [h k (by rw [List.length_append]; omega), List.getElem_append_left hk]
    · rw [Nat.add_assoc, h (y.length + k) (by rw [List.length_append]; omega),
        List.getElem_append_right (by omega)]
      simp
  · rintro ⟨h1, h2⟩ k hk
    rw [List.length_append] at hk
    by_cases hky : k < y.length
    · rw [List.getElem_append_left hky, h1 k hky]
    · rw [List.getElem_append_right (by omega)]
      have := h2 (k - y.length) (by omega)
      rwa [Nat.add_assoc, Nat.add_sub_cancel' (by omega)] at this

theorem holds_cons {m : Memory} {a : Nat} {y : Byte} {z : List Byte} :
    m.Holds a (y :: z) ↔ m.byte a = y ∧ m.Holds (a + 1) z := by
  rw [← List.singleton_append, holds_append]
  refine and_congr_left fun _ => ⟨fun h => by simpa using h 0 (by simp), fun h k hk => ?_⟩
  obtain rfl : k = 0 := by simpa using hk
  simpa using h

/-- Bytes that spell a number read as it, if it fits. -/
theorem read_of_holds {m : Memory} {a v n : Nat} (h : m.Holds a (leBytes v n)) (hv : v < 2 ^ (8 * n)) :
    m.read a n = v := by
  rw [read_of_leBytes m a v n fun i hi => h i (by simpa using hi), Nat.mod_eq_of_lt hv]

/-- The number a memory reads stands in it. -/
theorem holds_read (m : Memory) (a n : Nat) : m.Holds a (leBytes (m.read a n) n) := by
  induction n generalizing a with
  | zero => intro k hk; simp at hk
  | succ n ih =>
    have hb := (m.byte a).isLt
    rw [leBytes_succ, holds_cons, read_succ]
    refine ⟨BitVec.eq_of_toNat_eq (by rw [BitVec.toNat_ofNat]; omega), ?_⟩
    rw [show ((m.byte a).toNat + 2 ^ 8 * m.read (a + 1) n) / 2 ^ 8 = m.read (a + 1) n by omega]
    exact ih (a + 1)

/-- The bytes a memory has stand in it. -/
theorem holds_bytes (m : Memory) (a n : Nat) : m.Holds a (m.bytes a n) := fun k h => (bytes_getElem m a n k h).symm

theorem words_of_holds {m : Memory} {a : Nat} {l : List Word} (h : m.Holds a (symbolBytes l)) :
    m.words a l.length = l := by
  induction l generalizing a with
  | nil => rfl
  | cons x xs ih =>
    obtain ⟨h1, h2⟩ := holds_append.1 h
    rw [leBytes_length] at h2
    simp only [List.length_cons, words, ih h2, read_of_holds h1 (by simpa using x.isLt), BitVec.ofNat_toNat,
      BitVec.setWidth_eq]

end Memory

@[simp] theorem symbolBytes_length (l : List Word) : (symbolBytes l).length = 4 * l.length := by
  induction l with
  | nil => rfl
  | cons x xs ih =>
    simp only [symbolBytes, List.length_append, leBytes_length, ih, List.length_cons]
    omega

/-! ## Packed bits -/

theorem packed_bits : ∀ (b0 b1 b2 b3 b4 b5 b6 b7 : Bool) (u : Fin 8),
    (BitVec.ofNat 8 (b0.toNat * 2 ^ 7 + b1.toNat * 2 ^ 6 + b2.toNat * 2 ^ 5 + b3.toNat * 2 ^ 4 + b4.toNat * 2 ^ 3 +
      b5.toNat * 2 ^ 2 + b6.toNat * 2 ^ 1 + b7.toNat * 2 ^ 0)).getLsbD (7 - u.val) =
      [b0, b1, b2, b3, b4, b5, b6, b7].getD u.val false := by
  decide +kernel

theorem packByte_bit (bs : Bits) (t u : Nat) (hu : u < 8) :
    (packByte bs t).getLsbD (7 - u) = bs.getD (8 * t + u) false := by
  have h := packed_bits (bs.getD (8 * t + 0) false) (bs.getD (8 * t + 1) false) (bs.getD (8 * t + 2) false)
    (bs.getD (8 * t + 3) false) (bs.getD (8 * t + 4) false) (bs.getD (8 * t + 5) false)
    (bs.getD (8 * t + 6) false) (bs.getD (8 * t + 7) false) ⟨u, hu⟩
  simp only [packByte, sumBelow, Nat.zero_add]
  refine h.trans ?_
  interval_cases u <;> rfl

@[simp] theorem pack_length (bs : Bits) : (pack bs).length = bytesOfBits bs.length := by simp [pack]

/-- A packed bit string reads back, its padding as 0 (R152). -/
theorem Memory.bit_of_pack {m : Memory} {a k : Nat} {bs : Bits} (h : m.Holds a (pack bs))
    (hk : k < 8 * bytesOfBits bs.length) : m.bit a k = bs.getD k false := by
  rw [Memory.bit, h (k / 8) (by rw [pack_length]; omega)]
  simp only [pack, List.getElem_map, List.getElem_range]
  rw [packByte_bit _ _ _ (by omega), Nat.div_add_mod]

theorem Memory.holdsBits_of_pack {m : Memory} {a : Nat} {bs : Bits} (h : m.Holds a (pack bs)) : m.HoldsBits a bs := by
  intro k hk
  rw [bit_of_pack h (by unfold bytesOfBits; omega), List.getD_eq_getElem _ _ hk]

theorem Memory.bits_of_holdsBits {m : Memory} {a : Nat} {bs : Bits} (h : m.HoldsBits a bs) :
    m.bits a bs.length = bs :=
  List.ext_getElem (by simp) fun k h1 h2 => by rw [Memory.bits_getElem, h k h2]

/-! ## Counts and bit sequences -/

theorem sel_cases (v : Nat) : sel v = 1 ∨ sel v = 2 ∨ sel v = 4 := by
  unfold sel
  split
  · exact .inl rfl
  · split <;> simp

/-- The selected width holds the value (R150). -/
theorem lt_of_sel {v : Nat} (h : v < 2 ^ 32) : v < 2 ^ (8 * sel v) := by
  unfold sel
  split
  · omega
  · split <;> omega

@[simp] theorem putCount_length (v : Nat) : (putCount v).length = 1 + sel v := by
  simp [putCount, Nat.add_comm]

/-- ReadCount of PutCount gives the count back (R158 (a)). -/
theorem Memory.readCount_of_putCount {m : Memory} {a lim off v : Nat} (hv : v < 2 ^ 32)
    (h : m.Holds (a + off) (putCount v)) (hl : off + 1 + sel v ≤ lim) :
    m.readCount a lim off = .ok (v, off + 1 + sel v, sel v) := by
  obtain ⟨h1, h2⟩ := Memory.holds_cons.1 h
  have hs := sel_cases v
  have hw : m.read (a + off) 1 = sel v := by
    rw [Memory.read_one, h1, BitVec.toNat_ofNat]
    omega
  unfold Memory.readCount
  rw [raiseIf_of_not (by omega), try_ok_bind]
  simp only [hw]
  rw [raiseIf_of_not (by omega), try_ok_bind, raiseIf_of_not (by omega), try_ok_bind,
    Memory.read_of_holds h2 (lt_of_sel hv)]
  rfl

@[simp] theorem bitSeqOf_length (bs : Bits) :
    (bitSeqOf bs).length = 1 + sel bs.length + bytesOfBits bs.length := by
  simp [bitSeqOf]

/-- ParseBitSeq of BitSeqOf gives the count, the payload's place and the end (R158 (b)). -/
theorem Memory.parseBitSeq_of_bitSeqOf {m : Memory} {a lim off : Nat} {bs : Bits} (hb : bs.length < 2 ^ 32)
    (h : m.Holds (a + off) (bitSeqOf bs)) (hl : off + (bitSeqOf bs).length ≤ lim) :
    m.parseBitSeq a lim off =
      .ok { count := bs.length, payload := off + 1 + sel bs.length, stop := off + (bitSeqOf bs).length,
            width := sel bs.length } := by
  rw [bitSeqOf_length] at hl
  unfold Memory.parseBitSeq
  rw [Memory.readCount_of_putCount hb (Memory.holds_append.1 h).1 (by omega)]
  simp only [try_ok_bind]
  rw [raiseIf_of_not (by omega), try_ok_bind, bitSeqOf_length, try_pure]
  simp only [Nat.add_assoc]

/-- The payload of a bit sequence in memory. -/
theorem Memory.holdsBits_of_bitSeqOf {m : Memory} {a : Nat} {bs : Bits} (h : m.Holds a (bitSeqOf bs)) :
    m.HoldsBits (a + (1 + sel bs.length)) bs := by
  have := (Memory.holds_append.1 h).2
  rw [putCount_length] at this
  exact Memory.holdsBits_of_pack this

/-! ## Tables -/

/-- The offsets of a table's codes in their concatenation, the first being o (R156 (4)). -/
def offsetList (o : Nat) : Table → List Nat
  | [] => [o]
  | e :: t => o :: offsetList (o + e.len) t

theorem offsetBytes_length (w o : Nat) (t : Table) : (offsetBytes w o t).length = w * (t.length + 1) := by
  induction t generalizing o with
  | nil => simp [offsetBytes]
  | cons e t ih =>
    simp only [offsetBytes, List.length_append, leBytes_length, ih, List.length_cons]
    ring

theorem allCodes_length (t : Table) : (allCodes t).length = (t.map Entry.len).sum := by
  induction t with
  | nil => rfl
  | cons e t ih => simp [allCodes, ih]

theorem Memory.offsets_of_holds {m : Memory} {a w o : Nat} {t : Table} (h : m.Holds a (offsetBytes w o t))
    (hw : o + (allCodes t).length < 2 ^ (8 * w)) : m.offsets a w (t.length + 1) = offsetList o t := by
  induction t generalizing a o with
  | nil => simp [Memory.offsets, offsetList, Memory.read_of_holds h (by simpa [allCodes] using hw)]
  | cons e t ih =>
    simp only [allCodes, List.length_append] at hw
    obtain ⟨h1, h2⟩ := Memory.holds_append.1 h
    rw [leBytes_length] at h2
    rw [List.length_cons, Memory.offsets, Memory.read_of_holds h1 (by omega), offsetList,
      ih h2 (by simp only [Entry.len]; omega)]

theorem offsetList_cons (o : Nat) (t : Table) : ∃ l, offsetList o t = o :: l := by
  cases t <;> exact ⟨_, rfl⟩

theorem offsetList_getLastD (o d : Nat) (t : Table) : (offsetList o t).getLastD d = o + (allCodes t).length := by
  induction t generalizing o d with
  | nil => simp [offsetList, allCodes]
  | cons e t ih =>
    rw [offsetList, List.getLastD_cons, ih]
    simp [allCodes, Nat.add_assoc]

theorem checkSteps_offsetList {c : Params} {r w j o : Nat} {t : Table}
    (h : ∀ e ∈ t, 1 ≤ e.len ∧ e.len ≤ c.maxCodeLen) : checkSteps c r w j (offsetList o t) = .ok () := by
  induction t generalizing o j with
  | nil => rfl
  | cons e t ih =>
    obtain ⟨l, hl⟩ := offsetList_cons (o + e.len) t
    have he := h e (by simp)
    have := ih (j := j + 1) (o := o + e.len) fun d hd => h d (by simp [hd])
    rw [offsetList]
    rw [hl] at this ⊢
    rw [checkSteps, raiseIf_of_not (by omega), try_ok_bind, raiseIf_of_not (by omega), try_ok_bind, this]

theorem cutEntries_offsetList (pre : Bits) (t : Table) :
    cutEntries (pre ++ allCodes t) (t.map Entry.sym) (offsetList pre.length t) = t := by
  induction t generalizing pre with
  | nil => rfl
  | cons e t ih =>
    obtain ⟨l, hl⟩ := offsetList_cons (pre.length + e.len) t
    have := ih (pre ++ e.code)
    rw [List.length_append] at this
    rw [allCodes, offsetList, ← List.append_assoc, List.map_cons]
    rw [hl] at this ⊢
    rw [cutEntries, this, List.append_assoc, List.drop_left, Nat.add_sub_cancel_left, List.take_left]

theorem prefixRelated_eq_false {u w : Bits} : prefixRelated u w = false ↔ ¬ u <+: w ∧ ¬ w <+: u := by
  simp [prefixRelated, ← Bool.not_eq_true, List.isPrefixOf_iff_prefix]

theorem checkPrefixFree_eq_ok {j : Nat} {before t : Table} {u : Unit} :
    checkPrefixFree j before t = .ok u ↔
      (∀ d ∈ before, ∀ e ∈ t, ¬ d.code <+: e.code ∧ ¬ e.code <+: d.code) ∧
        t.Pairwise fun d e => ¬ d.code <+: e.code ∧ ¬ e.code <+: d.code := by
  induction t generalizing j before with
  | nil => simp [checkPrefixFree]
  | cons e t ih =>
    rw [checkPrefixFree, try_bind_eq_ok]
    simp only [raiseIf_eq_ok, ih, List.mem_append, List.mem_cons, List.not_mem_nil, or_false, List.pairwise_cons,
      Bool.not_eq_true, List.any_eq_false, prefixRelated_eq_false]
    constructor
    · rintro ⟨_, h1, h2, h3⟩
      refine ⟨?_, ?_, h3⟩
      · rintro d hd x (rfl | hx)
        · exact h1 d hd
        · exact h2 d (.inl hd) x hx
      · exact fun x hx => h2 e (.inr rfl) x hx
    · rintro ⟨h1, h2, h3⟩
      refine ⟨(), fun d hd => h1 d hd e (.inl rfl), ?_, h3⟩
      rintro d (hd | rfl) x hx
      · exact h1 d hd x (.inr hx)
      · exact h2 x hx

theorem checkOrder_eq_ok {p i : Nat} {l : List Word} {u : Unit} :
    checkOrder p i l = .ok u ↔ l.Pairwise fun x y => x.toNat < y.toNat := by
  rw [← List.isChain_iff_pairwise]
  induction l generalizing i with
  | nil => simp [checkOrder]
  | cons x l ih =>
    cases l with
    | nil => simp [checkOrder]
    | cons y l =>
      rw [checkOrder, try_bind_eq_ok]
      simp only [raiseIf_eq_ok, ih, List.isChain_cons_cons, Nat.not_le]
      exact ⟨fun ⟨_, h⟩ => h, fun h => ⟨(), h⟩⟩

/-- What the offset checks of ParseTable let through cuts into codes of legal length (R157). -/
theorem cutEntries_of_checkSteps {c : Params} {r w j o : Nat} {codes : Bits} {syms : List Word} {os : List Nat} {u : Unit}
    (h : checkSteps c r w j (o :: os) = .ok u) (hl : os.length = syms.length)
    (hlast : (o :: os).getLastD 0 = codes.length) :
    o ≤ codes.length ∧ (cutEntries codes syms (o :: os)).map Entry.sym = syms ∧
      ∀ e ∈ cutEntries codes syms (o :: os), 1 ≤ e.len ∧ e.len ≤ c.maxCodeLen := by
  induction syms generalizing o os j with
  | nil =>
    obtain rfl : os = [] := by simpa using hl
    simp only [List.getLastD_cons, List.getLastD_nil] at hlast
    simp [cutEntries, hlast]
  | cons x xs ih =>
    obtain ⟨o', os, rfl⟩ := List.exists_cons_of_length_eq_add_one (hl.trans (List.length_cons ..))
    simp only [checkSteps, try_bind_eq_ok, raiseIf_eq_ok] at h
    obtain ⟨_, h1, _, h2, h3⟩ := h
    obtain ⟨i1, i2, i3⟩ := ih h3 (by simpa using hl) (by simpa using hlast)
    refine ⟨by omega, by simp [cutEntries, i2], ?_⟩
    simp only [cutEntries, List.mem_cons, forall_eq_or_imp, Entry.len, List.length_take, List.length_drop]
    exact ⟨by omega, i3⟩

/-- Whatever the bytes, a parsed table is valid (R157, 10_state.md R41). -/
theorem Memory.parseTable_valid {c : Params} {m : Memory} {a lim off e : Nat} {t : Table}
    (h : m.parseTable c a lim off = .ok (t, e)) : TableValid c t := by
  simp only [Memory.parseTable, try_bind_eq_ok, raiseIf_eq_ok, try_pure] at h
  obtain ⟨⟨n, p, w⟩, _, _, hn, _, _, _, ho, b, _, _, _, _, hz, _, hs, _, hlast, _, hp, h⟩ := h
  obtain ⟨rfl, rfl⟩ := Prod.mk.inj (Except.ok.inj h)
  simp only at *
  rw [checkOrder_eq_ok] at ho
  rw [checkPrefixFree_eq_ok] at hp
  generalize hos : m.offsets (a + b.stop) b.width (n + 1) = os at *
  have hlen : os.length = n + 1 := by
    rw [← hos]
    generalize a + b.stop = q
    generalize n + 1 = k
    induction k generalizing q with
    | zero => rfl
    | succ k ih => simp [Memory.offsets, ih]
  obtain ⟨o, os, rfl⟩ := List.exists_cons_of_length_eq_add_one hlen
  obtain ⟨_, h2, h3⟩ := cutEntries_of_checkSteps (codes := m.bits (a + b.payload) b.count)
    (syms := m.words (a + p) n) hs (by simpa using hlen) (by simpa using hlast)
  refine ⟨?_, ?_, hp.2, h3⟩
  · rw [← List.length_map (f := Entry.sym), h2, Memory.words_length]
    omega
  · rw [← h2, List.pairwise_map] at ho
    exact ho

@[simp] theorem tableBytes_length (t : Table) :
    (tableBytes t).length =
      (1 + sel t.length) + 4 * t.length + (1 + sel (allCodes t).length + bytesOfBits (allCodes t).length) +
        sel (allCodes t).length * (t.length + 1) := by
  simp only [tableBytes, tableSymbolBytes, offsetBytes_length, List.length_append, putCount_length, symbolBytes_length,
    List.length_map, bitSeqOf_length]

/-- A valid table of a legal block has few symbols and few code bits (00_scope.md R5). -/
theorem TableValid.sizes {c : Params} {t : Table} (h : TableValid c t) (hc : c.Legal) :
    t.length < 2 ^ 32 ∧ (allCodes t).length < 2 ^ 32 := by
  have h1 : (allCodes t).length ≤ t.length * c.maxCodeLen := by
    rw [allCodes_length]
    have := List.sum_le_card_nsmul (t.map Entry.len) c.maxCodeLen (by
      intro x hx
      obtain ⟨e, he, rfl⟩ := List.mem_map.1 hx
      exact (h.lengths e he).2)
    simpa using this
  have h2 := Nat.mul_le_mul_right c.maxCodeLen h.count
  have h3 := Nat.le_mul_of_pos_right t.length hc.2.2.2.1
  have h4 := hc.2.2.2.2.2
  omega

/-- ParseTable of TableBytes gives the table back (R158 (c)). -/
theorem Memory.parseTable_of_tableBytes {c : Params} {m : Memory} {a lim off : Nat} {t : Table} (hc : c.Legal)
    (ht : TableValid c t) (h : m.Holds (a + off) (tableBytes t)) (hl : off + (tableBytes t).length ≤ lim) :
    m.parseTable c a lim off = .ok (t, off + (tableBytes t).length) := by
  obtain ⟨hn, hb⟩ := ht.sizes hc
  rw [tableBytes_length] at hl ⊢
  simp only [tableBytes, Memory.holds_append, List.length_append, putCount_length, tableSymbolBytes,
    symbolBytes_length, List.length_map, bitSeqOf_length] at h
  obtain ⟨⟨⟨h1, h2⟩, h3⟩, h4⟩ := h
  have hsyms := Memory.words_of_holds h2
  rw [List.length_map] at hsyms
  unfold Memory.parseTable
  rw [Memory.readCount_of_putCount hn h1 (by omega)]
  simp only [try_ok_bind]
  rw [raiseIf_of_not (by have := ht.count; omega), try_ok_bind, raiseIf_of_not (by omega), try_ok_bind,
    show a + (off + 1 + sel t.length) = a + off + (1 + sel t.length) by omega, hsyms,
    checkOrder_eq_ok (u := ()) |>.2 (List.pairwise_map.2 ht.ascending), try_ok_bind,
    Memory.parseBitSeq_of_bitSeqOf hb (by convert h3 using 1; omega) (by rw [bitSeqOf_length]; omega)]
  simp only [try_ok_bind, bitSeqOf_length]
  have hbits := Memory.bits_of_holdsBits (Memory.holdsBits_of_bitSeqOf h3)
  have hoffs := Memory.offsets_of_holds h4 (by simpa using lt_of_sel hb)
  obtain ⟨l, hz⟩ := offsetList_cons 0 t
  rw [show a + (off + 1 + sel t.length + 4 * t.length + 1 + sel (allCodes t).length) =
    a + off + (1 + sel t.length + 4 * t.length) + (1 + sel (allCodes t).length) by omega, hbits,
    raiseIf_of_not (by omega), try_ok_bind,
    show a + (off + 1 + sel t.length + 4 * t.length + (1 + sel (allCodes t).length + bytesOfBits (allCodes t).length)) =
      a + off + (1 + sel t.length + 4 * t.length + (1 + sel (allCodes t).length + bytesOfBits (allCodes t).length))
      by omega, hoffs]
  have hcut := cutEntries_offsetList [] t
  simp only [List.nil_append, List.length_nil] at hcut
  rw [raiseIf_of_not (by simp [hz]), try_ok_bind, checkSteps_offsetList ht.lengths, try_ok_bind,
    raiseIf_of_not (by rw [offsetList_getLastD]; simp), try_ok_bind, hcut,
    checkPrefixFree_eq_ok (u := ()) |>.2 ⟨by simp, ht.prefixFree⟩, try_ok_bind, try_pure]
  congr 2
  omega

end Sys2Proof.Machine
end

