-- ==== Sys2Proof/Laws/Parse.lean ====
section
/-! SUPPORT. The parsers of 42_serial.md R151, R153 and R157: what each answers on given bytes, and where each check of
ParseTable first fails, by index. -/

namespace Sys2Proof.Machine

/-- Either a property holds below n or there is a first index below n where it fails. -/
theorem all_or_first (P : Nat → Prop) (n : Nat) : (∀ k < n, P k) ∨ ∃ k < n, ¬ P k ∧ ∀ j < k, P j := by
  induction n with
  | zero => exact .inl fun k hk => absurd hk (Nat.not_lt_zero k)
  | succ n ih =>
    rcases ih with h | ⟨k, hk, h⟩
    · by_cases hn : P n
      · exact .inl fun k hk => (Nat.lt_succ_iff_lt_or_eq.1 hk).elim (h k) fun e => e ▸ hn
      · exact .inr ⟨n, Nat.lt_succ_self n, hn, h⟩
    · exact .inr ⟨k, Nat.lt_succ_of_lt hk, h⟩

namespace Memory

/-! ## Counts and bit sequences -/

theorem readCount_of_selector {m : Memory} {a lim off w : Nat} (hw : (m.byte (a + off)).toNat = w)
    (h : w = 1 ∨ w = 2 ∨ w = 4) (hl : off + 1 + w ≤ lim) :
    m.readCount a lim off = .ok (m.read (a + off + 1) w, off + 1 + w, w) := by
  rw [readCount, raiseIf_of_not (by omega), try_ok_bind]
  simp only [read_one, hw]
  rw [raiseIf_of_not (by omega), try_ok_bind, raiseIf_of_not (by omega)]
  rfl

theorem readCount_of_end {m : Memory} {a lim off : Nat} (h : lim ≤ off) :
    m.readCount a lim off = .error ⟨.truncated, off⟩ := by
  rw [readCount, raiseIf_of (by omega)]
  rfl

theorem readCount_of_badSelector {m : Memory} {a lim off w : Nat} (hl : off < lim) (hw : (m.byte (a + off)).toNat = w)
    (h : ¬ (w = 1 ∨ w = 2 ∨ w = 4)) : m.readCount a lim off = .error ⟨.badSelector, off⟩ := by
  rw [readCount, raiseIf_of_not (by omega), try_ok_bind]
  simp only [read_one, hw]
  rw [raiseIf_of (by omega)]
  rfl

theorem readCount_of_cut {m : Memory} {a lim off w : Nat} (hl : off < lim) (hw : (m.byte (a + off)).toNat = w)
    (h : w = 1 ∨ w = 2 ∨ w = 4) (hc : lim < off + 1 + w) : m.readCount a lim off = .error ⟨.truncated, off + 1⟩ := by
  rw [readCount, raiseIf_of_not (by omega), try_ok_bind]
  simp only [read_one, hw]
  rw [raiseIf_of_not (by omega), try_ok_bind, raiseIf_of (by omega)]
  rfl

theorem parseBitSeq_of_readCount {m : Memory} {a lim off T p w : Nat} (h : m.readCount a lim off = .ok (T, p, w)) :
    m.parseBitSeq a lim off =
      if lim < p + bytesOfBits T then .error ⟨.truncated, p⟩
      else .ok { count := T, payload := p, stop := p + bytesOfBits T, width := w } := by
  rw [parseBitSeq, h, try_ok_bind]
  simp only
  split
  · rw [raiseIf_of (by omega)]
    rfl
  · rw [raiseIf_of_not (by omega)]
    rfl

theorem parseBitSeq_of_error {m : Memory} {a lim off : Nat} {x : Raise} (h : m.readCount a lim off = .error x) :
    m.parseBitSeq a lim off = .error x := by
  rw [parseBitSeq, h]
  rfl

/-! ## Offsets and entries -/

@[simp] theorem offsets_length (m : Memory) (a w n : Nat) : (m.offsets a w n).length = n := by
  induction n generalizing a with
  | zero => rfl
  | succ n ih => simp [offsets, ih]

theorem offsets_getElem (m : Memory) (a w n j : Nat) (h : j < (m.offsets a w n).length) :
    (m.offsets a w n)[j] = m.read (a + w * j) w := by
  induction n generalizing a j with
  | zero => simp at h
  | succ n ih =>
    cases j with
    | zero => simp [offsets]
    | succ j =>
      simp only [offsets, List.getElem_cons_succ]
      rw [ih]
      congr 1
      ring

end Memory

@[simp] theorem cutEntries_length (codes : Bits) (syms : List Word) (os : List Nat) :
    (cutEntries codes syms os).length = min syms.length (os.length - 1) := by
  induction syms generalizing os with
  | nil => simp [cutEntries]
  | cons x xs ih =>
    match os with
    | [] => simp [cutEntries]
    | [o] => simp [cutEntries]
    | o :: o' :: os =>
      simp only [cutEntries, List.length_cons, ih]
      omega

theorem cutEntries_getElem (codes : Bits) (syms : List Word) (os : List Nat) (i : Nat) (h : i < syms.length)
    (ho : i + 1 < os.length) (hc : i < (cutEntries codes syms os).length) :
    (cutEntries codes syms os)[i] = { sym := syms[i], code := (codes.drop os[i]).take (os[i + 1] - os[i]) } := by
  induction syms generalizing os i with
  | nil => simp at h
  | cons x xs ih =>
    match os, ho, hc with
    | o :: o' :: os, ho, hc =>
      cases i with
      | zero => rfl
      | succ i =>
        simp only [cutEntries, List.getElem_cons_succ]
        rw [ih (o' :: os) i (by simpa using h) (by simpa using ho)]
        rfl

/-! ## The first failing check of ParseTable -/

theorem checkOrder_of_ascending {p i : Nat} {l : List Word}
    (h : ∀ k (hk : k + 1 < l.length), l[k].toNat < l[k + 1].toNat) : checkOrder p i l = .ok () := by
  induction l generalizing i with
  | nil => rfl
  | cons x l ih =>
    cases l with
    | nil => rfl
    | cons y l =>
      rw [checkOrder, raiseIf_of_not (by have := h 0 (by simp); simp at this; omega), try_ok_bind]
      exact ih fun k hk => h (k + 1) (by simpa using hk)

theorem checkOrder_of_first {p i k : Nat} {l : List Word} (hk : k + 1 < l.length)
    (hb : ∀ j (hj : j < k), l[j].toNat < l[j + 1].toNat) (h : l[k + 1].toNat ≤ l[k].toNat) :
    checkOrder p i l = .error ⟨.tableOrder, p + 4 * (i + k)⟩ := by
  induction k generalizing i l with
  | zero =>
    match l, hk with
    | x :: y :: l, _ =>
      rw [checkOrder, raiseIf_of (by simpa using h)]
      rfl
  | succ k ih =>
    match l, hk with
    | x :: y :: l, hk =>
      rw [checkOrder, raiseIf_of_not (by have := hb 0 (by omega); simp at this; omega), try_ok_bind]
      rw [ih (by simpa using hk) (fun j hj => by simpa using hb (j + 1) (by omega)) (by simpa using h)]
      simp only [Except.error.injEq, Raise.mk.injEq, true_and]
      ring

theorem checkSteps_of_good {c : Params} {r w i : Nat} {l : List Nat}
    (h : ∀ k (hk : k + 1 < l.length), l[k] < l[k + 1] ∧ l[k + 1] ≤ l[k] + c.maxCodeLen) :
    checkSteps c r w i l = .ok () := by
  induction l generalizing i with
  | nil => rfl
  | cons x l ih =>
    cases l with
    | nil => rfl
    | cons y l =>
      have h0 := h 0 (by simp)
      simp only [List.getElem_cons_zero, List.getElem_cons_succ] at h0
      rw [checkSteps, raiseIf_of_not (by omega), try_ok_bind, raiseIf_of_not (by omega), try_ok_bind]
      exact ih fun k hk => h (k + 1) (by simpa using hk)

theorem checkSteps_of_first {c : Params} {r w i k : Nat} {l : List Nat} (hk : k + 1 < l.length)
    (hb : ∀ j (hj : j < k), l[j] < l[j + 1] ∧ l[j + 1] ≤ l[j] + c.maxCodeLen) :
    (l[k + 1] ≤ l[k] → checkSteps c r w i l = .error ⟨.badOffsets, r + w * (i + k)⟩) ∧
      (l[k] + c.maxCodeLen < l[k + 1] → checkSteps c r w i l = .error ⟨.codeTooLong, l[k + 1] - l[k]⟩) := by
  induction k generalizing i l with
  | zero =>
    match l, hk with
    | x :: y :: l, _ =>
      simp only [List.getElem_cons_zero, List.getElem_cons_succ, zero_add, add_zero]
      refine ⟨fun h => ?_, fun h => ?_⟩
      · rw [checkSteps, raiseIf_of h]
        rfl
      · rw [checkSteps, raiseIf_of_not (by omega), try_ok_bind, raiseIf_of (by omega)]
        rfl
  | succ k ih =>
    match l, hk with
    | x :: y :: l, hk =>
      have h0 := hb 0 (by omega)
      simp only [List.getElem_cons_zero, List.getElem_cons_succ, zero_add] at h0
      have := ih (i := i + 1) (l := y :: l) (by simpa using hk) fun j hj => by simpa using hb (j + 1) (by omega)
      rw [checkSteps, raiseIf_of_not (by omega), try_ok_bind, raiseIf_of_not (by omega), try_ok_bind]
      rw [show i + (k + 1) = i + 1 + k by omega]
      simpa using this

theorem prefixRelated_eq_true {u w : Bits} : prefixRelated u w = true ↔ u <+: w ∨ w <+: u := by
  simp [prefixRelated]

theorem checkPrefixFree_of_first {i k : Nat} {before t : Table} (hk : k < t.length)
    (hb : ∀ j (hj : j < k), ∀ d ∈ before ++ t.take j, prefixRelated d.code t[j].code = false)
    (h : ∃ d ∈ before ++ t.take k, prefixRelated d.code t[k].code = true) :
    checkPrefixFree i before t = .error ⟨.notPrefixFree, i + k⟩ := by
  induction k generalizing i before t with
  | zero =>
    match t, hk with
    | e :: t, _ =>
      rw [checkPrefixFree, raiseIf_of (by simpa using h)]
      rfl
  | succ k ih =>
    match t, hk with
    | e :: t, hk =>
      have h0 := hb 0 (by omega)
      rw [checkPrefixFree, raiseIf_of_not (by simpa using h0), try_ok_bind,
        ih (by simpa using hk) (fun j hj => by simpa using hb (j + 1) (by omega)) (by simpa using h)]
      simp only [Except.error.injEq, Raise.mk.injEq, true_and]
      ring

end Sys2Proof.Machine
end

