-- ==== Sys2Proof/Laws/PerInstr.lean ====
section
/-! SUPPORT. Per-instruction facts about the command words: RSVD is 0 and OPC is an assigned opcode (30_encoding.md R80 to
R82). -/

namespace Sys2Proof.Laws.ReservedZero

/-- A command is well formed, its word has RSVD = 0, and its OPC is at most 0x0A (R80, R82). -/
def Statement (i : Instr) : Prop := i.wf = true ∧ rsvdField (encode i) = 0 ∧ opcField (encode i) ≤ 0x0A

theorem nop : Statement .nop := ⟨rfl, rfl, by decide⟩

theorem mad : Statement .mad := ⟨rfl, rfl, by decide⟩

theorem hufBuild : Statement .hufBuild := ⟨rfl, rfl, by decide⟩

theorem hufEncode : Statement .hufEncode := ⟨rfl, rfl, by decide⟩

theorem hufDecode : Statement .hufDecode := ⟨rfl, rfl, by decide⟩

theorem bitseqPack : Statement .bitseqPack := ⟨rfl, rfl, by decide⟩

theorem bitseqUnpack : Statement .bitseqUnpack := ⟨rfl, rfl, by decide⟩

theorem tblPack : Statement .tblPack := ⟨rfl, rfl, by decide⟩

theorem tblUnpack : Statement .tblUnpack := ⟨rfl, rfl, by decide⟩

theorem framePack : Statement .framePack := ⟨rfl, rfl, by decide⟩

theorem frameUnpack : Statement .frameUnpack := ⟨rfl, rfl, by decide⟩

end Sys2Proof.Laws.ReservedZero
end

