-- ==== Sys2Proof/Laws/Plans.lean ====
section
/-! SUPPORT. What the plan of any command can be: one inversion lemma over the eleven commands, from which the frame of
every command, the bounds of every write and the invariant follow. -/

namespace Sys2Proof.Machine

/-- The outcome of a command that succeeds: it stores bytes in its destination range, inside the memory, and keeps the table;
or it has no destination range, stores nothing and keeps it; or (HUF_BUILD, TBL_UNPACK, FRAME_UNPACK) it has none, stores
nothing and loads a table. -/
theorem commandPlan_ok {i : Instr} {s : State} {e : Effect} (h : (commandPlan i s).outcome = .ok e) :
    ((commandPlan i s).loadsTable = false ∧
        ∃ d y r, e = storing d y r ∧ (commandPlan i s).dest = ⟨d, y.length⟩ ∧
          (y.length = 0 ∨ d + y.length ≤ s.cfg.memBytes)) ∨
      ((commandPlan i s).loadsTable = false ∧ (commandPlan i s).dest = noRange ∧ ∃ r, e = storingNothing r none) ∨
      ((commandPlan i s).loadsTable = true ∧ (commandPlan i s).dest = noRange ∧ ∃ r t, e = storingNothing r (some t)) := by
  cases i
  case nop =>
    cases h
    exact .inr (.inl ⟨rfl, rfl, _, rfl⟩)
  case mad =>
    simp only [commandPlan, madPlan, try_bind_eq_ok, try_pure] at h
    obtain ⟨_, _, _, _, _, _, h⟩ := h
    cases h
    exact .inr (.inl ⟨rfl, rfl, _, rfl⟩)
  case hufBuild =>
    simp only [commandPlan, hufBuildPlan, try_bind_eq_ok, try_pure] at h
    obtain ⟨_, _, t, _, h⟩ := h
    cases h
    exact .inr (.inr ⟨rfl, rfl, _, _, rfl⟩)
  case hufEncode =>
    simp only [commandPlan, hufEncodePlan, try_bind_eq_ok, try_pure] at h
    obtain ⟨bs, hb, _, _, _, hc, h⟩ := h
    cases h
    exact .inl ⟨rfl, _, _, _, rfl, by simp [commandPlan, hufEncodePlan, hb, Except.map], by
      simpa using checkRange_eq_ok.1 hc⟩
  case hufDecode =>
    simp only [commandPlan, hufDecodePlan, try_bind_eq_ok, try_pure] at h
    obtain ⟨out, ho, _, _, _, hc, h⟩ := h
    cases h
    exact .inl ⟨rfl, _, _, _, rfl, by simp [commandPlan, hufDecodePlan, ho, Except.map], by
      simpa using checkRange_eq_ok.1 hc⟩
  case bitseqPack =>
    simp only [commandPlan, bitseqPackPlan, try_bind_eq_ok, try_pure] at h
    obtain ⟨_, _, _, hc, h⟩ := h
    cases h
    exact .inl ⟨rfl, _, _, _, rfl, by simp [commandPlan, bitseqPackPlan, Memory.bitSeqBytes], checkRange_eq_ok.1 hc⟩
  case bitseqUnpack =>
    simp only [commandPlan, bitseqUnpackPlan, try_bind_eq_ok, try_pure] at h
    obtain ⟨_, _, _, _, h⟩ := h
    cases h
    exact .inr (.inl ⟨rfl, rfl, _, rfl⟩)
  case tblPack =>
    simp only [commandPlan, tblPackPlan, try_bind_eq_ok, try_pure] at h
    obtain ⟨_, ht, _, hc, h⟩ := h
    cases h
    exact .inl ⟨rfl, _, _, _, rfl, by simp [commandPlan, tblPackPlan, ht, Except.map], checkRange_eq_ok.1 hc⟩
  case tblUnpack =>
    simp only [commandPlan, tblUnpackPlan, try_bind_eq_ok, try_pure] at h
    obtain ⟨_, _, _, _, h⟩ := h
    cases h
    exact .inr (.inr ⟨rfl, rfl, _, _, rfl⟩)
  case framePack =>
    simp only [commandPlan, framePackPlan, try_bind_eq_ok, try_pure] at h
    obtain ⟨t, ht, _, _, _, _, _, _, _, hc, h⟩ := h
    cases h
    have := checkRange_eq_ok.1 hc
    refine .inl ⟨rfl, _, _, _, rfl, ?_, ?_⟩
    · simp only [commandPlan, framePackPlan, ht, Except.map, destRange_ok, frameBytes, List.length_append,
        leBytes_length, Memory.bytes_length, Memory.bitSeqBytes, bitSeqOf_length, Memory.bits_length, Range.mk.injEq,
        true_and]
      omega
    · simp only [frameBytes, List.length_append, leBytes_length, Memory.bytes_length] at this ⊢
      omega
  case frameUnpack =>
    simp only [commandPlan, frameUnpackPlan, try_bind_eq_ok, try_pure] at h
    obtain ⟨_, _, _, _, _, _, _, _, _, _, _, _, _, _, _, _, _, _, h⟩ := h
    cases h
    exact .inr (.inr ⟨rfl, rfl, _, _, rfl⟩)

theorem loadsTable_eq (i : Instr) (s : State) :
    (commandPlan i s).loadsTable = true ↔ i = .hufBuild ∨ i = .tblUnpack ∨ i = .frameUnpack := by
  cases i <;> simp [commandPlan, nopPlan, madPlan, hufBuildPlan, hufEncodePlan, hufDecodePlan, bitseqPackPlan,
    bitseqUnpackPlan, tblPackPlan, tblUnpackPlan, framePackPlan, frameUnpackPlan]

/-- A successful command's destination range lies in memory, and it writes only there. -/
theorem commandPlan_dest {i : Instr} {s : State} {e : Effect} (h : (commandPlan i s).outcome = .ok e) :
    (∀ a, (commandPlan i s).dest.Has a → a < s.cfg.memBytes) ∧ ∀ c ∈ e.writes, (commandPlan i s).dest.Has c.1 := by
  rcases commandPlan_ok h with ⟨_, d, y, r, rfl, hd, hb⟩ | ⟨_, hd, r, rfl⟩ | ⟨_, hd, r, t, rfl⟩
  · rw [hd]
    refine ⟨fun a ha => ?_, fun c hc => mem_emitAt hc⟩
    simp only [Range.Has] at ha
    omega
  all_goals
    rw [hd]
    refine ⟨fun a ha => ?_, fun c hc => by simp at hc⟩
    simp only [noRange, Range.Has] at ha
    omega

/-- The destination range of a command that stores the bytes `y` at `d`. -/
theorem commandPlan_dest_storing {i : Instr} {s : State} {d : Nat} {y : List Byte} {r : Results}
    (h : (commandPlan i s).outcome = .ok (storing d y r)) (q : Range) :
    (commandPlan i s).dest.overlaps q = Range.overlaps ⟨d, y.length⟩ q := by
  have hw : ∀ (d d' : Nat) (y y' : List Byte), emitAt d y = emitAt d' y' → y = y' ∧ (y ≠ [] → d = d') := by
    intro d d' y y' h
    induction y generalizing d d' y' with
    | nil => cases y' <;> simp [emitAt] at h ⊢
    | cons b y ih =>
      cases y' with
      | nil => simp [emitAt] at h
      | cons b' y' =>
        simp only [emitAt, List.cons.injEq, Prod.mk.injEq] at h
        obtain ⟨⟨rfl, rfl⟩, h⟩ := h
        exact ⟨by rw [(ih _ _ _ h).1], fun _ => rfl⟩
  rcases commandPlan_ok h with ⟨_, d', y', r', he, hd, _⟩ | ⟨_, hd, r', he⟩ | ⟨_, hd, r', t, he⟩
  · obtain ⟨rfl, hy⟩ := hw _ _ _ _ (congrArg Effect.writes he)
    rw [hd]
    cases y with
    | nil => simp [empty_overlaps]
    | cons b y => rw [hy (by simp)]
  all_goals
    have h0 : y = [] := by
      have := congrArg Effect.writes he
      cases y <;> simp [emitAt] at this ⊢
    simp [hd, h0, noRange, empty_overlaps]

/-- A command that stores nothing has no destination range, or an empty one. -/
theorem commandPlan_dest_storingNothing {i : Instr} {s : State} {r : Results} {t : Option Table}
    (h : (commandPlan i s).outcome = .ok (storingNothing r t)) (q : Range) :
    (commandPlan i s).dest.overlaps q = false := by
  rcases commandPlan_ok h with ⟨_, d', y', r', he, hd, _⟩ | ⟨_, hd, r', he⟩ | ⟨_, hd, r', t, he⟩
  · have h0 : y' = [] := by
      have := congrArg Effect.writes he
      cases y' <;> simp [emitAt] at this ⊢
    simp [hd, h0, empty_overlaps]
  all_goals simp [hd, noRange, empty_overlaps]

/-- Only the three loading commands can change the table (60_exceptions.md R214). -/
theorem complete_table {i : Instr} {s : State} (hl : (commandPlan i s).loadsTable = false) :
    (s.complete (commandPlan i s)).table = s.table := by
  cases ho : (commandPlan i s).outcome with
  | ok e =>
    rw [State.complete_ok ho, State.completeOk_table]
    rcases commandPlan_ok ho with ⟨_, d, y, r, rfl, _⟩ | ⟨_, _, r, rfl⟩ | ⟨h, _⟩
    · rfl
    · rfl
    · rw [hl] at h
      cases h
  | error r =>
    rw [State.complete_error ho, State.raiseError_table, hl]
    rfl

theorem errCode_ne_zero (k : ErrKind) : k.code ≠ 0 := by cases k <;> decide

theorem errClass_ne_zero (k : ErrKind) : k.cls ≠ 0 := by cases k <;> decide

/-! ## What a command answers, by its plan -/

/-- An undisturbed command whose plan is an error (60_exceptions.md R214). -/
theorem exec_of_error {i : Instr} {s : State} {k : ErrKind} {n : Nat} (hd : s.disturbed = false)
    (h : (commandPlan i s).outcome = .error ⟨k, n⟩) :
    exec i s = .next
      { s with
        table := if (commandPlan i s).loadsTable then none else s.table
        res := {}
        errCode := k.code
        errClass := k.cls
        errInfo := BitVec.ofNat 32 n
        err := true
        phase := .idle
        done := true } := by
  rw [exec_eq_complete, State.complete_error h, State.raiseError_of_clean _ _ _ hd, lo32_eq_ofNat]

/-- An undisturbed command that writes no memory (R213). -/
theorem exec_of_storingNothing {i : Instr} {s : State} {r : Results} {t : Option Table} (hd : s.disturbed = false)
    (h : (commandPlan i s).outcome = .ok (storingNothing r t)) :
    exec i s = .next { s with table := t.or s.table, res := r, phase := .idle, done := true } := by
  rw [exec_eq_complete, State.complete_ok h, State.completeOk_of_clean hd
    (by simp [List.any_eq_false, commandPlan_dest_storingNothing h])]
  rfl

/-- An undisturbed command that stores bytes apart from what it reads (R213, 20_memory.md R66). -/
theorem exec_of_storing {i : Instr} {s : State} {d : Nat} {y : List Byte} {r : Results} (hd : s.disturbed = false)
    (h : (commandPlan i s).outcome = .ok (storing d y r))
    (ho : ∀ q ∈ (commandPlan i s).sources, Range.overlaps ⟨d, y.length⟩ q = false) :
    exec i s = .next { s with mem := s.mem.setCells (emitAt d y), res := r, phase := .idle, done := true } := by
  rw [exec_eq_complete, complete_storing h hd fun q hq => (commandPlan_dest_storing h q).trans (ho q hq)]

/-! ## MAD's row checks (40_metric.md R103) -/

theorem checkRows_of_le {c : Params} {base stride len r0 n : Nat}
    (h : ∀ j < n, base + (r0 + j) * stride + len ≤ c.memBytes) : checkRows c base stride len r0 n = .ok () := by
  induction n generalizing r0 with
  | zero => rfl
  | succ n ih =>
    rw [checkRows, checkRange_of_le (.inr (by simpa using h 0 (by omega))), try_ok_bind]
    refine ih fun j hj => ?_
    have := h (j + 1) (by omega)
    rwa [show r0 + 1 + j = r0 + (j + 1) by omega]

/-- The smallest failing row is the one reported. -/
theorem checkRows_of_gt {c : Params} {base stride len r0 n r : Nat} (hr : r < n) (hl : 0 < len)
    (h : ∀ j < r, base + (r0 + j) * stride + len ≤ c.memBytes) (hb : c.memBytes < base + (r0 + r) * stride + len) :
    checkRows c base stride len r0 n = .error ⟨.addrRange, (lo32 (base + (r0 + r) * stride)).toNat⟩ := by
  induction n generalizing r0 r with
  | zero => omega
  | succ n ih =>
    cases r with
    | zero =>
      rw [checkRows, checkRange_of_gt hl (by simpa using hb)]
      rfl
    | succ r =>
      rw [checkRows, checkRange_of_le (.inr (by simpa using h 0 (by omega))), try_ok_bind]
      rw [show r0 + (r + 1) = r0 + 1 + r by omega] at hb ⊢
      refine ih (by omega) (fun j hj => ?_) hb
      have := h (j + 1) (by omega)
      rwa [show r0 + 1 + j = r0 + (j + 1) by omega]

end Sys2Proof.Machine
end

