-- ==== Sys2Proof/Tests/Slice0.lean ====
section
/-! SUPPORT. Tests: ill-formed statements are refused, words written out from the encoding decode, the worked examples of
spec/ come out, and for every statement with hypotheses a state that meets them all. -/

namespace Sys2Proof.Tests

-- One theorem after another: many waiting at once for the kernel would each take a thread.
set_option Elab.async false

open Sys2Proof.Machine Sys2Proof.Claims

/-! ## Helpers -/

/-- The bytes `l` at `a`. -/
def put (a : Nat) (l : List Nat) (s : State) : State :=
  { s with mem := s.mem.setCells (emitAt a (l.map (BitVec.ofNat 8))) }

/-- ARG0..ARG4. -/
def args (a0 a1 a2 a3 a4 : Word) (s : State) : State :=
  { s with args := { a0 := a0, a1 := a1, a2 := a2, a3 := a3, a4 := a4 } }

/-- BLK_P, BLK_Q, IMG_W, IMG_H. -/
def geom (p q w h : Word) (s : State) : State := { s with blkP := p, blkQ := q, imgW := w, imgH := h }

/-- A current table. -/
def load (t : Table) (s : State) : State := { s with table := some t }

/-- Turns to come. -/
def turns (l : List Turn) (s : State) : State := { s with inputs := l }

/-- The host's register write. -/
def wr (off : Nat) (w : Word) : Turn := .bus { addr := 0 + off, width := 4, op := .write (.imm w) }

/-- The host's register read. -/
def rd (off : Nat) : Turn := .bus { addr := 0 + off, width := 4, op := .read }

/-- What is seen of the state after a step, if there is one. -/
def after {α : Type} (o : Host.Outcome State Fault Refusal) (f : State → α) : Option α :=
  match o with
  | .next s => some (f s)
  | .fault _ => none
  | .refused _ => none

/-- STATUS and ERRINFO, as numbers. -/
def status (s : State) : Nat × Nat := (s.status.toNat, s.errInfo.toNat)

/-- RES0..RES7, as numbers. -/
def results (s : State) : List Nat :=
  [s.res.r0.toNat, s.res.r1.toNat, s.res.r2.toNat, s.res.r3.toNat, s.res.r4.toNat, s.res.r5.toNat, s.res.r6.toNat,
    s.res.r7.toNat]

/-- n bytes at a, as numbers. -/
def bytes (a n : Nat) (s : State) : List Nat := (s.mem.bytes a n).map BitVec.toNat

/-- The table of R120's worked example, of the sequence 0, 1, 0, 2. -/
def table3 : Table := [⟨0, [false]⟩, ⟨1, [true, false]⟩, ⟨2, [true, true]⟩]

/-- The one-symbol table of R120. -/
def table1 : Table := [⟨5, [false]⟩]

/-- A table with a Kraft sum of 1/4. -/
def tableGap : Table := [⟨7, [true, false]⟩]

/-- The sequence 0, 1, 0, 2 in memory. -/
def seq4 : List Nat := [0, 0, 0, 0, 1, 0, 0, 0, 0, 0, 0, 0, 2, 0, 0, 0]

/-- R166's worked example. -/
def table3Bytes : List Nat := [1, 3, 0, 0, 0, 0, 1, 0, 0, 0, 2, 0, 0, 0, 1, 5, 0x58, 0, 1, 3, 5]

/-- The frame of program P1 without its palette (95_test_vectors.md). -/
def frame0 : List Nat := [0x18, 0, 0, 0] ++ table3Bytes ++ [1, 6, 0x4C] ++ [2, 0, 0, 0, 2, 0, 0, 0, 4, 0, 0, 0, 4, 0, 0, 0]

/-! ## Well-formedness: each check refuses -/

theorem test_wf_set_value : (Stmt.set .arg0 (2 ^ 32)).wf Params.testVectors = false := by decide
theorem test_wf_mem8_value : (Stmt.mem8 0 256).wf Params.testVectors = false := by decide
theorem test_wf_mem8_range : (Stmt.mem8 4096 0).wf Params.testVectors = false := by decide
theorem test_wf_mem16_value : (Stmt.mem16 0 65536).wf Params.testVectors = false := by decide
theorem test_wf_mem16_aligned : (Stmt.mem16 1 0).wf Params.testVectors = false := by decide
theorem test_wf_mem16_range : (Stmt.mem16 4096 0).wf Params.testVectors = false := by decide
theorem test_wf_mem32_value : (Stmt.mem32 0 (2 ^ 32)).wf Params.testVectors = false := by decide
theorem test_wf_mem32_aligned : (Stmt.mem32 2 0).wf Params.testVectors = false := by decide
theorem test_wf_mem32_range : (Stmt.mem32 4096 0).wf Params.testVectors = false := by decide
theorem test_wf_operand_count : (Stmt.command .mad [.imm 0]).wf Params.testVectors = false := by decide
theorem test_wf_operand_value : (Stmt.command .tblPack [.imm (2 ^ 32)]).wf Params.testVectors = false := by decide
theorem test_wf_good : (Stmt.command .tblPack [.imm (2 ^ 32 - 1)]).wf Params.testVectors = true := by decide

/-! ## Decoding: bits 31..8 RSVD, bits 7..0 OPC (R80, R82), written out -/

theorem test_decode_nop : decode 0b00000000000000000000000000000000#32 = .ok .nop := rfl
theorem test_decode_mad : decode 0b00000000000000000000000000000001#32 = .ok .mad := rfl
theorem test_decode_hufBuild : decode 0b00000000000000000000000000000010#32 = .ok .hufBuild := rfl
theorem test_decode_hufEncode : decode 0b00000000000000000000000000000011#32 = .ok .hufEncode := rfl
theorem test_decode_hufDecode : decode 0b00000000000000000000000000000100#32 = .ok .hufDecode := rfl
theorem test_decode_bitseqPack : decode 0b00000000000000000000000000000101#32 = .ok .bitseqPack := rfl
theorem test_decode_bitseqUnpack : decode 0b00000000000000000000000000000110#32 = .ok .bitseqUnpack := rfl
theorem test_decode_tblPack : decode 0b00000000000000000000000000000111#32 = .ok .tblPack := rfl
theorem test_decode_tblUnpack : decode 0b00000000000000000000000000001000#32 = .ok .tblUnpack := rfl
theorem test_decode_framePack : decode 0b00000000000000000000000000001001#32 = .ok .framePack := rfl
theorem test_decode_frameUnpack : decode 0b00000000000000000000000000001010#32 = .ok .frameUnpack := rfl
theorem test_decode_unassigned : decode 0b00000000000000000000000000001011#32 = .error .unassignedOpcode := rfl
theorem test_decode_reserved : decode 0b00000000000000000000000100000000#32 = .error .reservedBits := rfl

/-! ## Commands, one step each -/

/-- R200's worked example. -/
theorem test_nop : after (exec .nop { State.reset with irqEn := true }) (fun s => (status s, s.irq)) =
    some ((0x00000002, 0), true) := by decide +kernel

/-- R103's worked example. -/
theorem test_mad :
    after (exec .mad { (State.reset |> put 0x100 [10, 20, 30] |> put 0x200 [13, 20, 25] |> args 0x100 3 0x200 3 0 |>
      geom 1 1 0 0) with alpha := 0x00030000 }) results = some [8, 0, 3, 0x0002AAAA, 1, 0, 0, 0] := by decide +kernel

/-- 95_test_vectors.md M11: the first row of A passes MEM_BYTES. -/
theorem test_mad_range : after (exec .mad (State.reset |> args 0xFFE 3 0 3 0 |> geom 1 1 0 0)) status =
    some (0x00030206, 0xFFE) := by decide +kernel

/-- R120's worked example: two codes of length 2, the tie broken by the smaller symbol. -/
theorem test_hufBuild : after (exec .hufBuild (State.reset |> put 0 seq4 |> args 0 4 0 0 0))
    (fun s => (results s, s.table)) = some ([3, 5, 2, 6, 0, 0, 0, 0], some table3) := by decide +kernel

/-- R120: one distinct symbol has the code "0". -/
theorem test_hufBuild_one : after (exec .hufBuild (State.reset |> put 0 [5, 0, 0, 0, 5, 0, 0, 0] |> args 0 2 0 0 0))
    (fun s => (results s, s.table)) = some ([1, 1, 1, 2, 0, 0, 0, 0], some table1) := by decide +kernel

/-- R126's worked example: 0 10 0 11, padded. -/
theorem test_hufEncode : after (exec .hufEncode (State.reset |> load table3 |> put 0 seq4 |> args 0 4 0x100 0 0))
    (fun s => (results s, bytes 0x100 1 s)) = some ([6, 1, 0, 0, 0, 0, 0, 0], [0x4C]) := by decide +kernel

/-- 95_test_vectors.md C6: the second symbol is not in the table. -/
theorem test_hufEncode_unknown :
    after (exec .hufEncode (State.reset |> load table3 |> put 0 [0, 0, 0, 0, 7, 0, 0, 0] |> args 0 2 0x100 0 0)) status =
      some (0x00030616, 1) := by decide +kernel

/-- R130's worked example; the padding bits are not read (95_test_vectors.md D2). -/
theorem test_hufDecode : after (exec .hufDecode (State.reset |> load table3 |> put 0x100 [0x4F] |> args 0x100 6 0x500 4 0))
    (fun s => (results s, bytes 0x500 16 s)) = some ([4, 0, 0, 0, 0, 0, 0, 0], seq4) := by decide +kernel

/-- 95_test_vectors.md D3: the bits end inside the code that began at bit 4. -/
theorem test_hufDecode_truncated :
    after (exec .hufDecode (State.reset |> load table3 |> put 0x100 [0x4C] |> args 0x100 5 0x500 4 0)) status =
      some (0x00020816, 4) := by decide +kernel

/-- 95_test_vectors.md B3: the padding is cleared. -/
theorem test_bitseqPack : after (exec .bitseqPack (State.reset |> put 0x100 [0x4F] |> args 0x100 6 0x500 0 0))
    (bytes 0x500 3) = some [0x01, 0x06, 0x4C] := by decide +kernel

/-- 95_test_vectors.md B8: a selector wider than needed. -/
theorem test_bitseqUnpack :
    after (exec .bitseqUnpack (State.reset |> put 0x700 [0x04, 0x05, 0, 0, 0, 0x1F] |> args 0x700 6 0 0 0)) results =
      some [5, 6, 0x705, 0, 0, 0, 0, 0] := by decide +kernel

/-- 95_test_vectors.md B10: the count runs past L. -/
theorem test_bitseqUnpack_truncated :
    after (exec .bitseqUnpack (State.reset |> put 0x700 [0x02, 0x05] |> args 0x700 2 0 0 0)) status =
      some (0x00020B06, 1) := by decide +kernel

/-- R166's worked example. -/
theorem test_tblPack : after (exec .tblPack (State.reset |> load table3 |> args 0x600 0 0 0 0))
    (fun s => (results s, bytes 0x600 21 s)) = some ([21, 0, 0, 0, 0, 0, 0, 0], table3Bytes) := by decide +kernel

/-- R166: the empty table. -/
theorem test_tblPack_empty : after (exec .tblPack (State.reset |> load [] |> args 0x600 0 0 0 0)) (bytes 0x600 5) =
    some [1, 0, 1, 0, 0] := by decide +kernel

/-- R167's worked example. -/
theorem test_tblUnpack : after (exec .tblUnpack (State.reset |> put 0x700 table3Bytes |> args 0x700 21 0 0 0))
    (fun s => (results s, s.table)) = some ([21, 3, 0, 0, 0, 0, 0, 0], some table3) := by decide +kernel

/-- R167's second worked example: the offsets 00 01 02 05. -/
theorem test_tblUnpack_prefix :
    after (exec .tblUnpack (State.reset |> load table3 |> put 0x700 (table3Bytes.take 17 ++ [0, 1, 2, 5]) |>
      args 0x700 21 0 0 0)) status = some (0x00020F06, 2) := by decide +kernel

/-- The frame of program P1, without a palette (95_test_vectors.md F2). -/
theorem test_framePack :
    after (exec .framePack (State.reset |> load table3 |> put 0x100 [0x4C] |> args 0x400 0x100 6 0x300 0 |> geom 2 2 4 4))
      (fun s => (results s, bytes 0x400 44 s)) = some ([44, 24, 0, 0, 0, 0, 0, 0], frame0) := by decide +kernel

/-- 95_test_vectors.md F3: IMG_W is not a multiple of q. -/
theorem test_framePack_geometry :
    after (exec .framePack (State.reset |> load table3 |> args 0x400 0x100 6 0x300 0 |> geom 2 2 5 4)) status =
      some (0x00011116, 0) := by decide +kernel

/-- R185's worked example, without a palette: K = 0. -/
theorem test_frameUnpack : after (exec .frameUnpack (State.reset |> put 0x400 frame0 |> args 0x400 44 0 0 0))
    (fun s => (results s, s.table)) = some ([0x41B, 6, 0x42C, 0, 2, 2, 4, 4], some table3) := by decide +kernel

/-- 95_test_vectors.md U7f: S is one too large. -/
theorem test_frameUnpack_size :
    after (exec .frameUnpack (State.reset |> put 0x400 (0x19 :: frame0.tail) |> args 0x400 44 0 0 0)) status =
      some (0x00021006, 28) := by decide +kernel

/-! ## The host's side -/

/-- 95_test_vectors.md E6: an illegal word completes with ILLEGAL_CMD. -/
theorem test_illegal : after (step (State.reset.withFetchWord 32 0x0B)) status = some (0x00030106, 0x0B) := by
  decide +kernel

/-- R25: an ARG0 write while busy is dropped. -/
theorem test_drop : after (step (State.reset.startCommand 2 |> turns [wr 0x020 0x20])) (fun s => (status s, s.args.a0)) =
    some ((0x00000009, 0), 0) := by decide +kernel

/-- R62, R65: a 16-bit host write is little-endian. -/
theorem test_host_write : after (step (State.reset |> turns
    [.bus { addr := 0x1000 + 0x10, width := 2, op := .write (.imm 0x1234) }])) (bytes 0x10 2) = some [0x34, 0x12] := by
  decide +kernel

/-- R90, R91: a program text, its comment and its pseudo-command. -/
theorem test_program_text :
    program? Params.testVectors "THRESH 0x10 ; the threshold\nMEM16 2, 7\nUNZIPFRAME 0x400, 80, 0x500, 16" =
      some [.set .alpha 0x10, .mem16 2 7, .command .frameUnpack [.imm 0x400, .imm 80],
        .command .hufDecode [.reg .res0, .reg .res1, .imm 0x500, .imm 16]] := by decide +kernel

/-! ## Witnesses: states and operands that meet the hypotheses of the statements, at the edges of their ranges -/

/-- A busy engine running the word w. -/
def busy (w : Word) : State := State.reset.startCommand w

/-- A busy engine whose buffer the host has written. -/
def disturbed (s : State) : State := { s with phase := .busy s.mem true }

theorem table1_valid : TableValid Params.testVectors table1 := ⟨by decide, by decide, by decide, by decide⟩

theorem table3_valid : TableValid Params.testVectors table3 := ⟨by decide, by decide, by decide, by decide⟩

theorem tableGap_valid : TableValid Params.testVectors tableGap := ⟨by decide, by decide, by decide, by decide⟩

theorem witness_StepRunsDecodedCommand :
    (busy 0x0A).isBusy = true ∧ decode (busy 0x0A).cmd = .ok .frameUnpack ∧ (busy 0x0A).inputs = [] ∧
      (turns [.engine, .poll] (busy 0x0A)).inputs = .engine :: [.poll] := ⟨rfl, rfl, rfl, rfl⟩

theorem witness_IllegalWordRaisesIllegalCmd :
    ((busy 0x0B).isBusy = true ∧ 0x0A < (busy 0x0B).cmd.toNat % 2 ^ 8) ∧
      (busy 0x100).isBusy = true ∧ (busy 0x100).cmd.toNat / 2 ^ 8 ≠ 0 := by decide

theorem witness_IdleBlockKeepsAllState : State.reset.isBusy = false ∧ State.reset.inputs = [] := ⟨rfl, rfl⟩

theorem witness_AcceptedCommandRunsOnItsStartState :
    State.reset.isBusy = false ∧ WritesReg (turns [wr 0x010 1] State.reset) 0x010 (encode .mad) [] := ⟨rfl, rfl⟩

theorem witness_CmdWriteStartsOrDrops :
    (WritesReg (turns [wr 0x010 0] State.reset) 0x010 0 [] ∧ State.reset.isBusy = false) ∧
      WritesReg (turns [wr 0x010 0] (busy 2)) 0x010 0 [] ∧ (busy 2).isBusy = true := ⟨⟨rfl, rfl⟩, rfl, rfl⟩

theorem witness_OperandWriteTakesEffectOnlyWhenIdle :
    (0x020 ∈ operandOffsets ∧ WritesReg (turns [wr 0x020 7] State.reset) 0x020 7 [] ∧ State.reset.isBusy = false) ∧
      0x070 ∈ operandOffsets ∧ WritesReg (turns [wr 0x070 7] (busy 2)) 0x070 7 [] ∧ (busy 2).isBusy = true :=
  ⟨⟨by decide, rfl, rfl⟩, by decide, rfl, rfl⟩

theorem witness_ReadOnlyAndReservedWritesAreIgnored :
    (0x000 ∉ writableOffsets ∧ WritesReg (turns [wr 0x000 1] State.reset) 0x000 1 []) ∧
      0xFFC % 4 = 0 ∧ 0xFFC < 0x1000 ∧ 0xFFC ∉ writableOffsets ∧
        WritesReg (turns [wr 0xFFC 1] (busy 2)) 0xFFC 1 [] := ⟨⟨by decide, rfl⟩, rfl, by decide, by decide, rfl⟩

theorem witness_ReservedOffsetsReadZero :
    (0x01C ∉ mappedOffsets ∧ ReadsReg (turns [rd 0x01C] State.reset) 0x01C []) ∧
      0xFFC % 4 = 0 ∧ 0xFFC < 0x1000 ∧ 0xFFC ∉ mappedOffsets ∧ ReadsReg (turns [rd 0xFFC] State.reset) 0xFFC [] :=
  ⟨⟨by decide, rfl⟩, rfl, by decide, by decide, rfl⟩

theorem witness_MappedRegistersReadTheirState :
    ReadsReg (turns [rd 0x000] State.reset) 0x000 [] ∧ ReadsReg (turns [rd 0x088] State.reset) 0x088 [] := ⟨rfl, rfl⟩

theorem witness_StatusWriteClearsWrittenOnes : WritesReg (turns [wr 0x00C 0xE] (busy 2)) 0x00C 0xE [] := rfl

theorem witness_CtrlWriteSetsIrqEnable :
    (WritesReg (turns [wr 0x008 0] (busy 2)) 0x008 0 [] ∧ (0 : Word).getLsbD 1 = false ∧ (0 : Word).getLsbD 0 = false) ∧
      WritesReg (turns [wr 0x008 1] State.reset) 0x008 1 [] ∧ (1 : Word).getLsbD 1 = false :=
  ⟨⟨rfl, by decide, by decide⟩, rfl, by decide⟩

theorem witness_IrqMaskingAndClearing :
    (WritesReg (turns [wr 0x008 0] State.reset) 0x008 0 [] ∧ (0 : Word).getLsbD 0 = false ∧ (0 : Word).getLsbD 1 = false) ∧
      (WritesReg (turns [wr 0x00C 0xA] State.reset) 0x00C 0xA [] ∧ (0xA : Word).getLsbD 1 = true ∧
        (0xA : Word).getLsbD 3 = true) ∧
      { State.reset with irqEn := true }.irqEn = true ∧
      (WritesReg (turns [wr 0x010 0] State.reset) 0x010 0 [] ∧ State.reset.isBusy = false) ∧
      WritesReg (turns [wr 0x008 3] State.reset) 0x008 3 [] ∧ (3 : Word).getLsbD 1 = true :=
  ⟨⟨rfl, by decide, by decide⟩, ⟨rfl, by decide, by decide⟩, rfl, ⟨rfl, rfl⟩, rfl, by decide⟩

/-- A busy engine with a table to serialize. -/
def busyTblPack : State := load [] (busy 7)

theorem witness_SoftResetKeepsBufferMemory :
    (WritesReg (turns [wr 0x008 3] State.reset) 0x008 3 [] ∧ (3 : Word).getLsbD 1 = true ∧ State.reset.isBusy = false) ∧
      ((busy 7).isBusy = true ∧ (busy 7).runningPlan.outcome = .error ⟨.noTable, 0⟩) ∧
      busyTblPack.isBusy = true ∧
        busyTblPack.runningPlan.outcome = .ok (storing 0 [1, 0, 1, 0, 0] { r0 := 5 }) :=
  ⟨⟨rfl, by decide, rfl⟩, ⟨rfl, rfl⟩, rfl, rfl⟩

theorem witness_PowerOnResetsEverything : (turns [.powerOn] (busy 2)).inputs = .powerOn :: [] := rfl

theorem witness_HostBufferWriteReadsBack :
    let s := turns [.bus { addr := 0x1000 + 4092, width := 4, op := .write (.imm 7) },
      .bus { addr := 0x1000 + 4092, width := 4, op := .read }] State.reset
    s.cfg.Placed ∧ s.isBusy = false ∧ 4 ∈ [1, 2, 4] ∧ 4092 % 4 = 0 ∧ 4092 + 4 ≤ s.cfg.memBytes ∧
      s.inputs = .bus { addr := s.cfg.memBase + 4092, width := 4, op := .write (.imm 7) } ::
        .bus { addr := s.cfg.memBase + 4092, width := 4, op := .read } :: [] :=
  ⟨by decide, rfl, by decide, rfl, by decide, rfl⟩

theorem witness_UndefinedHostAccessesAreRefused :
    (let s := turns [.bus { addr := 0xFFF, width := 4, op := .read }] State.reset
     0xFFF < 0x1000 ∧ 0xFFF % 4 ≠ 0 ∧
       s.inputs = .bus { addr := s.cfg.regBase + 0xFFF, width := 4, op := .read } :: []) ∧
      (let s := turns [.bus { addr := 0x1000 + 4095, width := 2, op := .read }] State.reset
       ¬ (s.cfg.regBase ≤ s.cfg.memBase + 4095 ∧ s.cfg.memBase + 4095 < s.cfg.regBase + 0x1000) ∧ 4095 % 2 ≠ 0 ∧
         s.inputs = .bus { addr := s.cfg.memBase + 4095, width := 2, op := .read } :: []) ∧
      (let s := turns [.bus { addr := 0x1000 + 4096, width := 1, op := .read }] State.reset
       ¬ (s.cfg.regBase ≤ s.cfg.memBase + 4096 ∧ s.cfg.memBase + 4096 < s.cfg.regBase + 0x1000) ∧ 1 ∈ [1, 2, 4] ∧
         4096 % 1 = 0 ∧ s.cfg.memBytes < 4096 + 1 ∧
         s.inputs = .bus { addr := s.cfg.memBase + 4096, width := 1, op := .read } :: []) ∧
      (let s := { turns [.bus { addr := 0x1000 + 4096, width := 2, op := .read }] State.reset with
        cfg := { Params.testVectors with memBytes := 4097 } }
       ¬ (s.cfg.regBase ≤ s.cfg.memBase + 4096 ∧ s.cfg.memBase + 4096 < s.cfg.regBase + 0x1000) ∧ 2 ∈ [1, 2, 4] ∧
         4096 % 2 = 0 ∧ s.cfg.memBytes < 4096 + 2 ∧
         s.inputs = .bus { addr := s.cfg.memBase + 4096, width := 2, op := .read } :: []) :=
  ⟨⟨by decide, by decide, rfl⟩, ⟨by decide, by decide, rfl⟩, ⟨by decide, by decide, rfl, by decide, rfl⟩, by decide,
    by decide, rfl, by decide, rfl⟩

theorem witness_HostBufferAccessWhileBusy :
    (let s := turns [.bus { addr := 0x1000 + 4092, width := 4, op := .read }] (busy 2)
     s.cfg.Placed ∧ s.phase = .busy State.reset.mem false ∧ 4 ∈ [1, 2, 4] ∧ 4092 % 4 = 0 ∧ 4092 + 4 ≤ s.cfg.memBytes ∧
       s.inputs = .bus { addr := s.cfg.memBase + 4092, width := 4, op := .read } :: []) ∧
      (let s := turns [.bus { addr := 0x1000 + 4094, width := 2, op := .write (.imm 7) }] (busy 2)
       s.cfg.Placed ∧ s.phase = .busy State.reset.mem false ∧ 2 ∈ [1, 2, 4] ∧ 4094 % 2 = 0 ∧ 4094 + 2 ≤ s.cfg.memBytes ∧
         s.inputs = .bus { addr := s.cfg.memBase + 4094, width := 2, op := .write (.imm 7) } :: []) :=
  ⟨⟨by decide, rfl, by decide, rfl, by decide, rfl⟩, by decide, rfl, by decide, rfl, by decide, rfl⟩

/-- A disturbed BITSEQ_PACK that will end in ADDR_RANGE(4095): its destination range is [4095, 4097). -/
def disturbedError : State := disturbed (args 0 0 4095 0 0 (busy 5))

/-- R67: an error, too, leaves the destination bytes unspecified after a host write while busy. -/
theorem test_disturbed_error : after (exec .bitseqPack disturbedError) (fun s => (s.mem.byte 4095, s.errInfo)) =
    some (Config.freeByte 0, 4095) := rfl

theorem witness_DisturbedCommandLeavesItsRangesUnspecified :
    (disturbed busyTblPack).phase = .busy State.reset.mem true ∧
      (commandPlan .tblPack (disturbed busyTblPack)).outcome = .ok (storing 0 [1, 0, 1, 0, 0] { r0 := 5 }) ∧
      (commandPlan .tblPack (disturbed busyTblPack)).dest = ⟨0, 5⟩ ∧
      disturbedError.phase = .busy State.reset.mem true ∧
      (commandPlan .bitseqPack disturbedError).outcome = .error ⟨.addrRange, 4095⟩ ∧
      (∀ r ∈ (commandPlan .bitseqPack disturbedError).dest :: (commandPlan .bitseqPack disturbedError).sources,
        ¬ r.Has 4094) ∧
      4095 < disturbedError.cfg.memBytes ∧ (commandPlan .bitseqPack disturbedError).dest.Has 4095 :=
  ⟨rfl, rfl, rfl, rfl, rfl, by decide, by decide, by decide⟩

/-- Eight bits packed onto themselves. -/
def overlapping : State := State.reset |> put 0 [0xFF] |> args 0 8 0 0 0

theorem witness_OverlapLeavesDestinationUnspecified :
    (overlapping.disturbed = false ∧ (∃ e, (commandPlan .bitseqPack overlapping).outcome = .ok e) ∧
        (commandPlan .bitseqPack overlapping).dest = ⟨0, 3⟩ ∧
        ⟨0, 1⟩ ∈ (commandPlan .bitseqPack overlapping).sources ∧ Range.Has ⟨0, 3⟩ 0 ∧ Range.Has ⟨0, 1⟩ 0) ∧
      ∃ x, (commandPlan .bitseqUnpack State.reset).outcome = .error x :=
  ⟨⟨rfl, ⟨_, rfl⟩, rfl, by decide, by decide, by decide⟩, _, rfl⟩

theorem witness_CommandCompletesAsItsOutcomeSays :
    (commandPlan .tblUnpack State.reset).outcome = .error ⟨.truncated, 0⟩ ∧ Loads .tblUnpack ∧
      (commandPlan .hufEncode State.reset).outcome = .error ⟨.noTable, 0⟩ ∧ ¬ Loads .hufEncode ∧
      (∃ e, (commandPlan .tblPack (load [] State.reset)).outcome = .ok e ∧
        ∀ r ∈ (commandPlan .tblPack (load [] State.reset)).sources,
          ∀ a, (commandPlan .tblPack (load [] State.reset)).dest.Has a → ¬ r.Has a) :=
  ⟨rfl, .inr (.inl rfl), rfl, by simp [Loads], _, rfl, by simp [commandPlan, tblPackPlan]⟩

theorem witness_EveryCommandCompletesAndKeepsItsFrame :
    ¬ Loads .bitseqPack ∧
      ¬ (commandPlan .bitseqPack overlapping).dest.Has 3 ∧ overlapping.disturbed = false ∧
      ¬ (commandPlan .bitseqPack disturbedError).dest.Has 4094 ∧ disturbedError.disturbed = true ∧
      (∀ r ∈ (commandPlan .bitseqPack disturbedError).sources, ¬ r.Has 4094) ∧
      (commandPlan .tblUnpack State.reset).outcome = .error ⟨.truncated, 0⟩ ∧ State.reset.disturbed = false :=
  ⟨by simp [Loads], by decide, rfl, by decide, rfl, by decide, rfl, rfl⟩

theorem witness_CommandSucceedsOrWritesNoMemory : State.reset.disturbed = false := rfl

theorem witness_TableReadersRaiseNoTable :
    .framePack ∈ ([.hufEncode, .hufDecode, .tblPack, .framePack] : List Instr) ∧ State.reset.disturbed = false ∧
      State.reset.table = none := ⟨by decide, rfl, rfl⟩

theorem witness_SourceRangeIsCheckedFirst :
    ∃ s : State, s.disturbed = false ∧ s.table ≠ none ∧ OutOfMemory s s.args.a0.toNat (4 * s.args.a1.toNat) ∧
      OutOfMemory s s.args.a0.toNat ((s.args.a1.toNat + 7) / 8) ∧ OutOfMemory s s.args.a0.toNat s.args.a1.toNat :=
  ⟨State.reset |> load [] |> args 4096 1 0 0 0, rfl, by decide, ⟨by decide, by decide⟩, ⟨by decide, by decide⟩,
    ⟨by decide, by decide⟩⟩

/-- One pixel at the end of memory, and one at 0. -/
def madState : State := State.reset |> args 4093 0 0 0 0 |> geom 1 1 0 0

theorem witness_MadReportsBlockDistance :
    madState.disturbed = false ∧ 1 ≤ madState.blkP.toNat ∧ 1 ≤ madState.blkQ.toNat ∧
      3 * madState.blkP.toNat * madState.blkQ.toNat ≤ 2 ^ 32 - 1 ∧
      (∀ r < madState.blkP.toNat, madState.args.a0.toNat + r * madState.args.a1.toNat + 3 * madState.blkQ.toNat ≤
        madState.cfg.memBytes) ∧
      ∀ r < madState.blkP.toNat, madState.args.a2.toNat + r * madState.args.a3.toNat + 3 * madState.blkQ.toNat ≤
        madState.cfg.memBytes := by decide

theorem witness_MadErrorsInOrder :
    (geom 0 8 0 0 State.reset).blkP.toNat = 0 ∧
      (let s := State.reset |> args 4090 3 0 0 0 |> geom 2 1 0 0
       s.disturbed = false ∧ (∀ j < 1, s.args.a0.toNat + j * s.args.a1.toNat + 3 ≤ s.cfg.memBytes) ∧
         1 < s.blkP.toNat ∧ s.args.a0.toNat + 0 * s.args.a1.toNat + 3 ≤ s.cfg.memBytes) ∧
      (let s := State.reset |> args 4091 3 0 0 0 |> geom 2 1 0 0
       (∀ j < 1, s.args.a0.toNat + j * s.args.a1.toNat + 3 * s.blkQ.toNat ≤ s.cfg.memBytes) ∧
         s.cfg.memBytes < s.args.a0.toNat + 1 * s.args.a1.toNat + 3 * s.blkQ.toNat) ∧
      (let s := State.reset |> args 4093 0 4094 0 0 |> geom 1 1 0 0
       (∀ r < s.blkP.toNat, s.args.a0.toNat + r * s.args.a1.toNat + 3 * s.blkQ.toNat ≤ s.cfg.memBytes) ∧
         s.cfg.memBytes < s.args.a2.toNat + 0 * s.args.a3.toNat + 3 * s.blkQ.toNat) := by decide

/-- The state of R120's worked example. -/
def buildState : State := State.reset |> put 0 seq4 |> args 0 4 0 0 0

theorem buildState_words : buildState.engineMem.words buildState.args.a0.toNat buildState.args.a1.toNat = [0, 1, 0, 2] := by
  decide +kernel

theorem witness_HufBuildLoadsTableOfSequence :
    buildState.disturbed = false ∧ InMemory buildState buildState.args.a0.toNat (4 * buildState.args.a1.toNat) ∧
      ([0, 1, 0, 2] : List Word).toFinset.card ≤ buildState.cfg.maxSyms ∧
      ([0, 1, 0, 2] : List Word).toFinset.card ≤ buildState.cfg.maxCodeLen + 1 :=
  ⟨rfl, .inr (by decide), by decide, by decide⟩

theorem witness_HufBuildFollowsHuffmanCodes :
    (([0, 1, 2] : List Word).Pairwise (fun x y => x.toNat < y.toNat) ∧
        ∀ x, x ∈ ([0, 1, 2] : List Word) ↔ x ∈ ([0, 1, 0, 2] : List Word)) ∧
      (buildState.cfg.Legal ∧ buildState.disturbed = false ∧
        InMemory buildState buildState.args.a0.toNat (4 * buildState.args.a1.toNat) ∧
        huffmanCodes buildState.cfg [0, 1, 0, 2] = .ok table3 ∧
        ([0, 1, 2] : List Word).length ≤ buildState.cfg.maxSyms ∧
        (table3.map Entry.len).foldr max 0 ≤ buildState.cfg.maxCodeLen) ∧
      (let s := { buildState with cfg := { Params.testVectors with maxSyms := 2 } }
       s.cfg.Legal ∧ InMemory s s.args.a0.toNat (4 * s.args.a1.toNat) ∧
         s.cfg.maxSyms < ([0, 1, 2] : List Word).length) ∧
      (let s := { buildState with cfg := { Params.testVectors with maxCodeLen := 1 } }
       s.cfg.Legal ∧ InMemory s s.args.a0.toNat (4 * s.args.a1.toNat) ∧
         ([0, 1, 2] : List Word).length ≤ s.cfg.maxSyms ∧ s.cfg.maxCodeLen < (table3.map Entry.len).foldr max 0) :=
  ⟨⟨by decide, fun x => by simp only [List.mem_cons, List.not_mem_nil, or_false]; tauto⟩,
    ⟨by decide, rfl, .inr (by decide), rfl, by decide, by decide⟩, ⟨by decide, .inr (by decide), by decide⟩, by decide,
    .inr (by decide), by decide, by decide⟩

/-- The construction of R121 gives R120's worked example: the two symbols of frequency 1 merge first, the smaller one to the
left, and the merged fragment, whose sequence number is 3, comes after the leaf of the same frequency 2. -/
theorem witness_HuffmanTable : HuffmanTable [0, 1, 0, 2] [0, 1, 2] table3 := by
  refine ⟨rfl, by decide, fun _ => ⟨.node (.leaf 0) (.node (.leaf 1) (.leaf 2)), ?_, by decide⟩⟩
  refine .merge 3 _ [⟨2, 0, .leaf 0⟩] ⟨1, 1, .leaf 1⟩ ⟨1, 2, .leaf 2⟩ _ (by decide) ?_ ?_ ?_
  · simp [KeyBefore]
  · simp [KeyBefore]
  · refine .merge 4 _ [] ⟨2, 0, .leaf 0⟩ ⟨2, 3, .node (.leaf 1) (.leaf 2)⟩ _ (by decide) ?_ ?_ (.last _ _)
    · simp [KeyBefore]
    · simp [KeyBefore]

theorem witness_BuiltTableIsACompletePrefixCode :
    Params.testVectors.Legal ∧ huffmanCodes Params.testVectors [0, 1, 0, 2] = .ok table3 ∧ 2 ≤ table3.length ∧
      huffmanCodes Params.testVectors [5, 5] = .ok table1 ∧ table1.length = 1 := ⟨by decide, rfl, by decide, rfl, rfl⟩

theorem witness_HuffmanTableIgnoresOrder :
    let s' := State.reset |> put 0 (seq4.drop 12 ++ seq4.take 12) |> args 0 4 0 0 0
    buildState.cfg = s'.cfg ∧ buildState.disturbed = false ∧ s'.disturbed = false ∧
      InMemory buildState buildState.args.a0.toNat (4 * buildState.args.a1.toNat) ∧
      InMemory s' s'.args.a0.toNat (4 * s'.args.a1.toNat) ∧
      (buildState.engineMem.words buildState.args.a0.toNat buildState.args.a1.toNat).Perm
        (s'.engineMem.words s'.args.a0.toNat s'.args.a1.toNat) :=
  ⟨rfl, rfl, rfl, .inr (by decide), .inr (by decide), by decide +kernel⟩

/-- One symbol to encode at the end of memory, into the byte before it. -/
def encodeState : State := State.reset |> load table1 |> put 4092 [5, 0, 0, 0] |> args 4092 1 4091 0 0

theorem witness_HufEncodeWritesConcatenatedCodes :
    encodeState.disturbed = false ∧ encodeState.table = some table1 ∧ encodeState.engineMem.words 4092 1 = [5] ∧
      (∀ x ∈ ([5] : List Word), InTable table1 x) ∧ (enc table1 [5]).length = 1 ∧ InMemory encodeState 4092 (4 * 1) ∧
      InMemory encodeState 4091 1 ∧ Apart 4091 1 4092 (4 * 1) :=
  ⟨rfl, rfl, by decide +kernel, by simp [InTable, table1], by decide +kernel, .inr (by decide), .inr (by decide),
    .inr (.inr (.inl (by decide)))⟩

/-- A table whose one code has n bits (2^32 of them overflow the bit count). -/
def tableLong (n : Nat) : Table := [⟨5, List.replicate n true⟩]

theorem tableLong_in (n : Nat) : ∀ x ∈ ([5] : List Word), InTable (tableLong n) x := by simp [InTable, tableLong]

theorem tableLong_enc (n : Nat) : (enc (tableLong n) [5]).length = n := by simp [enc, codeFor, tableLong]

theorem witness_HufEncodeErrorsInOrder :
    (let s := load tableGap encodeState
     s.disturbed = false ∧ s.table = some tableGap ∧ InMemory s 4092 (4 * 1) ∧ 0 < ([5] : List Word).length ∧
       ¬ InTable tableGap 5) ∧
      (let s := load (tableLong (2 ^ 32)) encodeState
       s.table = some (tableLong (2 ^ 32)) ∧ InMemory s 4092 (4 * 1) ∧
         (∀ x ∈ ([5] : List Word), InTable (tableLong (2 ^ 32)) x) ∧
         2 ^ 32 - 1 < (enc (tableLong (2 ^ 32)) [5]).length) ∧
      (let s := args 4092 1 4096 0 0 encodeState
       s.table = some table1 ∧ InMemory s 4092 (4 * 1) ∧ (∀ x ∈ ([5] : List Word), InTable table1 x) ∧
         (enc table1 [5]).length ≤ 2 ^ 32 - 1 ∧
         OutOfMemory s s.args.a2.toNat (((enc table1 [5]).length + 7) / 8)) :=
  ⟨⟨rfl, rfl, .inr (by decide), by decide, by simp [InTable, tableGap]⟩,
    ⟨rfl, .inr (by decide), tableLong_in _, lt_of_lt_of_eq (by decide) (tableLong_enc _).symm⟩, rfl, .inr (by decide),
    by simp [InTable, table1], by decide, by decide, by decide⟩

/-- One code bit to decode at the end of memory. -/
def decodeState : State := State.reset |> load table1 |> put 4095 [0x00] |> args 4095 1 4091 1 0

theorem decodeState_holds : decodeState.engineMem.HoldsBits 4095 (enc table1 [5]) := by
  unfold Memory.HoldsBits
  decide +kernel

theorem witness_HufDecodeInvertsEncoding :
    decodeState.disturbed = false ∧ decodeState.table = some table1 ∧ TableValid decodeState.cfg table1 ∧
      (∀ x ∈ ([5] : List Word), InTable table1 x) ∧ decodeState.args.a1.toNat = (enc table1 [5]).length ∧
      ([5] : List Word).length ≤ decodeState.args.a3.toNat ∧ InMemory decodeState 4095 ((1 + 7) / 8) ∧
      InMemory decodeState 4091 (4 * 1) ∧ Apart 4091 (4 * 1) 4095 ((1 + 7) / 8) :=
  ⟨rfl, rfl, table1_valid, by simp [InTable, table1], by decide +kernel, by decide, .inr (by decide), .inr (by decide),
    .inr (.inr (.inl (by decide)))⟩

/-- The first T bits of the byte b to decode at the end of memory, under a table whose only code is 10. -/
def formatState (b : Nat) (T : Word) : State := State.reset |> load tableGap |> put 4095 [b] |> args 4095 T 0 0 0

theorem witness_HufDecodeErrorsInOrder :
    (let s := formatState 0x80 1
     s.disturbed = false ∧ s.table = some tableGap ∧ TableValid s.cfg tableGap ∧ InMemory s 4095 ((1 + 7) / 8) ∧
       (∃ e ∈ tableGap, [true] <+: e.code ∧ [true] ≠ e.code) ∧ s.args.a1.toNat = (enc tableGap [] ++ [true]).length ∧
       s.engineMem.HoldsBits 4095 (enc tableGap [] ++ [true])) ∧
      (let s := formatState 0x00 1
       (∀ e ∈ tableGap, ¬ ([] ++ [false]) <+: e.code) ∧
         s.args.a1.toNat = (enc tableGap [] ++ [] ++ false :: []).length ∧
         s.engineMem.HoldsBits 4095 (enc tableGap [] ++ [] ++ false :: [])) ∧
      (let s := formatState 0xC0 2
       (∀ e ∈ tableGap, ¬ ([true] ++ [true]) <+: e.code) ∧
         s.args.a1.toNat = (enc tableGap [] ++ [true] ++ true :: []).length ∧
         s.engineMem.HoldsBits 4095 (enc tableGap [] ++ [true] ++ true :: [])) ∧
      (let s := args 4095 1 4091 0 0 decodeState
       s.disturbed = false ∧ s.table = some table1 ∧ s.args.a1.toNat = (enc table1 [5]).length ∧
         s.args.a3.toNat < ([5] : List Word).length) ∧
      (let s := args 4095 1 4093 1 0 decodeState
       s.disturbed = false ∧ s.table = some table1 ∧ s.args.a1.toNat = (enc table1 [5]).length ∧
         ([5] : List Word).length ≤ s.args.a3.toNat ∧ OutOfMemory s s.args.a2.toNat (4 * ([5] : List Word).length)) :=
  ⟨⟨rfl, rfl, tableGap_valid, .inr (by decide), by decide, by decide, by unfold Memory.HoldsBits; decide +kernel⟩,
    ⟨by decide, by decide, by unfold Memory.HoldsBits; decide +kernel⟩,
    ⟨by decide, by decide, by unfold Memory.HoldsBits; decide +kernel⟩, ⟨rfl, rfl, by decide, by decide⟩, rfl, rfl,
    by decide, by decide, by decide, by decide⟩

theorem witness_EncodeThenDecodeWritesSequenceBack :
    encodeState.disturbed = false ∧ encodeState.table = some table1 ∧ TableValid encodeState.cfg table1 ∧
      encodeState.engineMem.words 4092 1 = [5] ∧ (∀ x ∈ ([5] : List Word), InTable table1 x) ∧
      (enc table1 [5]).length = 1 ∧ InMemory encodeState 4092 (4 * 1) ∧ InMemory encodeState 4091 ((1 + 7) / 8) ∧
      Apart 4091 ((1 + 7) / 8) 4092 (4 * 1) ∧ (∃ t, exec .hufEncode encodeState = .next t) ∧
      InMemory encodeState 0 (4 * 1) ∧ Apart 0 (4 * 1) 4091 ((1 + 7) / 8) ∧
      huffmanCodes Params.testVectors [5, 5] = .ok table1 :=
  ⟨rfl, rfl, table1_valid, by decide +kernel, by simp [InTable, table1], by decide, .inr (by decide), .inr (by decide),
    .inr (.inr (.inl (by decide))), ⟨_, exec_eq_complete _ _⟩, .inr (by decide), .inr (.inr (.inl (by decide))),
    rfl⟩

theorem witness_BitseqPackWritesLengthPrefixedBits :
    (let s := args 4095 8 4092 0 0 State.reset
     s.disturbed = false ∧ s.args.a1.toNat = 8 ∧ InMemory s 4095 ((8 + 7) / 8) ∧
       InMemory s 4092 (1 + 1 + (8 + 7) / 8) ∧ Apart 4092 (1 + 1 + (8 + 7) / 8) 4095 ((8 + 7) / 8)) ∧
      (let s := args 4096 0 4094 0 0 State.reset
       InMemory s 4096 ((0 + 7) / 8) ∧ InMemory s 4094 (1 + 1 + (0 + 7) / 8)) ∧
      (let s := args 4095 8 4094 0 0 State.reset
       s.disturbed = false ∧ s.args.a1.toNat = 8 ∧ InMemory s 4095 ((8 + 7) / 8) ∧
         OutOfMemory s s.args.a2.toNat (1 + 1 + (8 + 7) / 8)) :=
  ⟨⟨rfl, rfl, .inr (by decide), .inr (by decide), .inr (.inr (.inl (by decide)))⟩, ⟨.inl rfl, .inr (by decide)⟩, rfl, rfl,
    .inr (by decide), by decide, by decide⟩

/-- A bit sequence of one bit at the end of memory. -/
def parseState : State := State.reset |> put 4093 [1, 1, 0x80] |> args 4093 3 0 0 0

theorem witness_BitseqUnpackParsesLengthPrefixedBits :
    parseState.disturbed = false ∧ InMemory parseState 4093 3 ∧ (parseState.engineMem.byte 4093).toNat ∈ [1, 2, 4] ∧
      1 + (parseState.engineMem.byte 4093).toNat ≤ 3 ∧
      1 + 1 + (parseState.engineMem.read (4093 + 1) 1 + 7) / 8 ≤ 3 :=
  ⟨rfl, .inr (by decide), by decide +kernel, by decide +kernel, by decide +kernel⟩

theorem witness_BitseqUnpackErrorsInOrder :
    (let s := args 4096 0 0 0 0 State.reset
     s.disturbed = false ∧ InMemory s 4096 0 ∧ s.args.a1.toNat = 0) ∧
      (let s := State.reset |> put 4095 [3] |> args 4095 1 0 0 0
       InMemory s 4095 1 ∧ 1 ≤ s.args.a1.toNat ∧ (s.engineMem.byte 4095).toNat ∉ [1, 2, 4]) ∧
      (let s := State.reset |> put 4095 [1] |> args 4095 1 0 0 0
       InMemory s 4095 1 ∧ (s.engineMem.byte 4095).toNat ∈ [1, 2, 4] ∧
         s.args.a1.toNat < 1 + (s.engineMem.byte 4095).toNat) ∧
      (let s := args 4093 2 0 0 0 parseState
       InMemory s 4093 2 ∧ (s.engineMem.byte 4093).toNat = 1 ∧ 1 + 1 ≤ s.args.a1.toNat ∧
         s.args.a1.toNat < 1 + 1 + (s.engineMem.read (4093 + 1) 1 + 7) / 8) :=
  ⟨⟨rfl, .inl rfl, rfl⟩, ⟨.inr (by decide), by decide, by decide +kernel⟩,
    ⟨.inr (by decide), by decide +kernel, by decide +kernel⟩, .inr (by decide), by decide +kernel, by decide,
    by decide +kernel⟩

theorem witness_TblPackWritesTableBytes :
    (let s := State.reset |> load [] |> args 4091 0 0 0 0
     s.disturbed = false ∧ s.table = some [] ∧ s.args.a0.toNat + 5 ≤ s.cfg.memBytes) ∧
      State.reset.cfg.memBytes < 4092 + 5 := ⟨⟨rfl, rfl, by decide⟩, by decide⟩

/-- The empty table's serialization at the end of memory. -/
def unpackState : State := State.reset |> put 4091 [1, 0, 1, 0, 0] |> args 4091 5 0 0 0

theorem witness_TblUnpackRestoresPackedTable :
    unpackState.cfg.Legal ∧ unpackState.disturbed = false ∧ TableValid unpackState.cfg [] ∧ InMemory unpackState 4091 5 ∧
      (tableBytes []).length ≤ 5 ∧ unpackState.engineMem.Holds 4091 (tableBytes []) :=
  ⟨by decide, rfl, ⟨by decide, by decide, by decide, by decide⟩, .inr (by decide), by decide,
    by unfold Memory.Holds; decide +kernel⟩

theorem witness_UnpackedTablesAreValid : Instr.tblUnpack = .tblUnpack ∨ Instr.tblUnpack = .frameUnpack := .inl rfl

/-- The bytes `l` at the end of memory, as the source of a command. -/
def source (l : List Nat) : State :=
  State.reset |> put (4096 - l.length) l |>
    args (BitVec.ofNat 32 (4096 - l.length)) (BitVec.ofNat 32 l.length) 0 0 0

/-- The hypotheses of TblUnpackParsesOrRaisesTheFirstError on these bytes, for an error. -/
def Unparsable (l : List Nat) (x : Raise) : Prop :=
  (source l).disturbed = false ∧ InMemory (source l) (source l).args.a0.toNat (source l).args.a1.toNat ∧
    TableFails (source l).cfg (source l).engineMem (source l).args.a0.toNat (source l).args.a1.toNat 0 x

theorem witness_TblUnpackParsesOrRaisesTheFirstError :
    (let s := source [1, 1, 5, 0, 0, 0, 1, 1, 0, 0, 1]
     s.disturbed = false ∧ InMemory s s.args.a0.toNat s.args.a1.toNat ∧
       TableAt s.cfg s.engineMem s.args.a0.toNat s.args.a1.toNat 0 table1 11) ∧
      Unparsable [] ⟨.truncated, 0⟩ ∧ Unparsable [3] ⟨.badSelector, 0⟩ ∧ Unparsable [1] ⟨.truncated, 1⟩ := by
  refine ⟨⟨rfl, .inr (by decide), 1, 1, 2, 1, 1, 8, 9, ⟨by decide, by decide, by decide +kernel, by decide +kernel⟩, rfl,
    by decide, by omega, ⟨⟨by decide, by decide, by decide +kernel, by decide +kernel⟩, by decide⟩, rfl, rfl, by decide,
    by decide +kernel, by unfold StepsGood; decide +kernel, by decide +kernel, by omega, rfl, ?_, rfl⟩, ?_, ?_, ?_⟩
  · decide +kernel
  · exact ⟨rfl, .inl rfl, .inl (.inl ⟨by decide, rfl⟩)⟩
  · exact ⟨rfl, .inr (by decide), .inl (.inr (.inl ⟨by decide, by decide +kernel, rfl⟩))⟩
  · exact ⟨rfl, .inr (by decide), .inl (.inr (.inr ⟨by decide, by decide +kernel, by decide +kernel, rfl⟩))⟩

theorem witness_TblUnpack_symbolErrors :
    Unparsable [2, 1, 1] ⟨.tableFull, 257⟩ ∧ Unparsable [1, 1] ⟨.truncated, 2⟩ ∧
      Unparsable [1, 2, 5, 0, 0, 0, 5, 0, 0, 0] ⟨.tableOrder, 6⟩ ∧ Unparsable [1, 1, 5, 0, 0, 0] ⟨.truncated, 6⟩ ∧
      Unparsable [1, 1, 5, 0, 0, 0, 1, 1] ⟨.truncated, 8⟩ := by
  refine ⟨⟨rfl, .inr (by decide), .inr ⟨2, 257, 3, ?_, rfl, .inl ⟨by decide, rfl⟩⟩⟩,
    ⟨rfl, .inr (by decide), .inr ⟨1, 1, 2, ?_, rfl, .inr (.inl ⟨by decide, by decide, rfl⟩)⟩⟩,
    ⟨rfl, .inr (by decide), .inr ⟨1, 2, 2, ?_, rfl,
      .inr (.inr (.inl ⟨by decide, by decide, 0, by decide, by omega, by decide +kernel, rfl⟩))⟩⟩,
    ⟨rfl, .inr (by decide), .inr ⟨1, 1, 2, ?_, rfl,
      .inr (.inr (.inr ⟨by decide, by decide, by omega, .inl (.inl (.inl ⟨by decide, rfl⟩))⟩))⟩⟩,
    ⟨rfl, .inr (by decide), .inr ⟨1, 1, 2, ?_, rfl,
      .inr (.inr (.inr ⟨by decide, by decide, by omega, .inl (.inr ⟨1, 1, ?_, by decide, rfl⟩)⟩))⟩⟩⟩
  all_goals exact ⟨by decide, by decide, by decide +kernel, by decide +kernel⟩

/-- One symbol and one code bit, with the offset bytes `os`. -/
def withOffsets (os : List Nat) : List Nat := [1, 1, 5, 0, 0, 0, 1, 1, 0] ++ os

/-- The checks on the offsets fail on these bytes, the checks before them having passed. -/
theorem withOffsets_fail {os : List Nat} {x : Raise} {a lim : Nat} {m : Memory} (hm : (source (withOffsets os)).engineMem = m)
    (ha : (source (withOffsets os)).args.a0.toNat = a) (hl : (source (withOffsets os)).args.a1.toNat = lim)
    (hr : a + lim ≤ 4096) (hc : CountAt m a lim 0 1 1) (hb : BitsAt m a lim 6 1 1)
    (h : (lim < 11 ∧ x = ⟨.truncated, 9⟩) ∨ (11 ≤ lim ∧ OffsetsFail Params.testVectors m a 1 1 8 9 1 x)) :
    Unparsable (withOffsets os) x := by
  subst hm ha hl
  exact ⟨rfl, .inr hr, .inr ⟨1, 1, 2, hc, rfl, .inr (.inr (.inr ⟨by change 1 ≤ 256; decide, by have := hb.1.2.1; omega,
    by omega, .inr ⟨1, 1, 8, 9, hb, rfl, rfl, h⟩⟩))⟩⟩

theorem witness_TblUnpack_offsetErrors :
    Unparsable (withOffsets [0]) ⟨.truncated, 9⟩ ∧ Unparsable (withOffsets [1, 1]) ⟨.badOffsets, 9⟩ ∧
      Unparsable (withOffsets [0, 0]) ⟨.badOffsets, 10⟩ ∧ Unparsable (withOffsets [0, 33]) ⟨.codeTooLong, 33⟩ ∧
      Unparsable (withOffsets [0, 2]) ⟨.badOffsets, 10⟩ := by
  refine ⟨withOffsets_fail rfl rfl rfl (by decide) ?_ ?_ (.inl ⟨by decide, rfl⟩),
    withOffsets_fail rfl rfl rfl (by decide) ?_ ?_ (.inr ⟨by decide, .inl ⟨by decide +kernel, rfl⟩⟩),
    withOffsets_fail rfl rfl rfl (by decide) ?_ ?_
      (.inr ⟨by decide, .inr ⟨by decide +kernel, .inl ⟨0, by decide, nofun, .inl ⟨by decide +kernel, rfl⟩⟩⟩⟩),
    withOffsets_fail rfl rfl rfl (by decide) ?_ ?_
      (.inr ⟨by decide, .inr ⟨by decide +kernel, .inl ⟨0, by decide, nofun, .inr ⟨by decide +kernel, by decide +kernel⟩⟩⟩⟩),
    withOffsets_fail rfl rfl rfl (by decide) ?_ ?_
      (.inr ⟨by decide, .inr ⟨by decide +kernel, .inr (.inl ⟨by unfold StepsGood; decide +kernel, by decide +kernel, rfl⟩)⟩⟩)⟩
  all_goals first
    | exact ⟨by decide, by decide, by decide +kernel, by decide +kernel⟩
    | exact ⟨⟨by decide, by decide, by decide +kernel, by decide +kernel⟩, by decide⟩

/-- Two equal codes: the second entry is the first with a code prefix-related to one before it. -/
theorem witness_TblUnpack_prefixError :
    Unparsable [1, 2, 5, 0, 0, 0, 6, 0, 0, 0, 1, 2, 0, 0, 1, 2] ⟨.notPrefixFree, 1⟩ := by
  refine ⟨rfl, .inr (by decide), .inr ⟨1, 2, 2, ⟨by decide, by decide, by decide +kernel, by decide +kernel⟩, rfl,
    .inr (.inr (.inr ⟨by decide, by decide, fun i hi => ?_, .inr ⟨1, 2, 12, 13,
      ⟨⟨by decide, by decide, by decide +kernel, by decide +kernel⟩, by decide⟩, rfl, rfl, .inr ⟨by decide, .inr
        ⟨by decide +kernel, .inr (.inr ⟨by unfold StepsGood; decide +kernel, by decide +kernel, 1, by decide, ?_, ?_, rfl⟩)⟩⟩⟩⟩))⟩⟩
  · obtain rfl : i = 0 := by omega
    decide +kernel
  · unfold Related
    decide +kernel
  · unfold Related
    decide +kernel

/-- A frame without a palette to write at the end of memory: 27 bytes, of an empty table and no code bits. -/
def packState : State := State.reset |> load [] |> args 4069 0 0 0 0 |> geom 1 1 0 0

theorem witness_FramePackLaysOutTheFrame :
    packState.cfg.Legal ∧ packState.disturbed = false ∧ packState.table = some [] ∧ 1 ≤ packState.blkP.toNat ∧
      1 ≤ packState.blkQ.toNat ∧ packState.imgW.toNat % packState.blkQ.toNat = 0 ∧
      packState.imgH.toNat % packState.blkP.toNat = 0 ∧ InMemory packState 0 ((0 + 7) / 8) ∧
      InMemory packState 0 (0 * (3 * 1 * 1)) ∧
      4069 + (20 + ((tableBytes []).length + (1 + sel 0 + (0 + 7) / 8)) + 0 * (3 * 1 * 1)) = packState.cfg.memBytes ∧
      Apart 4069 27 0 ((0 + 7) / 8) ∧ Apart 4069 27 0 (0 * (3 * 1 * 1)) :=
  ⟨by decide, rfl, rfl, by decide, by decide, by decide, by decide, .inl rfl, .inl rfl, by decide, .inr (.inl rfl),
    .inr (.inl rfl)⟩

theorem witness_FramePackErrorsInOrder :
    (let s := State.reset |> load [] |> geom 0 1 0 0
     s.disturbed = false ∧ s.table = some [] ∧ s.blkP.toNat = 0) ∧
      (let s := State.reset |> load [] |> geom 1 2 1 0
       s.table = some [] ∧ s.imgW.toNat % s.blkQ.toNat ≠ 0) ∧
      (let s := State.reset |> load [] |> geom 1 1 0 0 |> args 0 4096 1 0 0
       1 ≤ s.blkP.toNat ∧ 1 ≤ s.blkQ.toNat ∧ s.imgW.toNat % s.blkQ.toNat = 0 ∧ s.imgH.toNat % s.blkP.toNat = 0 ∧
         OutOfMemory s s.args.a1.toNat ((s.args.a2.toNat + 7) / 8)) ∧
      (let s := State.reset |> load [] |> geom 1 1 0 0 |> args 0 4095 1 4094 1
       InMemory s s.args.a1.toNat ((s.args.a2.toNat + 7) / 8) ∧
         OutOfMemory s s.args.a3.toNat (s.args.a4.toNat * (3 * s.blkP.toNat * s.blkQ.toNat))) ∧
      (let s := args 4070 0 0 0 0 packState
       InMemory s s.args.a1.toNat ((0 + 7) / 8) ∧ InMemory s s.args.a3.toNat (0 * (3 * 1 * 1)) ∧
         OutOfMemory s s.args.a0.toNat (20 + ((tableBytes []).length + (1 + sel 0 + (0 + 7) / 8)) + 0 * (3 * 1 * 1))) :=
  ⟨⟨rfl, rfl, by decide⟩, ⟨rfl, by decide⟩, ⟨by decide, by decide, by decide, by decide, by decide, by decide⟩,
    ⟨.inr (by decide), by decide, by decide⟩, .inl rfl, .inl rfl, by decide, by decide⟩

/-- The 27 bytes of that frame, at the end of memory. -/
def frameState : State :=
  State.reset |> put 4069 ([7, 0, 0, 0] ++ [1, 0, 1, 0, 0] ++ [1, 0] ++ [1, 0, 0, 0, 1, 0, 0, 0, 0, 0, 0, 0, 0, 0, 0, 0]) |>
    args 4069 27 0 0 0

theorem witness_FrameUnpackReadsTheFrame :
    frameState.cfg.Legal ∧ frameState.disturbed = false ∧ TableValid frameState.cfg [] ∧ ([] : Bits).length < 2 ^ 32 ∧
      ([] : List Byte).length = 0 * (3 * 1 * 1) ∧ 27 = 20 + (tableBytes [] ++ bitSeqOf []).length + 0 ∧
      InMemory frameState 4069 27 ∧
      frameState.engineMem.Holds 4069 (frameBytes (tableBytes [] ++ bitSeqOf []) 1 1 0 0 []) :=
  ⟨by decide, rfl, ⟨by decide, by decide, by decide, by decide⟩, by decide, rfl, by decide, .inr (by decide),
    by unfold Memory.Holds; decide +kernel⟩

/-- A frame: S, an empty table, `blob`, then `tail`. -/
def frameSource (S : Nat) (blob tail : List Nat) : State := source ([S, 0, 0, 0] ++ [1, 0, 1, 0, 0] ++ blob ++ tail)

/-- An empty table at offset 4. -/
theorem emptyTable_at {c : Params} {m : Memory} {a lim : Nat} (h : m.bytes (a + 4) 5 = [1, 0, 1, 0, 0]) (hl : 9 ≤ lim) :
    TableAt c m a lim 4 [] 9 := by
  simp only [Memory.bytes, List.cons.injEq, Nat.add_assoc, Nat.reduceAdd] at h
  obtain ⟨h0, h1, h2, h3, h4, _⟩ := h
  have hr : ∀ k, m.read k 1 = (m.byte k).toNat := fun k => by simp [Memory.read]
  exact ⟨1, 0, 6, 1, 0, 8, 8, ⟨by decide, by omega, by simp [h0], by simp [hr, Nat.add_assoc, h1]⟩, rfl, Nat.zero_le _,
    by omega, ⟨⟨by decide, by omega, by simp [h2], by simp [hr, Nat.add_assoc, h3]⟩, by omega⟩, rfl, rfl, by omega,
    by simp [offAt, hr, h4], by simp [StepsGood], by simp [offAt, hr, h4], by omega, rfl, nofun, rfl⟩

/-- The hypotheses of FrameUnpackParsesOrRaisesTheFirstError on a frame whose table parses, and the table itself. -/
def TableParses (s : State) (S : Nat) : Prop :=
  s.disturbed = false ∧ InMemory s s.args.a0.toNat s.args.a1.toNat ∧ S = s.engineMem.read s.args.a0.toNat 4 ∧
    4 + S ≤ s.args.a1.toNat ∧ TableAt s.cfg s.engineMem s.args.a0.toNat (4 + S) 4 [] 9

/-- The code bits of no bits that follow it. -/
def NoBits (s : State) (S : Nat) : Prop := BitsAt s.engineMem s.args.a0.toNat (4 + S) 9 1 0

theorem witness_FrameUnpackParsesOrRaisesTheFirstError :
    (let s := source [0, 0, 0]
     s.disturbed = false ∧ InMemory s s.args.a0.toNat s.args.a1.toNat ∧ s.args.a1.toNat < 4) ∧
      (let s := source [1, 0, 0, 0]
       InMemory s s.args.a0.toNat s.args.a1.toNat ∧ 4 ≤ s.args.a1.toNat ∧
         s.args.a1.toNat < 4 + s.engineMem.read s.args.a0.toNat 4) ∧
      (let s := source [0, 0, 0, 0]
       InMemory s s.args.a0.toNat s.args.a1.toNat ∧ 4 + s.engineMem.read s.args.a0.toNat 4 ≤ s.args.a1.toNat ∧
         TableFails s.cfg s.engineMem s.args.a0.toNat (4 + 0) 4 ⟨.truncated, 4⟩) ∧
      (let s := frameSource 5 [] []
       TableParses s 5 ∧ BitsFail s.engineMem s.args.a0.toNat (4 + 5) 9 ⟨.truncated, 9⟩) ∧
      (let s := frameSource 8 [1, 0, 0] []
       TableParses s 8 ∧ NoBits s 8 ∧ 9 + 1 + 1 + (0 + 7) / 8 ≠ 4 + 8) := by
  refine ⟨⟨rfl, .inr (by decide), by decide⟩, ⟨.inr (by decide), by decide, by decide +kernel⟩,
    ⟨.inr (by decide), by decide +kernel, .inl (.inl ⟨by decide, rfl⟩)⟩,
    ⟨⟨rfl, .inr (by decide), by decide +kernel, by decide, emptyTable_at (by decide +kernel) (by decide)⟩,
      .inl (.inl ⟨by decide, rfl⟩)⟩,
    ⟨rfl, .inr (by decide), by decide +kernel, by decide, emptyTable_at (by decide +kernel) (by decide)⟩,
    ⟨⟨by decide, by decide, by decide +kernel, by decide +kernel⟩, by decide⟩, by decide⟩

/-- A header: p, q = 1, W = H = 0. -/
def header (p : Nat) : List Nat := [p, 0, 0, 0, 1, 0, 0, 0, 0, 0, 0, 0, 0, 0, 0, 0]

theorem witness_FrameUnpack_header :
    (let s := frameSource 7 [1, 0] []
     TableParses s 7 ∧ NoBits s 7 ∧ s.args.a1.toNat < 4 + 7 + 16) ∧
      (let s := frameSource 7 [1, 0] (header 0)
       TableParses s 7 ∧ NoBits s 7 ∧ 4 + 7 + 16 ≤ s.args.a1.toNat ∧
         s.engineMem.read (s.args.a0.toNat + 4 + 7) 4 = 0) ∧
      (let s := frameSource 7 [1, 0] (header 1 ++ [9])
       TableParses s 7 ∧ NoBits s 7 ∧ 4 + 7 + 16 ≤ s.args.a1.toNat ∧
         s.engineMem.read (s.args.a0.toNat + 4 + 7) 4 = 1 ∧ s.engineMem.read (s.args.a0.toNat + 4 + 7 + 4) 4 = 1 ∧
         (s.args.a1.toNat - (4 + 7 + 16)) % (3 * 1 * 1) ≠ 0) ∧
      (let s := frameSource 7 [1, 0] (header 1)
       TableParses s 7 ∧ NoBits s 7 ∧ 4 + 7 + 16 ≤ s.args.a1.toNat ∧
         s.engineMem.read (s.args.a0.toNat + 4 + 7) 4 = 1 ∧ s.engineMem.read (s.args.a0.toNat + 4 + 7 + 4) 4 = 1 ∧
         (s.args.a1.toNat - (4 + 7 + 16)) % (3 * 1 * 1) = 0) := by
  refine ⟨⟨?_, ?_, by decide⟩, ⟨?_, ?_, by decide, by decide +kernel⟩,
    ⟨?_, ?_, by decide, by decide +kernel, by decide +kernel, by decide⟩,
    ⟨?_, ?_, by decide, by decide +kernel, by decide +kernel, by decide⟩⟩
  all_goals first
    | exact ⟨rfl, .inr (by decide), by decide +kernel, by decide, emptyTable_at (by decide +kernel) (by decide)⟩
    | exact ⟨⟨by decide, by decide, by decide +kernel, by decide +kernel⟩, by decide⟩

theorem witness_FrameRoundTrip :
    packState.cfg.Legal ∧ packState.disturbed = false ∧ packState.table = some [] ∧ TableValid packState.cfg [] ∧
      packState.err = false ∧ after (exec .framePack packState) (fun t => (t.err, t.res.r1.toNat)) = some (false, 7) ∧
      20 + 7 + packState.args.a4.toNat * (3 * packState.blkP.toNat * packState.blkQ.toNat) < 2 ^ 32 ∧
      Apart 4069 27 0 ((0 + 7) / 8) ∧ Apart 4069 27 0 (0 * (3 * 1 * 1)) :=
  ⟨by decide, rfl, rfl, ⟨by decide, by decide, by decide, by decide⟩, rfl, by decide +kernel, by decide, .inr (.inl rfl),
    .inr (.inl rfl)⟩

theorem witness_CommandStatementRunsTheCommand :
    State.reset.isBusy = false ∧ State.reset.inputs = [] ∧
      (Stmt.command .framePack ([0, 1, 2, 3, 2 ^ 32 - 1].map Operand.imm)).wf State.reset.cfg = true ∧
      (Stmt.command .nop (([] : List Nat).map Operand.imm)).wf State.reset.cfg = true := by decide

theorem reset_good : MemoryGood Params.testVectors State.reset.mem :=
  ⟨List.Pairwise.nil, fun _ h => absurd h List.not_mem_nil⟩

theorem witness_EveryStepKeepsTheInvariant : ∃ s t : State, s.Inv ∧ step s = .next t ∧ t ≠ s :=
  ⟨turns [.poll] State.reset, State.reset,
    { params := by decide
      memory := reset_good
      startMemory := fun _ _ h => nomatch h
      table := fun _ h => nomatch h
      busyNotDone := fun h => nomatch h
      errHasCode := fun h => nomatch h
      codeHasClass := by decide }, rfl, by decide⟩

theorem witness_NoStepChangesTheParameters : ∃ s t : State, step s = .next t := ⟨State.reset, State.reset, rfl⟩

/-- A state with an acknowledged DONE to come, and an ERR that stays. -/
theorem witness_EveryStepKeepsErrImpliesDone :
    ∃ s t : State, (s.err = true ∧ s.done = true ∧ s.errCode ≠ 0) ∧ step s = .next t ∧ t.err = true :=
  ⟨{ State.reset with err := true, done := true, errCode := 1, errClass := 3, inputs := [wr 0x00C 2] }, _,
    ⟨rfl, rfl, by decide⟩, rfl, rfl⟩

theorem witness_HazardFreeStepDrawsNothing :
    (busy 7).disturbed = false ∧ busyHazard Params.testVectors { addr := 0x00C, width := 4, op := .read } = false ∧
      (∃ t, step (turns [rd 0x00C] (busy 7)) = .next t) ∧ (busy 7).noOverlap :=
  ⟨rfl, rfl, ⟨_, rfl⟩, fun e h => by cases h⟩

end Sys2Proof.Tests
end

section
/-! PROOFS of the family 00_scope.md: the parameters are fixed for a run (R5), and a source range outside the memory is
reported before its contents are looked at (R10). -/

open Sys2Proof.Claims

namespace Sys2Proof.Machine

/-! ## The parameters (R5) -/

namespace State

@[simp] theorem readBuffer_cfg (s : State) (a n : Nat) : (s.readBuffer a n).cfg = s.cfg := by
  unfold readBuffer
  split <;> rfl

@[simp] theorem writeBuffer_cfg (s : State) (a n : Nat) (w : Word) : (s.writeBuffer a n w).cfg = s.cfg := rfl

@[simp] theorem poll_cfg (s : State) : s.poll.cfg = s.cfg := by
  unfold poll
  split <;> rfl

@[simp] theorem complete_cfg (s : State) (p : Plan) : (s.complete p).cfg = s.cfg := (complete_frame s p).1

@[simp] theorem writeReg_cfg (s : State) (w : Word) (r : Reg) : (s.writeReg w r).cfg = s.cfg := by
  rcases writeReg_cases s w r with h | h | h | h | h | h | ⟨_, _, _, _, _, _, _, h⟩
  all_goals simp [h]

@[simp] theorem writeOffset_cfg (s : State) (off : Nat) (w : Word) : (s.writeOffset off w).cfg = s.cfg := by
  unfold writeOffset
  split
  · exact writeReg_cfg _ _ _
  · rfl

end State

theorem engineTurn_cfg {s t : State} (h : engineTurn s = .next t) : t.cfg = s.cfg := by
  cases hb : s.isBusy with
  | false =>
    rw [engineTurn_of_idle (State.idle_of_isBusy hb)] at h
    cases h
    rfl
  | true =>
    rw [engineTurn_of_busy hb] at h
    cases h
    exact State.complete_cfg _ _

theorem busAccess_cfg {s t : State} {x : BusAccess} (h : s.busAccess x = .next t) : t.cfg = s.cfg := by
  rcases busAccess_cases h with ⟨_, rfl⟩ | ⟨_, _, rfl⟩ | ⟨_, _, _, rfl⟩ | ⟨_, _, _, _, rfl⟩
  all_goals simp

/-- Settles O58: each of the four turns keeps the parameters. -/
theorem noStepChangesTheParameters : Obligations.NoStepChangesTheParameters := by
  intro s t h
  rcases step_cases h with ⟨s0, hs, he⟩ | ⟨_, _, _, hx⟩ | ⟨_, _, rfl⟩ | ⟨_, _, rfl⟩
  · have hcfg : s0.cfg = s.cfg := by rcases hs with rfl | ⟨_, _, rfl⟩ <;> rfl
    exact (engineTurn_cfg he).trans hcfg
  · exact (busAccess_cfg hx).trans rfl
  · exact State.poll_cfg _
  · rfl

/-! ## The source range is checked first (R10) -/

/-- An undisturbed command whose plan raises ends in the state of 60_exceptions.md R214. -/
theorem exec_eq_errState {i : Instr} {s : State} {k : ErrKind} {n : Nat} (hd : s.disturbed = false)
    (h : (commandPlan i s).outcome = .error ⟨k, n⟩) :
    exec i s = .next (errState s (if (commandPlan i s).loadsTable then none else s.table) k n) :=
  exec_of_error hd h

/-- The range check at an operand address raises with that address itself, which fits a register (R10). -/
theorem checkRange_of_outOfMemory {s : State} {a : Word} {n : Nat} (h : OutOfMemory s a.toNat n) :
    checkRange s.cfg a.toNat n = .error ⟨.addrRange, a.toNat⟩ := by
  rw [checkRange_of_gt h.1 h.2, lo32_toNat, Nat.mod_eq_of_lt a.isLt]

section
variable {s : State}

theorem hufBuild_raises_addrRange (h : OutOfMemory s s.args.a0.toNat (4 * s.args.a1.toNat)) :
    (commandPlan .hufBuild s).outcome = .error ⟨.addrRange, s.args.a0.toNat⟩ := by
  simp only [commandPlan, hufBuildPlan, checkRange_of_outOfMemory h, try_error_bind]

theorem hufEncode_raises_addrRange {t : Table} (ht : s.table = some t)
    (h : OutOfMemory s s.args.a0.toNat (4 * s.args.a1.toNat)) :
    (commandPlan .hufEncode s).outcome = .error ⟨.addrRange, s.args.a0.toNat⟩ := by
  simp only [commandPlan, hufEncodePlan, State.encodedBits, requireTable_of_some ht, try_ok_bind,
    checkRange_of_outOfMemory h, try_error_bind]

theorem bitseqPack_raises_addrRange (h : OutOfMemory s s.args.a0.toNat ((s.args.a1.toNat + 7) / 8)) :
    (commandPlan .bitseqPack s).outcome = .error ⟨.addrRange, s.args.a0.toNat⟩ := by
  simp only [commandPlan, bitseqPackPlan, checkRange_of_outOfMemory h, try_error_bind]

theorem hufDecode_raises_addrRange {t : Table} (ht : s.table = some t)
    (h : OutOfMemory s s.args.a0.toNat ((s.args.a1.toNat + 7) / 8)) :
    (commandPlan .hufDecode s).outcome = .error ⟨.addrRange, s.args.a0.toNat⟩ := by
  simp only [commandPlan, hufDecodePlan, State.decodedSymbols, requireTable_of_some ht, try_ok_bind,
    checkRange_of_outOfMemory h, try_error_bind]

theorem bitseqUnpack_raises_addrRange (h : OutOfMemory s s.args.a0.toNat s.args.a1.toNat) :
    (commandPlan .bitseqUnpack s).outcome = .error ⟨.addrRange, s.args.a0.toNat⟩ := by
  simp only [commandPlan, bitseqUnpackPlan, checkRange_of_outOfMemory h, try_error_bind]

theorem tblUnpack_raises_addrRange (h : OutOfMemory s s.args.a0.toNat s.args.a1.toNat) :
    (commandPlan .tblUnpack s).outcome = .error ⟨.addrRange, s.args.a0.toNat⟩ := by
  simp only [commandPlan, tblUnpackPlan, checkRange_of_outOfMemory h, try_error_bind]

theorem frameUnpack_raises_addrRange (h : OutOfMemory s s.args.a0.toNat s.args.a1.toNat) :
    (commandPlan .frameUnpack s).outcome = .error ⟨.addrRange, s.args.a0.toNat⟩ := by
  simp only [commandPlan, frameUnpackPlan, checkRange_of_outOfMemory h, try_error_bind]

end

/-- Settles O29: in each of the seven plans the source check is the first that can fail, once a table reader has its
table. -/
theorem sourceRangeIsCheckedFirst : Obligations.SourceRangeIsCheckedFirst := by
  intro s hd
  refine ⟨fun h => ⟨?_, fun ht => ?_⟩, fun h => ⟨?_, fun ht => ?_⟩, fun h => ⟨?_, ?_, ?_⟩⟩
  · exact exec_eq_errState hd (hufBuild_raises_addrRange h)
  · obtain ⟨t, ht⟩ := Option.ne_none_iff_exists'.1 ht
    exact exec_eq_errState hd (hufEncode_raises_addrRange ht h)
  · exact exec_eq_errState hd (bitseqPack_raises_addrRange h)
  · obtain ⟨t, ht⟩ := Option.ne_none_iff_exists'.1 ht
    exact exec_eq_errState hd (hufDecode_raises_addrRange ht h)
  · exact exec_eq_errState hd (bitseqUnpack_raises_addrRange h)
  · exact exec_eq_errState hd (tblUnpack_raises_addrRange h)
  · exact exec_eq_errState hd (frameUnpack_raises_addrRange h)

end Sys2Proof.Machine
end

section
/-! PROOFS of the family 10_state.md: every step keeps the state invariant (R24, R41, R42). -/

open Sys2Proof.Claims

namespace Sys2Proof.Machine

/-! ## The tables the commands load are valid (R41) -/

/-- Below an inner node every path has an edge. -/
theorem path?_ne_nil {t : Tree} {i : Nat} {u : Bits} (h2 : 2 ≤ t.leaves.length) (h : t.path? i = some u) : u ≠ [] := by
  cases t with
  | leaf j => simp [Tree.leaves] at h2
  | node l r =>
    rintro rfl
    simp only [Tree.path?] at h
    cases hl : l.path? i <;> cases hr : r.path? i <;> simp [hl, hr] at h

theorem codeOf_of_path? {f : Fragment} {i : Nat} {u : Bits} (h : f.tree.path? i = some u) : codeOf [f] i = u := by
  simp [codeOf, h]

/-- The code of one leaf begins the code of another only if the two are one leaf (R122). -/
theorem codeOf_prefixFree {f : Fragment} (hd : f.tree.leaves.Nodup) {i j : Nat} (hi : i ∈ f.tree.leaves)
    (hj : j ∈ f.tree.leaves) (h : codeOf [f] i <+: codeOf [f] j) : i = j := by
  obtain ⟨u, hu⟩ := path?_isSome hi
  obtain ⟨v, hv⟩ := path?_isSome hj
  rw [codeOf_of_path? hu, codeOf_of_path? hv] at h
  exact path?_prefixFree hd hu hv h

/-- The entries that a code tree gives at least two symbols make a valid table, if no code is too long (R121, R123). -/
theorem pathEntries_valid {c : Params} {f : Fragment} {syms : List Word}
    (hs : syms.Pairwise fun a b => a.toNat < b.toNat) (h2 : 2 ≤ syms.length) (hm : syms.length ≤ c.maxSyms)
    (hp : f.tree.leaves.Perm (List.range syms.length)) (hl : maxLen (pathEntries [f] 0 syms) ≤ c.maxCodeLen) :
    TableValid c (pathEntries [f] 0 syms) := by
  have hleaf : ∀ i, i ∈ List.range' 0 syms.length ↔ i ∈ f.tree.leaves := fun i => by
    rw [← List.range_eq_range', hp.mem_iff]
  have hnodup : f.tree.leaves.Nodup := hp.nodup_iff.2 List.nodup_range
  refine ⟨by simpa using hm, ?_, ?_, fun e he => ⟨?_, (le_maxLen he).trans hl⟩⟩
  · rwa [← List.pairwise_map (f := Entry.sym) (R := fun a b => a.toNat < b.toNat), pathEntries_syms]
  · rw [← List.pairwise_map (f := Entry.code) (R := fun u v => ¬ u <+: v ∧ ¬ v <+: u), pathEntries_codes,
      List.pairwise_map]
    refine List.Pairwise.imp_of_mem (fun {i j} hi hj hne => ?_) (List.nodup_range' (s := 0) (n := syms.length))
    rw [hleaf] at hi hj
    exact ⟨fun h => hne (codeOf_prefixFree hnodup hi hj h), fun h => hne (codeOf_prefixFree hnodup hj hi h).symm⟩
  · have hcode : e.code ∈ (pathEntries [f] 0 syms).map Entry.code := List.mem_map_of_mem he
    rw [pathEntries_codes] at hcode
    obtain ⟨i, hi, hc⟩ := List.mem_map.1 hcode
    obtain ⟨u, hu⟩ := path?_isSome ((hleaf i).1 hi)
    have hne := path?_ne_nil (by simpa [hp.length_eq] using h2) hu
    rw [Entry.len, ← hc, codeOf_of_path? hu]
    exact List.length_pos_of_ne_nil hne

/-- HuffmanCodes answers valid tables only (R121, R41). -/
theorem huffmanCodes_valid {c : Params} (hc : c.Legal) {seq : List Word} {t : Table}
    (h : huffmanCodes c seq = .ok t) : TableValid c t := by
  obtain ⟨_, _, _, hlen, _, _⟩ := hc
  rcases huffmanCodes_cases c seq _ rfl with ⟨_, he⟩ | ⟨_, he⟩ | ⟨x, _, hm, he⟩ | ⟨h2, hm, f, hp, he⟩ <;> rw [he] at h
  · cases h
  · cases h
    exact ⟨Nat.zero_le _, .nil, .nil, by simp⟩
  · cases h
    exact ⟨hm, List.pairwise_singleton _ _, List.pairwise_singleton _ _, by simpa [Entry.len] using hlen⟩
  · split at h
    · cases h
    · cases h
      exact pathEntries_valid (distinctSymbols_ascending seq) h2 hm hp (by omega)

/-- A table that a command loads is valid (R41). -/
theorem commandPlan_table_valid {i : Instr} {s : State} {e : Effect} {t : Table} (hc : s.cfg.Legal)
    (h : (commandPlan i s).outcome = .ok e) (ht : e.table = some t) : TableValid s.cfg t := by
  have hload : (commandPlan i s).loadsTable = true := by
    rcases commandPlan_ok h with ⟨_, _, _, _, rfl, _⟩ | ⟨_, _, _, rfl⟩ | ⟨hl, _⟩
    · cases ht
    · cases ht
    · exact hl
  rcases (loadsTable_eq i s).1 hload with rfl | rfl | rfl
  · simp only [commandPlan, hufBuildPlan, try_bind_eq_ok, try_pure] at h
    obtain ⟨_, _, t', hcodes, h⟩ := h
    cases h
    cases ht
    exact huffmanCodes_valid hc hcodes
  · simp only [commandPlan, tblUnpackPlan, try_bind_eq_ok, try_pure] at h
    obtain ⟨_, _, t', hparse, h⟩ := h
    cases h
    cases ht
    exact Memory.parseTable_valid hparse
  · simp only [commandPlan, frameUnpackPlan, try_bind_eq_ok, try_pure] at h
    obtain ⟨_, _, _, _, _, _, t', hparse, _, _, _, _, _, _, _, _, _, _, h⟩ := h
    cases h
    cases ht
    exact Memory.parseTable_valid hparse

/-- The effect of the command word in CMD, if it has one: it writes inside the memory, and a table it loads is valid. An
illegal word has none. -/
theorem runningPlan_effect {s : State} {e : Effect} (hc : s.cfg.Legal) (h : s.runningPlan.outcome = .ok e) :
    (∀ x ∈ e.writes, x.1 < s.cfg.memBytes) ∧ ∀ t, e.table = some t → TableValid s.cfg t := by
  cases hd : decode s.cmd with
  | error _ =>
    simp only [State.runningPlan, hd, State.illegalPlan] at h
    cases h
  | ok i =>
    rw [runningPlan_of_decode hd] at h
    obtain ⟨hdest, hwrites⟩ := commandPlan_dest h
    exact ⟨fun x hx => hdest _ (hwrites x hx), fun t ht => commandPlan_table_valid hc h ht⟩

/-! ## Every step keeps the state invariant (R24, R41, R42, 20_memory.md R60) -/

namespace State

/-- The invariant speaks of the parameters, the memory, the table, the phase and the status flags only. -/
theorem Inv.congr {s t : State} (h : s.Inv) (hcfg : t.cfg = s.cfg) (hmem : t.mem = s.mem) (htable : t.table = s.table)
    (hphase : t.phase = s.phase) (hdone : t.done = s.done) (herr : t.err = s.err) (hcode : t.errCode = s.errCode)
    (hclass : t.errClass = s.errClass) : t.Inv := by
  have hbusy : t.isBusy = s.isBusy := by simp only [isBusy, hphase]
  obtain ⟨h1, h2, h3, h4, h5, h6, h7⟩ := h
  constructor <;> simpa only [hcfg, hmem, htable, hphase, hdone, herr, hcode, hclass, hbusy]

/-- An Idle state with the reset values of the table and the flags meets the invariant (R240, R241). -/
theorem inv_of_reset_values {s : State} (hc : s.cfg.Legal) (hm : MemoryGood s.cfg s.mem) (htable : s.table = none)
    (hphase : s.phase = .idle) (herr : s.err = false) (hcode : s.errCode = 0) (hclass : s.errClass = 0) : s.Inv where
  params := hc
  memory := hm
  startMemory := by simp [hphase]
  table := by simp [htable]
  busyNotDone := by simp [isBusy_of_idle hphase]
  errHasCode := by simp [herr]
  codeHasClass := by simp [hcode, hclass]

theorem memoryGood_nil (c : Params) (epoch : Nat) : MemoryGood c { cells := [], epoch := epoch } :=
  ⟨List.Pairwise.nil, by simp [Memory.Within]⟩

theorem Inv.powerOnReset {s : State} (h : s.Inv) : s.powerOnReset.Inv :=
  inv_of_reset_values h.params (memoryGood_nil _ _) rfl rfl rfl rfl rfl

theorem Inv.softReset {s : State} (h : s.Inv) : s.softReset.Inv := by
  have hmem : MemoryGood s.cfg s.softReset.mem := by
    rw [softReset_mem]
    split
    · split
      · exact unspecify_good _ h.memory rfl
      · exact h.memory
    · exact h.memory
  exact inv_of_reset_values h.params hmem rfl rfl rfl rfl rfl

/-- Command start clears the flags and takes the memory as it is (R25). -/
theorem Inv.startCommand {s : State} (h : s.Inv) (w : Word) : (s.startCommand w).Inv where
  params := h.params
  memory := h.memory
  startMemory := by
    rintro m d ⟨⟩
    exact h.memory
  table := h.table
  busyNotDone := by simp
  errHasCode := by simp
  codeHasClass := by simp

/-- Clearing flags breaks nothing of the invariant (R24). -/
theorem Inv.clearStatus {s : State} (h : s.Inv) (w : Word) : (s.clearStatus w).Inv where
  params := h.params
  memory := h.memory
  startMemory := h.startMemory
  table := h.table
  busyNotDone := fun hb => by
    obtain ⟨hdone, herr⟩ := h.busyNotDone hb
    simp [hdone, herr]
  errHasCode := fun he => h.errHasCode (by simp at he; exact he.1)
  codeHasClass := h.codeHasClass

theorem Inv.writeReg {s : State} (h : s.Inv) (w : Word) (r : Reg) : (s.writeReg w r).Inv := by
  rcases writeReg_cases s w r with he | he | he | he | he | he | ⟨_, _, _, _, _, _, _, he⟩ <;> rw [he]
  · exact h
  · exact h.softReset
  · exact h.congr rfl rfl rfl rfl rfl rfl rfl rfl
  · exact h.clearStatus w
  · exact h.congr rfl rfl rfl rfl rfl rfl rfl rfl
  · exact h.startCommand w
  · exact h.congr rfl rfl rfl rfl rfl rfl rfl rfl

theorem Inv.writeOffset {s : State} (h : s.Inv) (off : Nat) (w : Word) : (s.writeOffset off w).Inv := by
  unfold State.writeOffset
  split
  · exact h.writeReg w _
  · exact h

theorem Inv.readBuffer {s : State} (h : s.Inv) (a n : Nat) : (s.readBuffer a n).Inv := by
  unfold State.readBuffer
  split <;> exact h.congr rfl rfl rfl rfl rfl rfl rfl rfl

/-- A host write inside the memory keeps it good, and leaves the start memory of a running command alone (R67). -/
theorem Inv.writeBuffer {s : State} (h : s.Inv) {a n : Nat} (w : Word) (hn : a + n ≤ s.cfg.memBytes) :
    (s.writeBuffer a n w).Inv := by
  have hmem : MemoryGood s.cfg (s.writeBuffer a n w).mem := by
    refine ⟨Memory.wf_setCells _ h.memory.wf, Memory.within_setCells _ h.memory.within fun c hc => ?_⟩
    have := mem_emitAt hc
    rw [leBytes_length] at this
    omega
  cases hphase : s.phase with
  | idle =>
    have hidle : (s.writeBuffer a n w).phase = .idle := by simp [State.writeBuffer, hphase]
    exact ⟨h.params, hmem, by simp [hidle], h.table, by simp [isBusy_of_idle hidle], h.errHasCode, h.codeHasClass⟩
  | busy m d =>
    have hbusy : (s.writeBuffer a n w).phase = .busy m true := by simp [State.writeBuffer, hphase]
    refine ⟨h.params, hmem, ?_, h.table, fun _ => h.busyNotDone (isBusy_of_busy hphase), h.errHasCode, h.codeHasClass⟩
    rw [hbusy]
    rintro _ _ ⟨⟩
    exact h.startMemory m d hphase

theorem Inv.poll {s : State} (h : s.Inv) : s.poll.Inv := by
  unfold State.poll
  split <;> exact h.congr rfl rfl rfl rfl rfl rfl rfl rfl

/-- A completion keeps the invariant if a success writes inside the memory and loads a valid table (R213, R214). -/
theorem Inv.complete {s : State} (h : s.Inv) {p : Plan}
    (hp : ∀ e, p.outcome = .ok e →
      (∀ x ∈ e.writes, x.1 < s.cfg.memBytes) ∧ ∀ t, e.table = some t → TableValid s.cfg t) : (s.complete p).Inv := by
  cases ho : p.outcome with
  | ok e =>
    obtain ⟨hwrites, htable⟩ := hp e ho
    rw [complete_ok ho]
    exact
      { params := by simpa using h.params
        memory := by simpa only [completeOk_cfg] using completeOk_good _ _ e h.memory rfl hwrites
        startMemory := by simp
        table := fun t ht => by
          rw [completeOk_table, Option.or_eq_some_iff] at ht
          rw [completeOk_cfg]
          exact ht.elim (htable t) fun ht => h.table t ht.2
        busyNotDone := by simp [isBusy]
        errHasCode := by simpa using h.errHasCode
        codeHasClass := by simpa using h.codeHasClass }
  | error r =>
    rw [complete_error ho]
    exact
      { params := by simpa using h.params
        memory := by simpa only [raiseError_cfg, raiseError_mem] using settle_good _ h.memory rfl
        startMemory := by simp
        table := fun t ht => by
          rw [raiseError_table] at ht
          rw [raiseError_cfg]
          split at ht
          · cases ht
          · exact h.table t ht
        busyNotDone := by simp [isBusy]
        errHasCode := fun _ => by simpa using errCode_ne_zero r.kind
        codeHasClass := by simpa using iff_of_false (errCode_ne_zero r.kind) (errClass_ne_zero r.kind) }

theorem Inv.inputs {s : State} (h : s.Inv) (ts : List Turn) : ({ s with inputs := ts } : State).Inv :=
  h.congr rfl rfl rfl rfl rfl rfl rfl rfl

end State

theorem engineTurn_inv {s t : State} (h : s.Inv) (ht : engineTurn s = .next t) : t.Inv := by
  cases hb : s.isBusy with
  | false =>
    rw [engineTurn_of_idle (State.idle_of_isBusy hb)] at ht
    cases ht
    exact h
  | true =>
    rw [engineTurn_of_busy hb] at ht
    cases ht
    exact h.complete fun _ he => runningPlan_effect h.params he

theorem busAccess_inv {s t : State} {x : BusAccess} (h : s.Inv) (ht : s.busAccess x = .next t) : t.Inv := by
  rcases busAccess_cases ht with ⟨_, rfl⟩ | ⟨_, _, rfl⟩ | ⟨_, _, _, rfl⟩ | ⟨_, _, _, hn, rfl⟩
  · exact h.congr rfl rfl rfl rfl rfl rfl rfl rfl
  · exact h.writeOffset _ _
  · exact h.readBuffer _ _
  · exact h.writeBuffer _ hn

/-- Settles O56: each of the four turns keeps the invariant. -/
theorem everyStepKeepsTheInvariant : Obligations.EveryStepKeepsTheInvariant := by
  intro s t h ht
  rcases step_cases ht with ⟨s0, hs, he⟩ | ⟨_, rest, _, hx⟩ | ⟨rest, _, rfl⟩ | ⟨rest, _, rfl⟩
  · have h0 : s0.Inv := by
      rcases hs with rfl | ⟨rest, _, rfl⟩
      · exact h
      · exact h.inputs rest
    exact engineTurn_inv h0 he
  · exact busAccess_inv (h.inputs rest) hx
  · exact (h.inputs rest).poll
  · exact (h.inputs rest).powerOnReset

end Sys2Proof.Machine
end

section
/-! PROOFS of the family 10_state.md: the flags, the engine's turn, what host writes and reads of the register region do
(R21 to R33, R43, R44), and the commands that need a table (R42). -/

open Sys2Proof.Claims

namespace Sys2Proof.Machine

/-! ## ERR without DONE (R24) -/

/-- A completed ILLEGAL_CMD whose host is about to acknowledge DONE alone: it writes 0x2 to STATUS. -/
def errBeforeDoneIsCleared : State :=
  { State.reset with
    err := true
    done := true
    errCode := ErrKind.illegalCmd.code
    errClass := ErrKind.illegalCmd.cls
    inputs := [regWriteTurn Params.testVectors .status (.imm 0x00000002#32)] }

theorem errBeforeDoneIsCleared_inv : errBeforeDoneIsCleared.Inv where
  params := by decide
  memory := State.memoryGood_nil _ _
  startMemory := fun _ _ h => nomatch h
  table := fun _ h => nomatch h
  busyNotDone := fun h => nomatch h
  errHasCode := by decide
  codeHasClass := by decide

/-- Refutes O59: after a write of 0x2 to STATUS, DONE is 0 and ERR is still 1 (log 12). -/
theorem not_everyStepKeepsErrImpliesDone : ¬ Obligations.EveryStepKeepsErrImpliesDone := by
  intro h
  have hstep : step errBeforeDoneIsCleared =
      .next { errBeforeDoneIsCleared with inputs := [], done := false } := rfl
  exact absurd (h _ _ errBeforeDoneIsCleared_inv (fun _ => rfl) hstep rfl) (by decide)

/-! ## The engine's turn (R43) -/

theorem decode_encode (i : Instr) : decode (encode i) = .ok i := by cases i <;> rfl

/-- The engine's turn of a Busy engine runs the decoded command. -/
theorem engineTurn_of_decode {s : State} {i : Instr} (hb : s.isBusy = true) (hd : decode s.cmd = .ok i) :
    engineTurn s = exec i s := by
  rw [engineTurn_of_busy hb, runningPlan_of_decode hd, exec_eq_complete]

theorem step_of_no_turn {s : State} (h : s.inputs = []) : step s = engineTurn s := by simp [step, h]

theorem step_of_engine_turn {s : State} {rest : List Turn} (h : s.inputs = .engine :: rest) :
    step s = engineTurn { s with inputs := rest } := by simp [step, h]

/-- Settles O3: with no turn pending, or the engine's first, the step is the engine's turn. -/
theorem stepRunsDecodedCommand : Obligations.StepRunsDecodedCommand := by
  intro s
  refine ⟨fun i hb hd => ⟨fun h => ?_, fun rest h => ?_⟩, step_of_no_turn, fun _ => step_of_engine_turn⟩
  · rw [step_of_no_turn h, engineTurn_of_decode hb hd]
  · rw [step_of_engine_turn h]
    exact engineTurn_of_decode (s := { s with inputs := rest }) hb hd

/-! ## Host writes to the register region (R21 to R33) -/

/-- The step of a host write to a register of the map. -/
theorem step_writesReg {s : State} {w : Word} {rest : List Turn} (r : Reg) (h : WritesReg s (regOffset r) w rest) :
    step s = .next (({ s with inputs := rest } : State).writeReg w r) := by
  rw [step_register_write h (regOffset_lt r) (regOffset_aligned r), writeOffset_regOffset]

/-- A guarded write while Busy only sets DROP (R25). -/
theorem writeReg_of_busy {s : State} {w : Word} {r : Reg} (hg : busyGuarded r = true) (hb : s.isBusy = true) :
    s.writeReg w r = s.dropWrite := by
  revert hg
  cases r <;> simp [busyGuarded, State.writeReg, hb]

/-- A CMD write while Idle starts the command (R25). -/
theorem writeReg_cmd_of_idle {s : State} (w : Word) (hb : s.isBusy = false) : s.writeReg w .cmd = s.startCommand w :=
  if_neg (ne_true_of_eq_false hb)

/-- Settles O7: the write is one to a guarded register. -/
theorem cmdWriteStartsOrDrops : Obligations.CmdWriteStartsOrDrops := by
  intro s w rest h
  have hstep := step_writesReg .cmd h
  refine ⟨fun hb => ?_, fun hb => ?_⟩
  · rw [hstep, writeReg_cmd_of_idle w (by simpa using hb)]
    rfl
  · rw [hstep, writeReg_of_busy rfl (by simpa using hb)]
    rfl

/-- Settles O6: the write starts the command, and the engine's turn that follows runs the decoded word. -/
theorem acceptedCommandRunsOnItsStartState : Obligations.AcceptedCommandRunsOnItsStartState := by
  intro s i hb h
  refine ⟨State.startCommand (encode i) { s with inputs := [] }, ?_, rfl, rfl, rfl, rfl, rfl, rfl, rfl, rfl, rfl, ?_⟩
  · rw [(cmdWriteStartsOrDrops s (encode i) [] h).1 hb]
    rfl
  · have hdecode : decode (State.startCommand (encode i) { s with inputs := [] }).cmd = .ok i := decode_encode i
    rw [step_of_no_turn (by simp), engineTurn_of_decode (by simp) hdecode]

/-- The operand registers ARG0..ARG5, BLK_P, BLK_Q, IMG_W, IMG_H and ALPHA (R28, R30 to R32). -/
def operandRegs : List Reg := argRegs ++ [.blkP, .blkQ, .imgW, .imgH, .alpha]

theorem operandOffsets_eq_map : operandOffsets = operandRegs.map regOffset := rfl

theorem busyGuarded_of_mem_operandRegs : ∀ r ∈ operandRegs, busyGuarded r = true := by decide

section
variable {s : State} {r : Reg} (w : Word) (hr : r ∈ operandRegs) (hb : s.isBusy = false)
include hr hb

/-- An operand write while Idle changes operand registers only. -/
theorem writeReg_operand_of_idle : ∃ a p q i j k,
    s.writeReg w r = { s with args := a, blkP := p, blkQ := q, imgW := i, imgH := j, alpha := k } := by
  simp only [operandRegs, argRegs, List.cons_append, List.nil_append, List.mem_cons, List.not_mem_nil, or_false] at hr
  rcases hr with rfl | rfl | rfl | rfl | rfl | rfl | rfl | rfl | rfl | rfl | rfl
  all_goals
    rw [State.writeReg, if_neg (ne_true_of_eq_false hb)]
    exact ⟨_, _, _, _, _, _, rfl⟩

/-- After an operand write while Idle the register reads as the value, and every other one as before. -/
theorem readReg_writeReg_operand_of_idle (q : Reg) :
    (s.writeReg w r).readReg q = if q = r then w else s.readReg q := by
  simp only [operandRegs, argRegs, List.cons_append, List.nil_append, List.mem_cons, List.not_mem_nil, or_false] at hr
  rcases hr with rfl | rfl | rfl | rfl | rfl | rfl | rfl | rfl | rfl | rfl | rfl
  all_goals
    rw [State.writeReg, if_neg (ne_true_of_eq_false hb)]
    cases q <;> rfl

/-- The same by offset: an offset other than the register's reads as before (R21). -/
theorem readOffset_writeReg_operand_of_idle (o : Nat) :
    (s.writeReg w r).readOffset o = if o = regOffset r then w else s.readOffset o := by
  split
  · subst o
    rw [readOffset_regOffset, readReg_writeReg_operand_of_idle w hr hb, if_pos rfl]
  · rename_i ho
    rw [State.readOffset, State.readOffset]
    cases hq : regAt o with
    | none => rfl
    | some q =>
      have hqr : q ≠ r := fun hc => ho (by rw [← regOffset_of_regAt hq, hc])
      exact (readReg_writeReg_operand_of_idle w hr hb q).trans (if_neg hqr)

end

/-- Settles O8: every operand offset is that of an operand register, which is guarded while Busy. -/
theorem operandWriteTakesEffectOnlyWhenIdle : Obligations.OperandWriteTakesEffectOnlyWhenIdle := by
  intro s off w rest hoff h
  rw [operandOffsets_eq_map] at hoff
  obtain ⟨r, hr, rfl⟩ := List.mem_map.1 hoff
  have hstep := step_writesReg r h
  refine ⟨fun hb => ?_, fun hb => ?_⟩
  · have hread := readOffset_writeReg_operand_of_idle (s := { s with inputs := rest }) w hr hb
    obtain ⟨_, _, _, _, _, _, hw⟩ := writeReg_operand_of_idle (s := { s with inputs := rest }) w hr hb
    refine ⟨_, hstep, (hread _).trans (if_pos rfl), fun o ho => ?_, ?_⟩
    · rw [hread, if_neg ho, readOffset_inputs]
    · rw [hw]
      exact ⟨rfl, rfl, rfl, rfl⟩
  · rw [hstep, writeReg_of_busy (busyGuarded_of_mem_operandRegs r hr) (by simpa using hb)]
    rfl

theorem and_not_eq_ite (b c : Bool) : (b && !c) = if c = true then false else b := by cases c <;> simp

/-- Settles O13: the write is the model's write-1-to-clear, busy or not. -/
theorem statusWriteClearsWrittenOnes : Obligations.StatusWriteClearsWrittenOnes := by
  intro s w rest h
  rw [step_writesReg .status h]
  simp only [State.writeReg, State.clearStatus, and_not_eq_ite]

/-- Settles O14: without bit 1 the CTRL write is no soft reset, and IRQ is masked by IRQ_EN = 0. -/
theorem ctrlWriteSetsIrqEnable : Obligations.CtrlWriteSetsIrqEnable := by
  intro s w rest h h1
  refine ⟨_, step_writesReg .ctrl h, ?_⟩
  rw [State.writeReg, if_neg (ne_true_of_eq_false h1)]
  exact ⟨rfl, fun h0 => ⟨by rw [State.irq, h0, Bool.false_and], rfl, rfl⟩⟩

/-- A register whose offset is not writable ignores every write (R21, R33). -/
theorem writeReg_of_not_writable {s : State} {w : Word} {r : Reg} (h : regOffset r ∉ writableOffsets) :
    s.writeReg w r = s := by
  revert h
  cases r <;> simp [writableOffsets, operandOffsets, regOffset, State.writeReg]

/-- Settles O9: a reserved offset has no register, and the others ignore the write. -/
theorem readOnlyAndReservedWritesAreIgnored : Obligations.ReadOnlyAndReservedWritesAreIgnored := by
  intro s off w rest h4 hlt hoff h
  rw [step_register_write h hlt h4, State.writeOffset]
  cases hr : regAt off with
  | none => rfl
  | some r =>
    rw [← regOffset_of_regAt hr] at hoff
    exact congrArg Host.Outcome.next (writeReg_of_not_writable hoff)

/-! ## Host reads of the register region (R21 to R32) -/

theorem regOffset_mem_mappedOffsets (r : Reg) : regOffset r ∈ mappedOffsets := by cases r <;> decide

/-- Settles O10: the offsets of all registers are mapped. -/
theorem reservedOffsetsReadZero : Obligations.ReservedOffsetsReadZero := by
  intro s off rest h4 hlt hoff h
  have hnone : regAt off = none := regAt_eq_none fun r hr => hoff (hr ▸ regOffset_mem_mappedOffsets r)
  rw [step_register_read h hlt h4, State.readOffset, hnone]

theorem nsym_eq_length (s : State) : s.nsym = (s.table.getD []).length := by
  unfold State.nsym
  cases s.table <;> rfl

/-- Settles O11: the listed pairs are the offset and the value of each register of the map. -/
theorem mappedRegistersReadTheirState : Obligations.MappedRegistersReadTheirState := by
  intro s rest off v hv h
  have hmem : BitVec.ofNat 32 (s.cfg.memBytes % 2 ^ 32) = BitVec.ofNat 32 s.cfg.memBytes := by
    rw [← lo32, lo32_eq_ofNat]
  rw [hmem, ← nsym_eq_length] at hv
  have hmap : (off, v) ∈ allRegs.map fun r => (regOffset r, s.readReg r) := hv
  obtain ⟨r, _, heq⟩ := List.mem_map.1 hmap
  obtain ⟨rfl, rfl⟩ := Prod.mk.inj heq
  rw [step_register_read h (regOffset_lt r) (regOffset_aligned r), readOffset_regOffset]

/-! ## The bits of STATUS and CTRL (R23, R24) -/

theorem decide_toNat_eq_one (b : Bool) : decide (b.toNat = 1) = b := by cases b <;> rfl

/-- Bit i of a word is the flag b if the number's digit at 2^i is b. -/
theorem getLsbD_eq_of_digit {w : Word} {i : Nat} {b : Bool} (h : w.toNat / 2 ^ i % 2 = b.toNat) : w.getLsbD i = b := by
  rw [getLsbD_eq_decide, h, decide_toNat_eq_one]

/-- A field of a word is the number's digits there. -/
theorem extractLsb'_eq_of_digits {w : Word} {i n : Nat} {v : BitVec n} (h : w.toNat / 2 ^ i % 2 ^ n = v.toNat) :
    w.extractLsb' i n = v :=
  BitVec.eq_of_toNat_eq (by rw [BitVec.extractLsb'_toNat, Nat.shiftRight_eq_div_pow, h])

/-- The fields of STATUS do not run into each other: each is a run of binary digits of the word (R24). -/
theorem status_digits (s : State) :
    s.status.toNat / 2 ^ 0 % 2 = s.isBusy.toNat ∧ s.status.toNat / 2 ^ 1 % 2 = s.done.toNat ∧
      s.status.toNat / 2 ^ 2 % 2 = s.err.toNat ∧ s.status.toNat / 2 ^ 3 % 2 = s.drop.toNat ∧
      s.status.toNat / 2 ^ 4 % 2 = s.tblValid.toNat ∧ s.status.toNat / 2 ^ 5 % 2 ^ 3 = 0 ∧
      s.status.toNat / 2 ^ 8 % 2 ^ 8 = s.errCode.toNat ∧ s.status.toNat / 2 ^ 16 % 2 ^ 2 = s.errClass.toNat ∧
      s.status.toNat / 2 ^ 18 = 0 := by
  have h1 := Bool.toNat_le s.isBusy
  have h2 := Bool.toNat_le s.done
  have h3 := Bool.toNat_le s.err
  have h4 := Bool.toNat_le s.drop
  have h5 := Bool.toNat_le s.tblValid
  have h6 := s.errCode.isLt
  have h7 := s.errClass.isLt
  rw [status_toNat]
  refine ⟨?_, ?_, ?_, ?_, ?_, ?_, ?_, ?_, ?_⟩ <;> omega

theorem ctrl_toNat (s : State) : s.ctrl.toNat = s.irqEn.toNat := by
  unfold State.ctrl
  cases s.irqEn <;> rfl

/-- Settles O12: each bit and field is the run of digits that `status_digits` names. -/
theorem statusAndCtrlFieldsStandAtTheirBits : Obligations.StatusAndCtrlFieldsStandAtTheirBits := by
  intro s
  have hstatus : s.readOffset 0x00C = s.status := readOffset_regOffset s .status
  have hctrl : s.readOffset 0x008 = s.ctrl := readOffset_regOffset s .ctrl
  obtain ⟨hbusy, hdone, herr, hdrop, htable, hreserved, hcode, hclass, htop⟩ := status_digits s
  have hirqEn := Bool.toNat_le s.irqEn
  rw [hstatus, hctrl]
  refine ⟨getLsbD_eq_of_digit hbusy, getLsbD_eq_of_digit hdone, getLsbD_eq_of_digit herr, getLsbD_eq_of_digit hdrop,
    getLsbD_eq_of_digit htable, hreserved, extractLsb'_eq_of_digits hcode, extractLsb'_eq_of_digits hclass, htop,
    getLsbD_eq_of_digit ?_, ?_, by simp [State.irq]⟩
  all_goals
    rw [ctrl_toNat]
    omega

/-! ## Commands that read the table (R42) -/

/-- Without a table the four table readers raise NO_TABLE before any other check. -/
theorem tableReader_raises_noTable {i : Instr} {s : State} (hi : i ∈ [.hufEncode, .hufDecode, .tblPack, .framePack])
    (ht : s.table = none) : (commandPlan i s).outcome = .error ⟨.noTable, 0⟩ := by
  have hreq := requireTable_of_none ht
  simp only [List.mem_cons, List.not_mem_nil, or_false] at hi
  rcases hi with rfl | rfl | rfl | rfl
  · simp only [commandPlan, hufEncodePlan, State.encodedBits, hreq, try_error_bind]
  · simp only [commandPlan, hufDecodePlan, State.decodedSymbols, hreq, try_error_bind]
  · simp only [commandPlan, tblPackPlan, hreq, try_error_bind]
  · simp only [commandPlan, framePackPlan, hreq, try_error_bind]

/-- Settles O28: the plan raises NO_TABLE, and with no table before there is none after. -/
theorem tableReadersRaiseNoTable : Obligations.TableReadersRaiseNoTable := by
  intro i s hi hd ht
  rw [exec_eq_errState hd (tableReader_raises_noTable hi ht), ht, ite_self]

end Sys2Proof.Machine
end

section
/-! PROOFS of the family 20_memory.md: host accesses to the buffer memory, defined or not, Idle or Busy (R62, R65, R67), and
the ranges a completion leaves unspecified (R67, R68). -/

open Sys2Proof.Claims

namespace Sys2Proof.Machine

/-! ## Accesses without a defined effect (R65) -/

theorem step_of_bus_turn {s : State} {x : BusAccess} {rest : List Turn} (h : s.inputs = .bus x :: rest) :
    step s = State.busAccess { s with inputs := rest } x := by simp [step, h]

theorem mem_bufferWidths {n : Nat} : n ∈ [1, 2, 4] ↔ n = 1 ∨ n = 2 ∨ n = 4 := by simp

/-- An access from MEM_BASE up, outside the register region, is an access to the buffer memory (log 10). -/
theorem busAccess_outside_registers {s : State} {a : Nat} (n : Nat) (op : BusOp)
    (h : ¬ (s.cfg.regBase ≤ s.cfg.memBase + a ∧ s.cfg.memBase + a < s.cfg.regBase + 0x1000)) :
    s.busAccess { addr := s.cfg.memBase + a, width := n, op := op } = s.bufferAccess a n op := by
  rw [State.busAccess, if_neg h, if_pos (Nat.le_add_right _ _), Nat.add_sub_cancel_left]

theorem registerAccess_of_badForm {s : State} {off n : Nat} (op : BusOp) (h : n ≠ 4 ∨ off % 4 ≠ 0) :
    s.registerAccess off n op = .refused .registerAccessForm := if_neg (by omega)

theorem bufferAccess_of_badForm {s : State} {a n : Nat} (op : BusOp) (h : n ∉ [1, 2, 4] ∨ a % n ≠ 0) :
    s.bufferAccess a n op = .refused .bufferAccessForm := by
  rw [mem_bufferWidths] at h
  refine if_neg ?_
  tauto

theorem bufferAccess_of_outOfRange {s : State} {a n : Nat} (op : BusOp) (hn : n ∈ [1, 2, 4]) (ha : a % n = 0)
    (h : s.cfg.memBytes < a + n) : s.bufferAccess a n op = .refused .bufferAccessRange :=
  (if_pos ⟨mem_bufferWidths.1 hn, ha⟩).trans (if_neg (Nat.not_le.2 h))

/-- Settles O20: each access reaches the window its bus address names, which refuses it. -/
theorem undefinedHostAccessesAreRefused : Obligations.UndefinedHostAccessesAreRefused := by
  intro s a n op rest
  refine ⟨fun ha hform h => ?_, fun hout h => ?_⟩
  · rw [step_of_bus_turn h]
    exact (busAccess_register { s with inputs := rest } ha n op).trans (registerAccess_of_badForm op hform)
  · have hstep : step s = State.bufferAccess { s with inputs := rest } a n op := by
      rw [step_of_bus_turn h]
      exact busAccess_outside_registers (s := { s with inputs := rest }) n op hout
    rw [hstep]
    exact ⟨bufferAccess_of_badForm op, fun hn ha hm => bufferAccess_of_outOfRange op hn ha hm⟩

/-! ## Buffer writes (R62, R65, R67) -/

namespace State

theorem writeBuffer_mem (s : State) (a n : Nat) (w : Word) :
    (s.writeBuffer a n w).mem = s.mem.setCells (emitAt a (leBytes w.toNat n)) := rfl

theorem writeBuffer_holds (s : State) (a n : Nat) (w : Word) :
    (s.writeBuffer a n w).mem.Holds a (leBytes w.toNat n) := Memory.holds_setCells _ _ _

theorem writeBuffer_sameOutside (s : State) (a n : Nat) (w : Word) :
    SameOutside ⟨a, n⟩ s.mem (s.writeBuffer a n w).mem := by
  intro b hb
  rw [writeBuffer_mem, Memory.byte_emitAt_outside]
  simp only [Range.Has, leBytes_length] at hb ⊢
  omega

/-- The bytes written are those of the value, least significant first (R62). -/
theorem writeBuffer_byte (s : State) (a n : Nat) (w : Word) :
    ∀ k < n, ((s.writeBuffer a n w).mem.byte (a + k)).toNat = w.toNat / 2 ^ (8 * k) % 2 ^ 8 := by
  intro k hk
  have hk : k < (leBytes w.toNat n).length := by simpa using hk
  rw [writeBuffer_holds s a n w k hk, leBytes_getElem]

theorem writeBuffer_read (s : State) (a n : Nat) (w : Word) :
    (s.writeBuffer a n w).mem.read a n = w.toNat % 2 ^ (8 * n) :=
  Memory.read_of_leBytes _ _ _ _ fun k hk => writeBuffer_holds s a n w k (by simpa using hk)

@[simp] theorem writeBuffer_isBusy (s : State) (a n : Nat) (w : Word) : (s.writeBuffer a n w).isBusy = s.isBusy := by
  cases hphase : s.phase <;> simp only [writeBuffer, isBusy, hphase]

theorem writeBuffer_of_idle {s : State} (h : s.phase = .idle) (a n : Nat) (w : Word) :
    s.writeBuffer a n w = { s with mem := (s.writeBuffer a n w).mem } := by
  simp only [writeBuffer, h]

/-- A write while Busy marks the run as disturbed and keeps its start memory (log 7). -/
theorem writeBuffer_of_busy {s : State} {m : Memory} {d : Bool} (h : s.phase = .busy m d) (a n : Nat) (w : Word) :
    s.writeBuffer a n w = { s with mem := (s.writeBuffer a n w).mem, phase := .busy m true } := by
  simp only [writeBuffer, h]

/-! ## Buffer reads (R65, R67) -/

theorem readBuffer_of_idle {s : State} (h : s.isBusy = false) (a n : Nat) :
    s.readBuffer a n = { s with busData := BitVec.ofNat 32 (s.mem.read a n) } :=
  if_neg (ne_true_of_eq_false h)

theorem readBuffer_of_busy {s : State} (h : s.isBusy = true) (a n : Nat) :
    s.readBuffer a n = { s with busData := (s.readBuffer a n).busData, draws := s.draws + n } := by
  rw [readBuffer, if_pos h]

end State

/-- A buffer read fits the bus. -/
theorem ofNat_read_toNat (m : Memory) (a : Nat) {n : Nat} (hn : n ∈ [1, 2, 4]) :
    (BitVec.ofNat 32 (m.read a n)).toNat = m.read a n := by
  have hlt : m.read a n < 2 ^ 32 :=
    lt_of_lt_of_le (m.read_lt a n) (Nat.pow_le_pow_right (by decide) (by rw [mem_bufferWidths] at hn; omega))
  rw [BitVec.toNat_ofNat, Nat.mod_eq_of_lt hlt]

/-- A memory that lists just a block of bytes holds them. -/
theorem byte_of_cells_emitAt (a e : Nat) (ys : List Byte) (i : Nat) (h : i < ys.length) :
    Memory.byte { cells := emitAt a ys, epoch := e } (a + i) = ys[i] := by
  induction ys generalizing a i with
  | nil => simp at h
  | cons y ys ih =>
    cases i with
    | zero => simp [Memory.byte, emitAt, lookupCell]
    | succ i =>
      rw [List.getElem_cons_succ, ← ih (a + 1) i (by simpa using h), Nat.add_right_comm, ← Nat.add_assoc]
      simp only [Memory.byte, emitAt, lookupCell]
      rw [if_neg (by omega)]

/-- A buffer read while Busy returns the next free values, byte by byte (R67, log 6). -/
theorem readBuffer_busData_of_busy {s : State} {a n : Nat} (hb : s.isBusy = true) (hn : n ∈ [1, 2, 4]) :
    (s.readBuffer a n).busData.toNat < 2 ^ (8 * n) ∧
      ∀ k < n, (s.readBuffer a n).busData.toNat / 2 ^ (8 * k) % 2 ^ 8 = (Config.freeByte (s.draws + k)).toNat := by
  have hdata : (s.readBuffer a n).busData.toNat =
      Memory.read { cells := emitAt 0 (freeBytes s.draws n), epoch := 0 } 0 n := by
    rw [State.readBuffer, if_pos hb, ofNat_read_toNat _ _ hn]
  rw [hdata]
  refine ⟨Memory.read_lt _ _ _, fun k hk => ?_⟩
  rw [Memory.read_div _ _ _ _ hk, byte_of_cells_emitAt _ _ _ _ (by simpa using hk), freeBytes_getElem]

/-! ## A write read back, and accesses while Busy (R62, R67) -/

/-- The step of a defined host buffer read while Idle. -/
theorem step_buffer_read_of_idle {s : State} {a n : Nat} {rest : List Turn} (hp : s.cfg.Placed) (hb : s.isBusy = false)
    (hn : n = 1 ∨ n = 2 ∨ n = 4) (ha : a % n = 0) (hm : a + n ≤ s.cfg.memBytes)
    (h : s.inputs = .bus { addr := s.cfg.memBase + a, width := n, op := .read } :: rest) :
    step s = .next { s with busData := BitVec.ofNat 32 (s.mem.read a n), inputs := rest } := by
  rw [step_buffer_read hp hn ha hm h, State.readBuffer_of_idle (s := { s with inputs := rest }) hb]

/-- Settles O19: the write lands its bytes, and the read, still Idle, spells the number they are the bytes of. -/
theorem hostBufferWriteReadsBack : Obligations.HostBufferWriteReadsBack := by
  intro s a n w rest hp hb hn ha hm h
  have hn' := mem_bufferWidths.1 hn
  refine ⟨_, _, step_buffer_write hp hn' ha hm h, State.writeBuffer_sameOutside _ a n w, State.writeBuffer_byte _ a n w,
    State.writeBuffer_of_idle (State.idle_of_isBusy (by simpa using hb)) a n w,
    step_buffer_read_of_idle hp (by simpa using hb) hn' ha hm rfl, ?_, rfl⟩
  rw [ofNat_read_toNat _ _ hn]
  exact State.writeBuffer_read _ a n w

/-- Settles O21: the read draws the bytes it returns, the write lands and marks the run as disturbed. -/
theorem hostBufferAccessWhileBusy : Obligations.HostBufferAccessWhileBusy := by
  intro s m d a n w rest hp hphase hn ha hm
  have hn' := mem_bufferWidths.1 hn
  have hb := State.isBusy_of_busy hphase
  refine ⟨fun h => ?_, fun h => ?_⟩
  · exact ⟨_, step_buffer_read hp hn' ha hm h, State.readBuffer_of_busy (s := { s with inputs := rest }) hb a n,
      readBuffer_busData_of_busy (s := { s with inputs := rest }) hb hn⟩
  · exact ⟨_, step_buffer_write hp hn' ha hm h, State.writeBuffer_sameOutside _ a n w, State.writeBuffer_byte _ a n w,
      State.writeBuffer_of_busy (s := { s with inputs := rest }) hphase a n w⟩

/-! ## Ranges left unspecified by a completion (R67, R68) -/

/-- A completion changes no byte outside the destination and, after a host write while Busy, outside the sources. -/
theorem complete_byte_outside (i : Instr) (s : State) {a : Nat} (hdest : ¬ (commandPlan i s).dest.Has a)
    (hsources : s.disturbed = true → ∀ r ∈ (commandPlan i s).sources, ¬ r.Has a) :
    (s.complete (commandPlan i s)).mem.byte a = s.mem.byte a := by
  cases ho : (commandPlan i s).outcome with
  | ok e =>
    rw [State.complete_ok ho]
    exact State.completeOk_byte_outside s _ _ e a (commandPlan_dest ho).2 hdest hsources
  | error x =>
    rw [State.complete_error ho]
    exact State.raiseError_byte_outside s _ _ x a fun hd => List.forall_mem_cons.2 ⟨hdest, hsources hd⟩

namespace State
variable {s : State} {p : Plan}

/-- After a host write while Busy, every byte of the plan's ranges is a free value the completion drew (R67). -/
theorem complete_byte_free {a : Nat} (hd : s.disturbed = true) (ha : a < s.cfg.memBytes)
    (h : ∃ r ∈ p.dest :: p.sources, r.Has a) :
    ∃ k, s.draws ≤ k ∧ k < (s.complete p).draws ∧ (s.complete p).mem.byte a = Config.freeByte k := by
  cases ho : p.outcome with
  | ok e =>
    rw [complete_ok ho]
    exact completeOk_byte_free s _ _ e a hd ha h
  | error x =>
    rw [complete_error ho]
    exact raiseError_byte_free s _ _ x a hd ha h

/-- Results, table and status of a success do not depend on what becomes of the memory (R213, log 7). -/
theorem complete_eq_okState {e : Effect} (ho : p.outcome = .ok e) :
    s.complete p =
      { okState s (s.complete p).mem (e.table.or s.table) e.results with draws := (s.complete p).draws } := by
  rw [complete_ok ho]
  exact completeOk_eq s _ _ e

/-- Results, table and status of an error do not depend on what becomes of the memory (R214, log 7). -/
theorem complete_eq_errState {k : ErrKind} {n : Nat} (ho : p.outcome = .error ⟨k, n⟩) :
    s.complete p =
      { errState s (if p.loadsTable then none else s.table) k n with
        mem := (s.complete p).mem, draws := (s.complete p).draws } := by
  rw [complete_error ho, errState, ← lo32_eq_ofNat]
  exact raiseError_eq s _ _ ⟨k, n⟩

/-- An undisturbed success whose destination overlaps a source leaves the destination unspecified (R68). -/
theorem complete_of_overlap {e : Effect} (hd : s.disturbed = false) (ho : p.outcome = .ok e)
    (hover : p.sources.any p.dest.overlaps = true) :
    (s.complete p).mem = (s.unspecify p.dest).mem ∧ (s.complete p).draws = (s.unspecify p.dest).draws := by
  have hundisturbed : (s.land p.dest p.sources e).disturbed = false := by rw [disturbed_land, hd]
  rw [complete_ok ho, completeOk_mem, completeOk_draws, settle_of_undisturbed _ hundisturbed, land, if_pos hover]
  exact ⟨rfl, rfl⟩

/-- An undisturbed error writes no memory, overlap or not (R68, R214). -/
theorem complete_error_mem {x : Raise} (hd : s.disturbed = false) (ho : p.outcome = .error x) :
    (s.complete p).mem = s.mem := by
  rw [complete_error ho, raiseError_mem, settle_of_undisturbed _ hd]

end State

/-- Settles O22: the completion of a disturbed command, whatever its outcome. -/
theorem disturbedCommandLeavesItsRangesUnspecified : Obligations.DisturbedCommandLeavesItsRangesUnspecified := by
  intro s m i hphase
  have hd : s.disturbed = true := by simp [State.disturbed, hphase]
  refine ⟨_, exec_eq_complete i s, fun a ha => ?_, fun a => State.complete_byte_free hd,
    fun e => State.complete_eq_okState, fun k n => State.complete_eq_errState⟩
  obtain ⟨hdest, hsources⟩ := List.forall_mem_cons.1 ha
  exact complete_byte_outside i s hdest fun _ => hsources

/-- Settles O23: a shared byte is an overlap, and the destination of a success lies in memory. -/
theorem overlapLeavesDestinationUnspecified : Obligations.OverlapLeavesDestinationUnspecified := by
  intro s i hd
  refine ⟨fun e r ho hr hshared => ?_, fun x ho => ⟨_, exec_eq_complete i s, State.complete_error_mem hd ho⟩⟩
  have hover : (commandPlan i s).sources.any (commandPlan i s).dest.overlaps = true :=
    List.any_eq_true.2 ⟨r, hr, (overlaps_iff _ _).2 hshared⟩
  obtain ⟨hmem, hdraws⟩ := State.complete_of_overlap hd ho hover
  refine ⟨_, exec_eq_complete i s, State.complete_eq_okState ho, fun a ha => ?_, fun a ha => ?_⟩
  · exact complete_byte_outside i s ha (by simp [hd])
  · rw [hmem, hdraws]
    exact State.unspecify_byte_free s _ a ((commandPlan_dest ho).1 a ha) ha

end Sys2Proof.Machine
end

section
/-! PROOFS of the family 30_encoding.md: decode and encode agree (R81 to R83), an illegal command word completes with
ILLEGAL_CMD (R81, R83), and a command statement of a host program runs its command (R84, R90). -/

open Sys2Proof.Claims

namespace Sys2Proof.Machine

/-! ## The decoder (R81 to R83) -/

/-- The opcode map is one to one: an opcode selects a command exactly when it is the number of that command's word. -/
theorem opcodeInstr_eq_some {n : Nat} {i : Instr} : opcodeInstr n = some i ↔ n = (encode i).toNat := by
  constructor
  · unfold opcodeInstr
    split
    all_goals
      intro h
      cases h
    all_goals rfl
  · rintro rfl
    cases i <;> rfl

theorem encode_toNat_le (i : Instr) : (encode i).toNat ≤ 0x0A := by cases i <;> decide

/-- The opcodes without a command are those above 0x0A (R83). -/
theorem opcodeInstr_eq_none {n : Nat} : opcodeInstr n = none ↔ 0x0A < n := by
  constructor
  · intro h
    by_contra hle
    interval_cases n
    all_goals cases h
  · intro h
    cases hi : opcodeInstr n with
    | none => rfl
    | some i =>
      rw [opcodeInstr_eq_some] at hi
      exact absurd (encode_toNat_le i) (by omega)

/-- What the decoder asks of the two fields of a word. -/
theorem decode_eq_ok {w : Word} {i : Instr} :
    decode w = .ok i ↔ rsvdField w = 0 ∧ opcodeInstr (opcField w) = some i := by
  unfold decode
  split
  · simp [*]
  · split <;> simp_all

theorem exists_decode_eq_error {w : Word} :
    (∃ e, decode w = .error e) ↔ rsvdField w ≠ 0 ∨ opcodeInstr (opcField w) = none := by
  unfold decode
  split
  · simp [*]
  · split <;> simp_all

/-- A word is its two fields (R80). -/
theorem toNat_eq_fields (w : Word) : w.toNat = 2 ^ 8 * rsvdField w + opcField w := (Nat.div_add_mod _ _).symm

theorem decode_eq_ok_iff_eq_encode {w : Word} {i : Instr} : decode w = .ok i ↔ w = encode i := by
  constructor
  · intro h
    obtain ⟨hrsvd, hopc⟩ := decode_eq_ok.1 h
    apply BitVec.eq_of_toNat_eq
    rw [toNat_eq_fields, hrsvd, opcodeInstr_eq_some.1 hopc, Nat.mul_zero, Nat.zero_add]
  · rintro rfl
    exact decode_encode i

theorem illegal_iff {w : Word} :
    (∃ e, decode w = .error e) ↔ w.toNat / 2 ^ 8 ≠ 0 ∨ 0x0A < w.toNat % 2 ^ 8 :=
  exists_decode_eq_error.trans (or_congr Iff.rfl opcodeInstr_eq_none)

/-- Settles O1: the opcode map is one to one onto 0x00..0x0A, and RSVD = 0 makes the word its opcode. -/
theorem everyWordSelectsOneCommandOrIsIllegal : Obligations.EveryWordSelectsOneCommandOrIsIllegal :=
  fun _ => ⟨fun _ => decode_eq_ok_iff_eq_encode, illegal_iff⟩

/-- Settles O2: the eleven words are the encodings of their commands; the two others are evaluated. -/
theorem opcodeMapWordsDecode : Obligations.OpcodeMapWordsDecode :=
  ⟨decode_encode .nop, decode_encode .mad, decode_encode .hufBuild, decode_encode .hufEncode, decode_encode .hufDecode,
    decode_encode .bitseqPack, decode_encode .bitseqUnpack, decode_encode .tblPack, decode_encode .tblUnpack,
    decode_encode .framePack, decode_encode .frameUnpack, rfl, rfl⟩

/-! ## Illegal command words (R81, R83) -/

theorem runningPlan_of_illegal {s : State} {e : DecodeError} (h : decode s.cmd = .error e) :
    s.runningPlan = s.illegalPlan := by simp [State.runningPlan, h]

/-- A range without bytes leaves nothing unspecified. -/
theorem unspecify_noRange (s : State) : s.unspecify noRange = s := by
  simp [State.unspecify, Range.clip, noRange, freeBytes, emitAt]

theorem settle_noRange (s : State) : s.settle [noRange] = s := by
  simp [State.settle, State.unspecifyAll, unspecify_noRange]

/-- An illegal command word has no ranges, so its completion is the same after a host write while Busy. -/
theorem complete_illegalPlan (s : State) :
    s.complete s.illegalPlan = errState s s.table .illegalCmd s.cmd.toNat := by
  rw [State.complete_error rfl, State.raiseError, State.illegalPlan, settle_noRange, errState, ← lo32_eq_ofNat]
  rfl

/-- Settles O4: such a word does not decode, so the engine completes the plan of an illegal word. -/
theorem illegalWordRaisesIllegalCmd : Obligations.IllegalWordRaisesIllegalCmd := by
  intro s hb hw
  obtain ⟨e, he⟩ := illegal_iff.2 hw
  rw [engineTurn_of_busy hb, runningPlan_of_illegal he, complete_illegalPlan]

/-! ## Host writes of several operand registers (R84, R90) -/

/-- The guarded writes do not depend on the turns to come. -/
theorem writeReg_inputs_of_guarded {r : Reg} (hg : busyGuarded r = true) (s : State) (ts : List Turn) (w : Word) :
    ({ s with inputs := ts } : State).writeReg w r = { s.writeReg w r with inputs := ts } := by
  cases hb : s.isBusy with
  | true =>
    rw [writeReg_of_busy hg hb, writeReg_of_busy hg (by simpa using hb)]
    rfl
  | false =>
    revert hg
    cases r <;> simp [busyGuarded, State.writeReg, State.startCommand, hb]

/-- The step of a host write to a guarded register. -/
theorem step_guarded_write {r : Reg} (hg : busyGuarded r = true) {s : State} {c : Params} (hc : s.cfg = c) (w : Word)
    (rest : List Turn) :
    step { s with inputs := regWriteTurn c r (.imm w) :: rest } = .next { s.writeReg w r with inputs := rest } := by
  subst c
  rw [step_writesReg (s := { s with inputs := regWriteTurn s.cfg r (.imm w) :: rest }) r rfl,
    ← writeReg_inputs_of_guarded hg]

/-- The values of a list written to the registers of a list, in order. -/
def State.writeRegs (s : State) : List Reg → List Nat → State
  | r :: rs, v :: vs => (s.writeReg (BitVec.ofNat 32 v) r).writeRegs rs vs
  | _, _ => s

/-- An operand write while Idle leaves memory, table, phase and the turns to come alone (R28, R30 to R32). -/
theorem writeReg_operand_frame {s : State} {r : Reg} (w : Word) (hr : r ∈ operandRegs) (hb : s.isBusy = false) :
    (s.writeReg w r).cfg = s.cfg ∧ (s.writeReg w r).mem = s.mem ∧ (s.writeReg w r).table = s.table ∧
      (s.writeReg w r).isBusy = false ∧ (s.writeReg w r).inputs = s.inputs := by
  obtain ⟨_, _, _, _, _, _, he⟩ := writeReg_operand_of_idle w hr hb
  rw [he]
  exact ⟨rfl, rfl, rfl, hb, rfl⟩

theorem writeRegs_operand_frame {rs : List Reg} (hrs : ∀ r ∈ rs, r ∈ operandRegs) {s : State} (hb : s.isBusy = false)
    (vs : List Nat) :
    (s.writeRegs rs vs).cfg = s.cfg ∧ (s.writeRegs rs vs).mem = s.mem ∧ (s.writeRegs rs vs).table = s.table ∧
      (s.writeRegs rs vs).isBusy = false ∧ (s.writeRegs rs vs).inputs = s.inputs := by
  induction rs generalizing s vs with
  | nil => exact ⟨rfl, rfl, rfl, hb, rfl⟩
  | cons r rs ih =>
    obtain ⟨hr, hrs⟩ := List.forall_mem_cons.1 hrs
    cases vs with
    | nil => exact ⟨rfl, rfl, rfl, hb, rfl⟩
    | cons v vs =>
      obtain ⟨hcfg, hmem, htable, hidle, hinputs⟩ := writeReg_operand_frame (BitVec.ofNat 32 v) hr hb
      have := ih hrs hidle vs
      rwa [hcfg, hmem, htable, hinputs] at this

/-- A register that is not written reads as before. -/
theorem readReg_writeRegs_of_not_mem {rs : List Reg} (hrs : ∀ r ∈ rs, r ∈ operandRegs) {s : State}
    (hb : s.isBusy = false) (vs : List Nat) {q : Reg} (hq : q ∉ rs) :
    (s.writeRegs rs vs).readReg q = s.readReg q := by
  induction rs generalizing s vs with
  | nil => rfl
  | cons r rs ih =>
    obtain ⟨hr, hrs⟩ := List.forall_mem_cons.1 hrs
    rw [List.mem_cons, not_or] at hq
    obtain ⟨hqr, hq⟩ := hq
    cases vs with
    | nil => rfl
    | cons v vs =>
      obtain ⟨_, _, _, hidle, _⟩ := writeReg_operand_frame (BitVec.ofNat 32 v) hr hb
      rw [State.writeRegs, ih hrs hidle vs hq, readReg_writeReg_operand_of_idle _ hr hb, if_neg hqr]

/-- Each of several different operand registers, written while Idle, reads as its value. -/
theorem readReg_writeRegs {rs : List Reg} (hrs : ∀ r ∈ rs, r ∈ operandRegs) (hnodup : rs.Nodup) {s : State}
    (hb : s.isBusy = false) {vs : List Nat} {j : Nat} (hj : j < rs.length) (hjv : j < vs.length) :
    (s.writeRegs rs vs).readReg rs[j] = BitVec.ofNat 32 vs[j] := by
  induction rs generalizing s vs j with
  | nil => cases hj
  | cons r rs ih =>
    obtain ⟨hr, hrs⟩ := List.forall_mem_cons.1 hrs
    obtain ⟨hnotMem, hnodup⟩ := List.nodup_cons.1 hnodup
    cases vs with
    | nil => cases hjv
    | cons v vs =>
      obtain ⟨_, _, _, hidle, _⟩ := writeReg_operand_frame (BitVec.ofNat 32 v) hr hb
      cases j with
      | zero =>
        rw [State.writeRegs, List.getElem_cons_zero, List.getElem_cons_zero,
          readReg_writeRegs_of_not_mem hrs hidle vs hnotMem, readReg_writeReg_operand_of_idle _ hr hb, if_pos rfl]
      | succ j => exact ih hrs hnodup hidle (Nat.lt_of_succ_lt_succ hj) (Nat.lt_of_succ_lt_succ hjv)

/-- ARG0..ARG5 are the operand registers in order (R28). -/
theorem args_getD (s : State) {j : Nat} (hj : j < argRegs.length) :
    [s.args.a0, s.args.a1, s.args.a2, s.args.a3, s.args.a4, s.args.a5].getD j 0 = s.readReg argRegs[j] := by
  have hmap : argRegs.map s.readReg = [s.args.a0, s.args.a1, s.args.a2, s.args.a3, s.args.a4, s.args.a5] := rfl
  rw [← hmap, List.getD_eq_getElem _ _ (by simpa using hj), List.getElem_map]

theorem mem_operandRegs_of_mem_argRegs : ∀ r ∈ argRegs, r ∈ operandRegs := fun _ => List.mem_append_left _

/-! ## A command statement (R90) -/

theorem run_of_step {s t : State} (h : step s = .next t) (k : Nat) :
    Host.Core.run Sys2Proof.core (k + 1) s = Host.Core.run Sys2Proof.core k t := by
  have hstep : Sys2Proof.core.step s = .next t := h
  simp only [Host.Core.run, hstep]

/-- The operands of a statement take one step each. -/
theorem run_argTurns {rs : List Reg} (hrs : ∀ r ∈ rs, r ∈ operandRegs) {s : State} {c : Params} (hc : s.cfg = c)
    {vs : List Nat} (hvs : vs.length ≤ rs.length) (rest : List Turn) (k : Nat) :
    Host.Core.run Sys2Proof.core (vs.length + k)
        { s with inputs := argTurns c rs (vs.map Operand.imm) ++ rest } =
      Host.Core.run Sys2Proof.core k { s.writeRegs rs vs with inputs := rest } := by
  induction rs generalizing s vs with
  | nil =>
    obtain rfl := List.length_eq_zero_iff.1 (Nat.le_zero.1 hvs)
    rw [List.length_nil, Nat.zero_add]
    rfl
  | cons r rs ih =>
    obtain ⟨hr, hrs⟩ := List.forall_mem_cons.1 hrs
    cases vs with
    | nil =>
      rw [List.length_nil, Nat.zero_add]
      rfl
    | cons v vs =>
      have hstep := step_guarded_write (busyGuarded_of_mem_operandRegs r hr) hc (BitVec.ofNat 32 v)
        (argTurns c rs (vs.map Operand.imm) ++ rest)
      have hrun := ih hrs ((State.writeReg_cfg s (BitVec.ofNat 32 v) r).trans hc) (Nat.le_of_succ_le_succ hvs)
      rw [List.length_cons, Nat.succ_add, ← Nat.add_one]
      exact (run_of_step hstep _).trans hrun

theorem step_poll_of_busy {s : State} (hb : s.isBusy = true) (rest : List Turn) :
    step { s with inputs := .poll :: rest } =
      .next { s with busData := s.status, inputs := .engine :: .poll :: rest } :=
  congrArg Host.Outcome.next (if_pos hb)

theorem step_poll_of_idle {s : State} (hb : s.isBusy = false) (rest : List Turn) :
    step { s with inputs := .poll :: rest } = .next { s with busData := s.status, inputs := rest } :=
  congrArg Host.Outcome.next (if_neg (ne_true_of_eq_false hb))

/-- A command ends Idle and leaves the turns to come alone (R213, R214). -/
theorem exec_phase_inputs {i : Instr} {s u : State} (h : exec i s = .next u) :
    u.phase = .idle ∧ u.inputs = s.inputs := by
  rw [exec_eq_complete] at h
  cases h
  simp [State.complete_frame]

/-- A WAIT on a running command: a failing read, the engine's turn, and the read that ends it (log 13). The state the
command completes from has the failing read in busData. -/
theorem run_wait_of_busy {s u : State} {i : Instr} (hb : s.isBusy = true) (hd : s.disturbed = false)
    (hinputs : s.inputs = []) (hcmd : decode s.cmd = .ok i) (hu : exec i { s with busData := s.status } = .next u) :
    Host.Core.run Sys2Proof.core 3 { s with inputs := [.poll] } = .next { u with busData := u.status } := by
  have hengine : step { s with busData := s.status, inputs := [.engine, .poll] } =
      .next { u with inputs := [.poll] } := by
    rw [step_of_engine_turn rfl, ← exec_inputs (s := { s with busData := s.status }) [.poll] hd hu]
    exact engineTurn_of_decode (s := { s with busData := s.status, inputs := [.poll] }) hb hcmd
  obtain ⟨hphase, hsame⟩ := exec_phase_inputs hu
  rw [run_of_step (step_poll_of_busy hb []), run_of_step hengine,
    run_of_step (step_poll_of_idle (State.isBusy_of_idle hphase) []), ← hinputs, ← hsame]
  rfl

theorem operandCount_le_argRegs (i : Instr) : i.operandCount ≤ argRegs.length := by cases i <;> decide

/-- The turns a command statement with number operands adds. -/
theorem programTurns_command (c : Params) (i : Instr) (ops : List Operand) :
    programTurns c [.command i ops] = argTurns c argRegs ops ++ [regWriteTurn c .cmd (.imm (encode i)), .poll] :=
  List.append_nil _

/-- A command statement has at most as many operands as there are operand registers (R84). -/
theorem length_le_argRegs_of_wf {c : Params} {i : Instr} {ops : List Operand}
    (h : (Stmt.command i ops).wf c = true) : ops.length ≤ argRegs.length := by
  simp only [Stmt.wf, Bool.and_eq_true, beq_iff_eq] at h
  obtain ⟨⟨_, hcount⟩, _⟩ := h
  exact hcount ▸ operandCount_le_argRegs i

/-- The operand writes and the CMD write of a command statement start the command; the WAIT is still to come. -/
theorem run_command_start {s : State} (hb : s.isBusy = false) (hinputs : s.inputs = []) (i : Instr) {vs : List Nat}
    (hvs : vs.length ≤ argRegs.length) (k : Nat) :
    Host.Core.run Sys2Proof.core (vs.length + (k + 1)) (s.issue [.command i (vs.map Operand.imm)]) =
      Host.Core.run Sys2Proof.core k { (s.writeRegs argRegs vs).startCommand (encode i) with inputs := [.poll] } := by
  obtain ⟨hcfg, _, _, hidle, _⟩ := writeRegs_operand_frame mem_operandRegs_of_mem_argRegs hb vs
  rw [State.issue, hinputs, List.nil_append, programTurns_command, run_argTurns mem_operandRegs_of_mem_argRegs rfl hvs,
    run_of_step (step_guarded_write (r := .cmd) rfl hcfg (encode i) [.poll]), writeReg_cmd_of_idle _ hidle]

/-- Settles O55: the operands take one step each, the CMD write one, and the WAIT three. The command completes from the
state in which the host has made its failing read. -/
theorem commandStatementRunsTheCommand : Obligations.CommandStatementRunsTheCommand := by
  intro s i vs hb hinputs hwf
  have hlen : vs.length ≤ argRegs.length := by simpa using length_le_argRegs_of_wf hwf
  obtain ⟨_, hmem, htable, _, hkept⟩ := writeRegs_operand_frame mem_operandRegs_of_mem_argRegs hb vs
  have hargs : ∀ j (hj : j < vs.length), _ := fun j hj =>
    (args_getD (s.writeRegs argRegs vs) (hj.trans_le hlen)).trans
      (readReg_writeRegs mem_operandRegs_of_mem_argRegs (by decide) hb (hj.trans_le hlen) hj)
  have hrun := run_command_start hb hinputs i hlen 3
  generalize s.writeRegs argRegs vs = w at *
  exact ⟨{ w.startCommand (encode i) with busData := (w.startCommand (encode i)).status }, _, rfl, hmem, htable, rfl,
    hkept.trans hinputs, rfl, hargs, exec_eq_complete _ _,
    hrun.trans (run_wait_of_busy rfl rfl (hkept.trans hinputs) (decode_encode i) (exec_eq_complete _ _))⟩

end Sys2Proof.Machine
end

section
/-! PROOFS of the family 40_metric.md: the results and the errors of MAD (R102, R103), and the laws of the metric
(R104). -/

open Sys2Proof.Claims

namespace Sys2Proof.Machine

/-! ## The difference of two samples (R100) -/

theorem absDiff_comm (x y : Nat) : absDiff x y = absDiff y x := by
  unfold absDiff
  omega

theorem absDiff_eq_zero {x y : Nat} : absDiff x y = 0 ↔ x = y := by
  unfold absDiff
  omega

theorem absDiff_triangle (x y z : Nat) : absDiff x z ≤ absDiff x y + absDiff y z := by
  unfold absDiff
  omega

theorem absDiff_byte_le (x y : Byte) : absDiff x.toNat y.toNat ≤ 255 := by
  have hx := x.isLt
  have hy := y.isLt
  unfold absDiff
  omega

/-! ## SAD as a sum (R100, R101) -/

/-- The samples of q pixels of 3 channels, taken in one run. -/
theorem sum_range_three_mul (f : Nat → Nat) (q : Nat) :
    ∑ c ∈ Finset.range q, ∑ k ∈ Finset.range 3, f (3 * c + k) = ∑ i ∈ Finset.range (3 * q), f i := by
  induction q with
  | zero => rfl
  | succ q ih => rw [Finset.sum_range_succ, ih, Nat.mul_succ, Finset.sum_range_add]

namespace Memory

theorem pix_eq_byte (m : Memory) (base stride r c k : Nat) :
    m.pix base stride r c k = (m.byte (base + r * stride + 3 * c + k)).toNat := read_one _ _

/-- The model's SAD is the SAD of the statements. -/
theorem sad_eq_claims_sad (m : Memory) (a sa b sb p q : Nat) : m.sad a sa b sb p q = Claims.sad m a sa b sb p q := by
  simp only [Memory.sad, sumBelow_eq_sum, pix_eq_byte]
  rfl

/-- SAD over the 3q bytes of each row (R101). -/
theorem sad_eq_sum_rows (m : Memory) (a sa b sb p q : Nat) :
    m.sad a sa b sb p q = ∑ r ∈ Finset.range p, ∑ i ∈ Finset.range (3 * q),
      absDiff (m.byte (a + r * sa + i)).toNat (m.byte (b + r * sb + i)).toNat := by
  simp only [← sum_range_three_mul, Memory.sad, sumBelow_eq_sum, pix_eq_byte, Nat.add_assoc]

/-! ## The laws of the metric (R104) -/

section
variable (m : Memory) (a sa b sb c sc p q : Nat)

theorem sad_comm : m.sad a sa b sb p q = m.sad b sb a sa p q := by
  simp only [sad_eq_sum_rows]
  exact Finset.sum_congr rfl fun r _ => Finset.sum_congr rfl fun i _ => absDiff_comm _ _

theorem sad_eq_zero_iff :
    m.sad a sa b sb p q = 0 ↔ ∀ r < p, ∀ i < 3 * q, m.byte (a + r * sa + i) = m.byte (b + r * sb + i) := by
  simp only [sad_eq_sum_rows, Finset.sum_eq_zero_iff, Finset.mem_range, absDiff_eq_zero, BitVec.toNat_inj]

theorem sad_le : m.sad a sa b sb p q ≤ 255 * (3 * p * q) := by
  have hrow : ∀ r ∈ Finset.range p, ∑ i ∈ Finset.range (3 * q),
      absDiff (m.byte (a + r * sa + i)).toNat (m.byte (b + r * sb + i)).toNat ≤ 3 * q * 255 := fun r _ => by
    simpa using Finset.sum_le_card_nsmul (Finset.range (3 * q)) _ 255 fun i _ => absDiff_byte_le _ _
  calc m.sad a sa b sb p q
      ≤ p * (3 * q * 255) := by simpa [sad_eq_sum_rows] using Finset.sum_le_card_nsmul _ _ _ hrow
    _ = 255 * (3 * p * q) := by ring

theorem sad_triangle : m.sad a sa c sc p q ≤ m.sad a sa b sb p q + m.sad b sb c sc p q := by
  simp only [sad_eq_sum_rows, ← Finset.sum_add_distrib]
  exact Finset.sum_le_sum fun r _ => Finset.sum_le_sum fun i _ => absDiff_triangle _ _ _

end

end Memory

theorem belowThreshold_iff {d n v : Nat} : belowThreshold d n v = true ↔ d * 2 ^ 16 < v * n := decide_eq_true_iff

theorem belowThreshold_mono {d n v v' : Nat} (hv : v ≤ v') (h : belowThreshold d n v = true) :
    belowThreshold d n v' = true := by
  rw [belowThreshold_iff] at h ⊢
  exact h.trans_le (Nat.mul_le_mul_right n hv)

/-- Settles O33: laws (a) to (d) hold sample by sample, and a greater ALPHA raises the right side of the compare. -/
theorem blockDistanceLaws : Obligations.BlockDistanceLaws := fun m a sa b sb c sc p q =>
  ⟨m.sad_comm a sa b sb p q, m.sad_eq_zero_iff a sa b sb p q, m.sad_le a sa b sb p q,
    m.sad_triangle a sa b sb c sc p q, fun _ _ _ => belowThreshold_mono⟩

/-! ## The outcomes of MAD (R102, R103) -/

theorem lo32_belowThreshold (d n v : Nat) :
    lo32 (belowThreshold d n v).toNat = if d * 2 ^ 16 < v * n then 1 else 0 := by
  split
  next h => rw [belowThreshold_iff.2 h]; rfl
  next h => rw [eq_false_of_ne_true (mt belowThreshold_iff.1 h)]; rfl

/-! ### The row checks of one operand, from row 0 on -/

theorem checkRows_of_all_in_memory {c : Params} {base stride len p : Nat}
    (h : ∀ r < p, base + r * stride + len ≤ c.memBytes) : checkRows c base stride len 0 p = .ok () :=
  checkRows_of_le (by simpa only [Nat.zero_add] using h)

theorem checkRows_of_first_failing {c : Params} {base stride p q r : Nat} (hq : 1 ≤ q) (hr : r < p)
    (hbefore : ∀ j < r, base + j * stride + 3 * q ≤ c.memBytes) (hrow : c.memBytes < base + r * stride + 3 * q) :
    checkRows c base stride (3 * q) 0 p = .error ⟨.addrRange, (lo32 (base + r * stride)).toNat⟩ := by
  simpa only [Nat.zero_add] using checkRows_of_gt (r0 := 0) hr (Nat.mul_pos (Nat.succ_pos 2) hq)
    (by simpa only [Nat.zero_add] using hbefore) (by simpa only [Nat.zero_add] using hrow)

/-! ### The results and the state they are left in -/

/-- RES0..RES4 of MAD for a SAD of `d`, `n` samples and the threshold `v` (R103). -/
def madResults (d n v : Nat) : Results :=
  { r0 := lo32 d, r1 := hi32 d, r2 := lo32 n, r3 := lo32 (d * 2 ^ 16 / n), r4 := lo32 (belowThreshold d n v).toNat }

theorem madResults_eq (d n v : Nat) : madResults d n v =
    { r0 := BitVec.ofNat 32 (d % 2 ^ 32)
      r1 := BitVec.ofNat 32 (d / 2 ^ 32)
      r2 := BitVec.ofNat 32 n
      r3 := BitVec.ofNat 32 (d * 2 ^ 16 / n)
      r4 := if d * 2 ^ 16 < v * n then 1 else 0 } := by
  have hhi : hi32 d = BitVec.ofNat 32 (d / 2 ^ 32) := lo32_eq_ofNat _
  rw [madResults, hhi, lo32_eq_ofNat n, lo32_eq_ofNat (_ / n), lo32_belowThreshold]
  rfl

/-- An ADDR_RANGE whose address was cut to 32 bits leaves the same state: ERRINFO has 32 bits. -/
theorem errState_lo32 (s : State) (t : Option Table) (k : ErrKind) (n : Nat) :
    errState s t k (lo32 n).toNat = errState s t k n := by
  simp only [errState, ← lo32_eq_ofNat, lo32_lo32]

/-! ### The checks in order -/

section
variable {s : State}

theorem mad_raises_badGeometry (h : s.p = 0 ∨ s.q = 0 ∨ 2 ^ 32 - 1 < 3 * s.p * s.q) :
    (commandPlan .mad s).outcome = .error ⟨.badGeometry, 0⟩ := by
  simp only [commandPlan, madPlan]
  rw [raiseIf_of h, try_error_bind]

section
variable (hp : 1 ≤ s.p) (hq : 1 ≤ s.q) (hn : 3 * s.p * s.q ≤ 2 ^ 32 - 1)
include hp hq hn

/-- With a legal geometry, MAD checks the rows of A, then those of B, and then succeeds. -/
theorem mad_outcome_of_geometry : (commandPlan .mad s).outcome = (do
    checkRows s.cfg s.arg0 s.arg1 (3 * s.q) 0 s.p
    checkRows s.cfg s.arg2 s.arg3 (3 * s.q) 0 s.p
    pure (storingNothing (madResults (s.engineMem.sad s.arg0 s.arg1 s.arg2 s.arg3 s.p s.q) (3 * s.p * s.q)
      s.threshold) none)) := by
  simp only [commandPlan, madPlan]
  rw [raiseIf_of_not (by omega), try_ok_bind]
  rfl

theorem mad_raises_addrRange_of_rowA {r : Nat} (hr : r < s.p)
    (hbefore : ∀ j < r, s.arg0 + j * s.arg1 + 3 * s.q ≤ s.cfg.memBytes)
    (hrow : s.cfg.memBytes < s.arg0 + r * s.arg1 + 3 * s.q) :
    (commandPlan .mad s).outcome = .error ⟨.addrRange, (lo32 (s.arg0 + r * s.arg1)).toNat⟩ := by
  rw [mad_outcome_of_geometry hp hq hn, checkRows_of_first_failing hq hr hbefore hrow, try_error_bind]

variable (hA : ∀ r < s.p, s.arg0 + r * s.arg1 + 3 * s.q ≤ s.cfg.memBytes)
include hA

theorem mad_raises_addrRange_of_rowB {r : Nat} (hr : r < s.p)
    (hbefore : ∀ j < r, s.arg2 + j * s.arg3 + 3 * s.q ≤ s.cfg.memBytes)
    (hrow : s.cfg.memBytes < s.arg2 + r * s.arg3 + 3 * s.q) :
    (commandPlan .mad s).outcome = .error ⟨.addrRange, (lo32 (s.arg2 + r * s.arg3)).toNat⟩ := by
  rw [mad_outcome_of_geometry hp hq hn, checkRows_of_all_in_memory hA, try_ok_bind,
    checkRows_of_first_failing hq hr hbefore hrow, try_error_bind]

theorem mad_succeeds (hB : ∀ r < s.p, s.arg2 + r * s.arg3 + 3 * s.q ≤ s.cfg.memBytes) :
    (commandPlan .mad s).outcome = .ok (storingNothing (madResults
      (s.engineMem.sad s.arg0 s.arg1 s.arg2 s.arg3 s.p s.q) (3 * s.p * s.q) s.threshold) none) := by
  rw [mad_outcome_of_geometry hp hq hn, checkRows_of_all_in_memory hA, try_ok_bind, checkRows_of_all_in_memory hB,
    try_ok_bind, try_pure]

end

end

/-- Settles O31: the checks pass, the plan stores nothing, and the model's SAD is the sum of the statement. -/
theorem madReportsBlockDistance : Obligations.MadReportsBlockDistance := by
  rintro s _ _ _ _ _ _ hd rfl rfl rfl rfl rfl rfl hp hq hn hA hB
  rw [exec_of_storingNothing hd (mad_succeeds hp hq hn hA hB), madResults_eq, Memory.sad_eq_claims_sad]
  rfl

/-- Settles O32: an undisturbed command whose plan raises ends in R214's state, and MAD keeps the table. -/
theorem madErrorsInOrder : Obligations.MadErrorsInOrder := by
  rintro s _ _ _ _ _ _ hd rfl rfl rfl rfl rfl rfl
  refine ⟨fun h => exec_eq_errState hd (mad_raises_badGeometry h), fun hp hq hn =>
    ⟨fun r hr hbefore hrow => ?_, fun hA r hr hbefore hrow => ?_⟩⟩
  · rw [← errState_lo32]
    exact exec_eq_errState hd (mad_raises_addrRange_of_rowA hp hq hn hr hbefore hrow)
  · rw [← errState_lo32]
    exact exec_eq_errState hd (mad_raises_addrRange_of_rowB hp hq hn hA hr hbefore hrow)

end Sys2Proof.Machine
end

section
/-! PROOFS of the family 41_huffman.md: HUF_BUILD follows the code construction (R120 to R123, R133), HUF_ENCODE writes the
codes of a sequence (R124 to R126), HUF_DECODE reads them back (R130, R131), and the round trip (R132). -/

open Sys2Proof.Claims

namespace Sys2Proof.Machine

/-! ## The codes of a tree (R121 to R123) -/

section
variable {f : Fragment} {syms : List Word} (hp : f.tree.leaves.Perm (List.range syms.length))
include hp

/-- The code of the entry i is the path to the leaf i (R122). -/
theorem path?_pathEntries {i : Nat} (h : i < (pathEntries [f] 0 syms).length) :
    f.tree.path? i = some (pathEntries [f] 0 syms)[i].code := by
  rw [pathEntries_length] at h
  obtain ⟨u, hu⟩ := path?_isSome (hp.mem_iff.2 (List.mem_range.2 h))
  have hcode : (pathEntries [f] 0 syms)[i].code = codeOf [f] i := by simp [pathEntries_eq]
  rw [hcode, codeOf_of_path? hu, hu]

/-- A tree with m leaves has no path of more than m − 1 edges (R123 (c)). -/
theorem maxLen_pathEntries_le : maxLen (pathEntries [f] 0 syms) ≤ syms.length - 1 := by
  refine maxLen_le fun e he => ?_
  obtain ⟨i, hi, rfl⟩ := List.getElem_of_mem he
  have hpath := path?_length (path?_pathEntries hp hi)
  rw [hp.length_eq, List.length_range] at hpath
  exact Nat.le_sub_of_add_le hpath

/-- The code tree is full, so its Kraft sum is 1 (R123 (b)). -/
theorem kraft_pathEntries : kraft (pathEntries [f] 0 syms) = 1 := by
  have hcodes : kraft (pathEntries [f] 0 syms) =
      (((pathEntries [f] 0 syms).map Entry.code).map fun u => (1 / 2 : ℚ) ^ u.length).sum := by
    rw [kraft, List.map_map]
    rfl
  have hleaves : (List.range' 0 syms.length).Perm f.tree.leaves := by
    rw [← List.range_eq_range']
    exact hp.symm
  rw [hcodes, pathEntries_codes, List.map_map, (hleaves.map _).sum_eq]
  exact path?_kraft (hp.nodup_iff.2 List.nodup_range)

end

/-! ## The table HuffmanCodes answers (R121) -/

/-- A table HuffmanCodes answers is empty, or has one symbol with the code "0", or holds the paths of a tree with one leaf
for each of its symbols. -/
theorem huffmanCodes_eq_ok {c : Params} {seq : List Word} {t : Table} (h : huffmanCodes c seq = .ok t) :
    (distinctSymbols seq = [] ∧ t = []) ∨ (∃ x, distinctSymbols seq = [x] ∧ t = [{ sym := x, code := [false] }]) ∨
      (2 ≤ (distinctSymbols seq).length ∧ ∃ f : Fragment,
        f.tree.leaves.Perm (List.range (distinctSymbols seq).length) ∧ t = pathEntries [f] 0 (distinctSymbols seq)) := by
  rcases huffmanCodes_cases c seq _ rfl with ⟨_, ho⟩ | ⟨hs, ho⟩ | ⟨x, hs, _, ho⟩ | ⟨h2, _, f, hp, ho⟩ <;> rw [ho] at h
  · cases h
  · cases h
    exact .inl ⟨hs, rfl⟩
  · cases h
    exact .inr (.inl ⟨x, hs, rfl⟩)
  · split at h
    · cases h
    · cases h
      exact .inr (.inr ⟨h2, f, hp, rfl⟩)

/-- HuffmanCodes gives each distinct symbol one entry, in ascending order. -/
theorem huffmanCodes_syms {c : Params} {seq : List Word} {t : Table} (h : huffmanCodes c seq = .ok t) :
    t.map Entry.sym = distinctSymbols seq := by
  rcases huffmanCodes_eq_ok h with ⟨hs, rfl⟩ | ⟨x, hs, rfl⟩ | ⟨_, f, _, rfl⟩
  · rw [hs, List.map_nil]
  · rw [hs, List.map_singleton]
  · exact pathEntries_syms _ _ _

theorem inTable_huffmanCodes_iff {c : Params} {seq : List Word} {t : Table} (h : huffmanCodes c seq = .ok t) {x : Word} :
    InTable t x ↔ x ∈ seq := by
  rw [← mem_distinctSymbols, ← huffmanCodes_syms h, List.mem_map, InTable]

/-- No built code is longer than max(1, m − 1) (R123 (c)). -/
theorem huffmanCodes_len_le {c : Params} {seq : List Word} {t : Table} (h : huffmanCodes c seq = .ok t) {e : Entry}
    (he : e ∈ t) : e.len ≤ max 1 (t.length - 1) := by
  rcases huffmanCodes_eq_ok h with ⟨_, rfl⟩ | ⟨x, _, rfl⟩ | ⟨_, f, hp, rfl⟩
  · cases he
  · rw [List.mem_singleton.1 he]
    exact le_max_left _ _
  · rw [pathEntries_length]
    exact (le_maxLen he).trans ((maxLen_pathEntries_le hp).trans (le_max_right _ _))

/-- A built code is complete, except that a single code "0" leaves half the space (R123 (b)). -/
theorem huffmanCodes_kraft {c : Params} {seq : List Word} {t : Table} (h : huffmanCodes c seq = .ok t) :
    (2 ≤ t.length → kraft t = 1) ∧ (t.length = 1 → kraft t = 1 / 2) := by
  rcases huffmanCodes_eq_ok h with ⟨_, rfl⟩ | ⟨x, _, rfl⟩ | ⟨h2, f, hp, rfl⟩
  · simp
  · simp [kraft, Entry.len]
  · rw [pathEntries_length]
    exact ⟨fun _ => kraft_pathEntries hp, by omega⟩

/-- Few enough symbols fit MAX_SYMS, and then no code is too long for MAX_CODE_LEN (R123 (c)). -/
theorem huffmanCodes_succeeds {c : Params} {seq : List Word} (hm : seq.toFinset.card ≤ c.maxSyms)
    (hl : seq.toFinset.card ≤ c.maxCodeLen + 1) : ∃ t, huffmanCodes c seq = .ok t := by
  rw [← distinctSymbols_length] at hm hl
  rcases huffmanCodes_cases c seq _ rfl with ⟨hfull, _⟩ | ⟨_, ho⟩ | ⟨x, _, _, ho⟩ | ⟨_, _, f, hp, ho⟩
  · omega
  · exact ⟨_, ho⟩
  · exact ⟨_, ho⟩
  · have := maxLen_pathEntries_le hp
    rw [if_neg (by omega)] at ho
    exact ⟨_, ho⟩

theorem huffmanCodes_of_tableFull {c : Params} {seq : List Word} (h : c.maxSyms < (distinctSymbols seq).length) :
    huffmanCodes c seq = .error ⟨.tableFull, (distinctSymbols seq).length⟩ := if_pos h

/-! ## The order of the sequence does not matter (R133) -/

theorem leafQueue_of_perm {seq seq' : List Word} (h : seq.Perm seq') (i : Nat) (syms : List Word) :
    leafQueue seq i syms = leafQueue seq' i syms := by
  induction syms generalizing i with
  | nil => rfl
  | cons x xs ih => rw [leafQueue, leafQueue, freq, freq, h.count_eq, ih]

theorem huffmanCodes_of_perm (c : Params) {seq seq' : List Word} (h : seq.Perm seq') :
    huffmanCodes c seq = huffmanCodes c seq' := by
  have hqueue : leafQueue seq = leafQueue seq' := by
    funext i syms
    exact leafQueue_of_perm h i syms
  rw [huffmanCodes, huffmanCodes, distinctSymbols_congr fun _ => h.mem_iff, hqueue]

/-! ## The construction as R121 states it: a queue in any order -/

/-- The merge loop on a queue in key order does R121's merges on the same queue in any order. -/
theorem merges_of_mergeFragments {fuel next : Nat} {q : List Fragment} {f : Fragment} {q' : List Fragment}
    (hq : q.Pairwise fun a b => a.before b = true) (hseq : ∀ g ∈ q, g.seq < next) (hlen : q.length = fuel + 1)
    (hperm : q'.Perm q) (hf : mergeFragments fuel next q = [f]) : Merges next q' f.tree := by
  induction fuel generalizing next q q' with
  | zero =>
    rw [show q = [f] from hf] at hperm
    rw [List.perm_singleton.1 hperm]
    exact .last next f
  | succ fuel ih =>
    match q with
    | a :: b :: rest =>
      obtain ⟨ha, hbrest⟩ := List.pairwise_cons.1 hq
      obtain ⟨hb, hrest⟩ := List.pairwise_cons.1 hbrest
      simp only [List.forall_mem_cons] at hseq
      obtain ⟨_, _, hseq⟩ := hseq
      refine .merge next q' rest a b f.tree hperm (fun x hx => before_iff.1 (ha x hx))
        (fun x hx => before_iff.1 (hb x hx)) (ih ?_ ?_ ?_ (enqueue_perm _ _).symm hf)
      · exact enqueue_sorted hrest fun g hg => (hseq g hg).ne
      · intro g hg
        rcases List.mem_cons.1 ((enqueue_perm _ _).mem_iff.1 hg) with rfl | hg
        · exact Nat.lt_succ_self _
        · exact (hseq g hg).trans (Nat.lt_succ_self _)
      · rw [(enqueue_perm _ _).length_eq]
        simpa using hlen

/-- The model's tree is the one that R121's loop leaves. -/
theorem merges_leafFragments {seq syms : List Word} (h : 1 ≤ syms.length) {f : Fragment}
    (hf : mergeFragments (syms.length - 1) syms.length (leafQueue seq 0 syms) = [f]) :
    Merges syms.length (leafFragments seq syms) f.tree := by
  have hperm := leafQueue_perm seq 0 syms
  simp only [Nat.zero_add] at hperm
  refine merges_of_mergeFragments (leafQueue_sorted seq 0 syms) (fun g hg => ?_) ?_ hperm.symm hf
  · have := leafQueue_seq hg
    omega
  · rw [leafQueue_length]
    omega

theorem mem_leafPaths_of_path? {i : Nat} {t : Tree} {u : Bits} (h : t.path? i = some u) : (i, u) ∈ leafPaths t := by
  induction t generalizing u with
  | leaf j =>
    obtain ⟨rfl, rfl⟩ := path?_leaf h
    exact List.mem_singleton.2 rfl
  | node l r ihl ihr =>
    rw [Tree.path?] at h
    simp only [leafPaths, List.mem_append, List.mem_map]
    split at h
    next v hv =>
      obtain rfl := Option.some.inj h
      exact .inl ⟨_, ihl hv, rfl⟩
    next =>
      split at h
      next v hv =>
        obtain rfl := Option.some.inj h
        exact .inr ⟨_, ihr hv, rfl⟩
      next => cases h

/-- The entries of the merged tree are those of R121's construction. -/
theorem huffmanTable_pathEntries {seq syms : List Word} (h2 : 2 ≤ syms.length) {f : Fragment}
    (hf : mergeFragments (syms.length - 1) syms.length (leafQueue seq 0 syms) = [f])
    (hp : f.tree.leaves.Perm (List.range syms.length)) : HuffmanTable seq syms (pathEntries [f] 0 syms) := by
  refine ⟨pathEntries_syms _ _ _, by omega, fun _ => ⟨f.tree, merges_leafFragments (by omega) hf, fun i hi => ?_⟩⟩
  exact mem_leafPaths_of_path? (path?_pathEntries hp hi)

theorem huffmanCodes_of_tree {c : Params} {seq : List Word} (h2 : 2 ≤ (distinctSymbols seq).length)
    (hm : (distinctSymbols seq).length ≤ c.maxSyms) {f : Fragment}
    (hf : mergeFragments ((distinctSymbols seq).length - 1) (distinctSymbols seq).length
      (leafQueue seq 0 (distinctSymbols seq)) = [f]) :
    huffmanCodes c seq =
      if c.maxCodeLen < maxLen (pathEntries [f] 0 (distinctSymbols seq)) then
        .error ⟨.codeTooLong, maxLen (pathEntries [f] 0 (distinctSymbols seq))⟩
      else .ok (pathEntries [f] 0 (distinctSymbols seq)) := by
  unfold huffmanCodes
  generalize distinctSymbols seq = syms at *
  match syms with
  | x :: y :: l =>
    simp only [if_neg (Nat.not_lt.2 hm)]
    rw [hf]

/-- With no more than MAX_SYMS symbols, HuffmanCodes answers the table of R121's construction, or CODE_TOO_LONG of its
longest code, which is below the symbol count. -/
theorem huffmanCodes_follows {c : Params} (hc : c.Legal) {seq syms : List Word} (hsyms : distinctSymbols seq = syms)
    (hm : syms.length ≤ c.maxSyms) :
    ∃ t, HuffmanTable seq syms t ∧ (maxLen t ≤ c.maxCodeLen → huffmanCodes c seq = .ok t) ∧
      (c.maxCodeLen < maxLen t → maxLen t < syms.length ∧ huffmanCodes c seq = .error ⟨.codeTooLong, maxLen t⟩) := by
  obtain ⟨_, _, _, hlen, _, _⟩ := hc
  rcases huffmanCodes_cases c seq syms hsyms with ⟨hfull, _⟩ | ⟨rfl, ho⟩ | ⟨x, rfl, _, ho⟩ | ⟨h2, _, _⟩
  · omega
  · exact ⟨[], ⟨rfl, by simp, by simp⟩, fun _ => ho, by simp [maxLen]⟩
  · exact ⟨_, ⟨rfl, by simp, by simp⟩, fun _ => ho, by simp [maxLen, Entry.len]; omega⟩
  · subst hsyms
    obtain ⟨f, hf, hp⟩ := mergeFragments_tree seq (distinctSymbols seq) (distinctSymbols seq).length (by omega)
    have hle := maxLen_pathEntries_le hp
    have ho := huffmanCodes_of_tree h2 hm hf
    exact ⟨_, huffmanTable_pathEntries h2 hf hp, fun h => ho.trans (if_neg (by omega)),
      fun h => ⟨by omega, ho.trans (if_pos h)⟩⟩

/-! ## HUF_BUILD (R120) -/

theorem maxLen_eq_foldr (t : Table) : maxLen t = (t.map Entry.len).foldr max 0 := by
  induction t with
  | nil => rfl
  | cons e t ih => rw [maxLen, ih, List.map_cons, List.foldr_cons]

/-- The results the model computes for a built table are those of the statements. -/
theorem buildResults_eq {t : Table} {seq : List Word} (ht : (t.map Entry.sym).Nodup) :
    buildResults t seq =
      { r0 := lo32 t.length, r1 := lo32 (totalLen t), r2 := lo32 (maxLen t), r3 := lo32 (encodedLen seq t),
        r4 := hi32 (encodedLen seq t) } := by
  have hhi : hi32 (encodedLen seq t) = BitVec.ofNat 32 (encodedLen seq t / 2 ^ 32) := lo32_eq_ofNat _
  rw [hhi, encodedLen_eq ht, totalLen_eq_sum, maxLen_eq_foldr, lo32_eq_ofNat t.length, lo32_eq_ofNat (List.sum _),
    lo32_eq_ofNat (List.foldr _ _ _)]
  rfl

theorem distinctSymbols_of_ascending {syms : List Word} (hs : syms.Pairwise fun x y => x.toNat < y.toNat) :
    distinctSymbols syms = syms := by
  induction syms with
  | nil => rfl
  | cons x xs ih =>
    obtain ⟨hx, hxs⟩ := List.pairwise_cons.1 hs
    rw [distinctSymbols, ih hxs]
    cases xs with
    | nil => rfl
    | cons y ys => exact if_pos (hx y List.mem_cons_self)

/-- A strictly ascending list of the symbols of a sequence is the list of R121. -/
theorem distinctSymbols_eq {seq syms : List Word} (hs : syms.Pairwise fun x y => x.toNat < y.toNat)
    (hmem : ∀ x, x ∈ syms ↔ x ∈ seq) : distinctSymbols seq = syms :=
  (distinctSymbols_congr fun x => (hmem x).symm).trans (distinctSymbols_of_ascending hs)

section
variable {s : State} (hd : s.disturbed = false) (hm : InMemory s s.args.a0.toNat (4 * s.args.a1.toNat))
include hd hm

theorem exec_hufBuild_of_ok {t : Table}
    (h : huffmanCodes s.cfg (s.engineMem.words s.args.a0.toNat s.args.a1.toNat) = .ok t) :
    exec .hufBuild s =
      .next (okState s s.mem (some t) (buildResults t (s.engineMem.words s.args.a0.toNat s.args.a1.toNat))) := by
  have hnodup : (t.map Entry.sym).Nodup := huffmanCodes_syms h ▸ distinctSymbols_nodup _
  refine exec_of_storingNothing hd (t := some t) ?_
  simp only [commandPlan, hufBuildPlan, checkRange_of_le hm, h, try_ok_bind, buildResults_eq hnodup, try_pure]

theorem exec_hufBuild_of_error {k : ErrKind} {n : Nat}
    (h : huffmanCodes s.cfg (s.engineMem.words s.args.a0.toNat s.args.a1.toNat) = .error ⟨k, n⟩) :
    exec .hufBuild s = .next (errState s none k n) := by
  refine exec_eq_errState hd ?_
  simp only [commandPlan, hufBuildPlan, checkRange_of_le hm, h, try_ok_bind, try_error_bind]

end

/-- Settles O34: few enough symbols make HuffmanCodes succeed, and its table has the sequence's symbols, ascending. -/
theorem hufBuildLoadsTableOfSequence : Obligations.HufBuildLoadsTableOfSequence := by
  rintro s _ hd rfl hm hsyms hlen
  obtain ⟨t, ht⟩ := huffmanCodes_succeeds hsyms hlen
  refine ⟨t, exec_hufBuild_of_ok hd hm ht, ?_, fun x => inTable_huffmanCodes_iff ht⟩
  have hasc := distinctSymbols_ascending (s.engineMem.words s.args.a0.toNat s.args.a1.toNat)
  rw [← huffmanCodes_syms ht, List.pairwise_map] at hasc
  exact List.pairwise_map.2 hasc

/-- Settles O35: the statement's symbols are the model's, and the model's queue in key order merges as R121 says. -/
theorem hufBuildFollowsHuffmanCodes : Obligations.HufBuildFollowsHuffmanCodes := by
  rintro s _ syms hc hd rfl hm hasc hmem
  have hsyms := distinctSymbols_eq hasc hmem
  refine ⟨fun t => exec_hufBuild_of_ok hd hm, fun hfull => ?_, fun hfits => ?_⟩
  · subst hsyms
    exact exec_hufBuild_of_error hd hm (huffmanCodes_of_tableFull hfull)
  · obtain ⟨t, htable, hok, hlong⟩ := huffmanCodes_follows hc hsyms hfits
    refine ⟨t, maxLen t, htable, maxLen_eq_foldr t, fun hn => exec_hufBuild_of_ok hd hm (hok hn), fun hn => ?_⟩
    obtain ⟨hlt, hraise⟩ := hlong hn
    exact ⟨hlt, exec_hufBuild_of_error hd hm hraise⟩

/-- Settles O36: validity, the Kraft sum and the length bound of what HuffmanCodes answers. -/
theorem builtTableIsACompletePrefixCode : Obligations.BuiltTableIsACompletePrefixCode := by
  intro c seq t hc h
  obtain ⟨hmany, hone⟩ := huffmanCodes_kraft h
  exact ⟨huffmanCodes_valid hc h, hmany, hone, fun e => huffmanCodes_len_le h⟩

/-- Settles O37: HuffmanCodes answers the same for both sequences, a table or an error. -/
theorem huffmanTableIgnoresOrder : Obligations.HuffmanTableIgnoresOrder := by
  intro s s' hcfg hd hd' hm hm' hperm
  have hcodes : huffmanCodes s'.cfg (s'.engineMem.words s'.args.a0.toNat s'.args.a1.toNat) =
      huffmanCodes s.cfg (s.engineMem.words s.args.a0.toNat s.args.a1.toNat) := by
    rw [← hcfg, huffmanCodes_of_perm s.cfg hperm]
  cases ht : huffmanCodes s.cfg (s.engineMem.words s.args.a0.toNat s.args.a1.toNat) with
  | ok t => exact ⟨_, _, exec_hufBuild_of_ok hd hm ht, exec_hufBuild_of_ok hd' hm' (hcodes.trans ht), rfl⟩
  | error r => exact ⟨_, _, exec_hufBuild_of_error hd hm ht, exec_hufBuild_of_error hd' hm' (hcodes.trans ht), rfl⟩

/-! ## Storing commands, in the terms of the statements (R213) -/

theorem not_overlaps_of_apart {a n b k : Nat} (h : Apart a n b k) : Range.overlaps ⟨a, n⟩ ⟨b, k⟩ = false := by
  rw [Bool.eq_false_iff, Ne, overlaps_iff]
  rintro ⟨x, hx, hx'⟩
  simp only [Apart, Range.Has] at *
  omega

/-- An undisturbed command that stores `y` at `d`, apart from its sources: `y` stands there, and no other byte changes. -/
theorem exec_storing_eq_okState {i : Instr} {s : State} {d : Nat} {y : List Byte} {r : Results} (hd : s.disturbed = false)
    (h : (commandPlan i s).outcome = .ok (storing d y r))
    (ho : ∀ q ∈ (commandPlan i s).sources, Range.overlaps ⟨d, y.length⟩ q = false) :
    ∃ m, exec i s = .next (okState s m s.table r) ∧ m.Holds d y ∧ SameOutside ⟨d, y.length⟩ s.mem m := by
  refine ⟨_, exec_of_storing hd h ho, Memory.holds_setCells _ _ _, fun a ha => Memory.byte_emitAt_outside _ _ _ _ ?_⟩
  simp only [Range.Has] at ha
  omega

/-! ## HUF_ENCODE (R124 to R126) -/

/-- RES0 and RES1 of HUF_ENCODE for `T` code bits (R126). -/
def encodeResults (T : Nat) : Results := { r0 := BitVec.ofNat 32 T, r1 := BitVec.ofNat 32 ((T + 7) / 8) }

theorem encodedBits_eq {s : State} {t : Table} (ht : s.table = some t)
    (hm : InMemory s s.args.a0.toNat (4 * s.args.a1.toNat)) :
    s.encodedBits = encodeSymbols t 0 (s.engineMem.words s.args.a0.toNat s.args.a1.toNat) := by
  simp only [State.encodedBits, requireTable_of_some ht, checkRange_of_le hm, try_ok_bind]

section
variable {s : State} (hd : s.disturbed = false)
include hd

theorem exec_hufEncode_of_error {k : ErrKind} {n : Nat} (h : s.encodedBits = .error ⟨k, n⟩) :
    exec .hufEncode s = .next (errState s s.table k n) := by
  refine exec_eq_errState hd ?_
  simp only [commandPlan, hufEncodePlan, h, try_error_bind]

variable {bs : Bits} (hbs : s.encodedBits = .ok bs)
include hbs

theorem exec_hufEncode_of_overflow (hT : 2 ^ 32 - 1 < bs.length) :
    exec .hufEncode s = .next (errState s s.table .bitcountOverflow 0) := by
  refine exec_eq_errState hd ?_
  simp only [commandPlan, hufEncodePlan, hbs, raiseIf_of hT, try_ok_bind, try_error_bind]

variable (hT : bs.length ≤ 2 ^ 32 - 1)
include hT

theorem exec_hufEncode_of_outOfMemory (hdst : OutOfMemory s s.args.a2.toNat ((bs.length + 7) / 8)) :
    exec .hufEncode s = .next (errState s s.table .addrRange s.args.a2.toNat) := by
  refine exec_eq_errState hd ?_
  simp only [commandPlan, hufEncodePlan, hbs, raiseIf_of_not (Nat.not_lt.2 hT), checkRange_of_outOfMemory hdst,
    try_ok_bind, try_error_bind]

/-- The packed codes land at dst (R126). -/
theorem exec_hufEncode_of_ok (hdst : InMemory s s.args.a2.toNat ((bs.length + 7) / 8))
    (ha : Apart s.args.a2.toNat ((bs.length + 7) / 8) s.args.a0.toNat (4 * s.args.a1.toNat)) :
    ∃ m, exec .hufEncode s = .next (okState s m s.table (encodeResults bs.length)) ∧
      m.Holds s.args.a2.toNat (pack bs) ∧ SameOutside ⟨s.args.a2.toNat, (bs.length + 7) / 8⟩ s.mem m := by
  have houtcome : (commandPlan .hufEncode s).outcome =
      .ok (storing s.args.a2.toNat (pack bs) (encodeResults bs.length)) := by
    simp only [commandPlan, hufEncodePlan, hbs, raiseIf_of_not (Nat.not_lt.2 hT), checkRange_of_le hdst, try_ok_bind,
      try_pure, lo32_eq_ofNat, encodeResults]
  obtain ⟨m, hexec, hholds, hsame⟩ := exec_storing_eq_okState hd houtcome
    (List.forall_mem_singleton.2 (by simpa using not_overlaps_of_apart ha))
  rw [pack_length] at hsame
  exact ⟨m, hexec, hholds, hsame⟩

end

/-- Settles O38: the packed codes read back bit by bit, their padding as 0. -/
theorem hufEncodeWritesConcatenatedCodes : Obligations.HufEncodeWritesConcatenatedCodes := by
  rintro s t _ _ _ _ _ hd ht rfl rfl rfl rfl hall rfl hT hm hdst ha
  have hbs := (encodedBits_eq ht hm).trans (encodeSymbols_of_inTable 0 hall)
  obtain ⟨m, hexec, hholds, hsame⟩ := exec_hufEncode_of_ok hd hbs hT hdst ha
  refine ⟨m, ht ▸ hexec, Memory.holdsBits_of_pack hholds, fun k hk hk' => ?_, hsame⟩
  rw [Memory.bit_of_pack hholds hk', List.getD_eq_default _ _ hk]

/-- Settles O39: the checks of the plan in their order. -/
theorem hufEncodeErrorsInOrder : Obligations.HufEncodeErrorsInOrder := by
  rintro s t _ _ _ _ hd ht rfl rfl rfl rfl hm
  rw [← ht]
  have hbits := encodedBits_eq ht hm
  refine ⟨fun i hi hx hb => ?_, fun hall => ?_, fun hall => ?_⟩
  · have hraise := hbits.trans (encodeSymbols_of_unknown 0 i hi hx hb)
    rw [Nat.zero_add] at hraise
    exact exec_hufEncode_of_error hd hraise
  · exact exec_hufEncode_of_overflow hd (hbits.trans (encodeSymbols_of_inTable 0 hall))
  · exact exec_hufEncode_of_outOfMemory hd (hbits.trans (encodeSymbols_of_inTable 0 hall))

/-! ## The walk over valid tables (R131) -/

section
variable {c : Params} {t : Table} (hv : TableValid c t) {seq : List Word} (hs : ∀ x ∈ seq, InTable t x)
include hv hs

/-- The walk of Enc(seq) followed by more bits: it decodes the rest from the root, after seq. -/
theorem decodeBits_enc_append (rest : Bits) :
    decodeBits t (enc t seq ++ rest) =
      (walkBits t (enc t seq).length (enc t seq).length [] rest).map (seq ++ ·) := by
  have hwalk := walkBits_enc hv.prefixFree (fun e he => (hv.lengths e he).1) hs 0 rest
  rw [Nat.zero_add] at hwalk
  rw [decodeBits, hwalk]
  cases walkBits t (enc t seq).length (enc t seq).length [] rest <;> rfl

theorem decodeBits_enc : decodeBits t (enc t seq) = .ok seq := by
  have h := decodeBits_enc_append hv hs []
  rw [List.append_nil] at h
  rw [h, walkBits, if_pos rfl, Except.map, List.append_nil]

/-- From the root to a node that is no leaf, or staying at the root (R131). -/
theorem decodeBits_enc_inside {w : Bits} (hw : w = [] ∨ ∃ e ∈ t, w <+: e.code ∧ w ≠ e.code) (rest : Bits) :
    decodeBits t (enc t seq ++ w ++ rest) =
      (walkBits t ((enc t seq).length + w.length) (enc t seq).length w rest).map (seq ++ ·) := by
  rw [List.append_assoc, decodeBits_enc_append hv hs]
  rcases hw with rfl | ⟨e, he, hpre, hne⟩
  · rfl
  · rw [walkBits_inside hv.prefixFree he _ _ [] w rest hpre hne, List.nil_append]

/-- Bits that end inside a code are truncated at the bit where the code began (R131). -/
theorem decodeBits_truncated {w : Bits} (hne : w ≠ []) (hw : ∃ e ∈ t, w <+: e.code ∧ w ≠ e.code) :
    decodeBits t (enc t seq ++ w) = .error ⟨.truncatedCode, (enc t seq).length⟩ := by
  have h := decodeBits_enc_inside hv hs (.inr hw) []
  rw [List.append_nil] at h
  rw [h, walkBits, if_neg hne, Except.map]

/-- A bit that leads to no node of the code tree is invalid (R131). -/
theorem decodeBits_invalid {w : Bits} (hw : w = [] ∨ ∃ e ∈ t, w <+: e.code ∧ w ≠ e.code) {b : Bool}
    (hb : ∀ e ∈ t, ¬ w ++ [b] <+: e.code) (rest : Bits) :
    decodeBits t (enc t seq ++ w ++ b :: rest) = .error ⟨.invalidCode, (enc t seq).length + w.length⟩ := by
  have hnode : ¬ t.hasNode (w ++ [b]) = true := by
    rw [hasNode_iff]
    rintro ⟨e, he, hpre⟩
    exact hb e he hpre
  rw [decodeBits_enc_inside hv hs hw, walkBits, if_neg hnode, Except.map]

end

/-! ## HUF_DECODE (R130) -/

theorem decodedSymbols_eq {s : State} {t : Table} {bs : Bits} (ht : s.table = some t)
    (hm : InMemory s s.args.a0.toNat ((s.args.a1.toNat + 7) / 8)) (hT : s.args.a1.toNat = bs.length)
    (hbits : s.engineMem.HoldsBits s.args.a0.toNat bs) : s.decodedSymbols = decodeBits t bs := by
  have hread : s.engineMem.bits s.args.a0.toNat s.args.a1.toNat = bs := by
    rw [hT, Memory.bits_of_holdsBits hbits]
  simp only [State.decodedSymbols, requireTable_of_some ht, checkRange_of_le hm, hread, try_ok_bind]

section
variable {s : State} (hd : s.disturbed = false)
include hd

theorem exec_hufDecode_of_error {k : ErrKind} {n : Nat} (h : s.decodedSymbols = .error ⟨k, n⟩) :
    exec .hufDecode s = .next (errState s s.table k n) := by
  refine exec_eq_errState hd ?_
  simp only [commandPlan, hufDecodePlan, h, try_error_bind]

variable {seq : List Word} (hseq : s.decodedSymbols = .ok seq)
include hseq

theorem exec_hufDecode_of_overflow (hcap : s.args.a3.toNat < seq.length) :
    exec .hufDecode s = .next (errState s s.table .dstOverflow seq.length) := by
  refine exec_eq_errState hd ?_
  simp only [commandPlan, hufDecodePlan, hseq, raiseIf_of hcap, try_ok_bind, try_error_bind]

variable (hcap : seq.length ≤ s.args.a3.toNat)
include hcap

theorem exec_hufDecode_of_outOfMemory (hdst : OutOfMemory s s.args.a2.toNat (4 * seq.length)) :
    exec .hufDecode s = .next (errState s s.table .addrRange s.args.a2.toNat) := by
  refine exec_eq_errState hd ?_
  simp only [commandPlan, hufDecodePlan, hseq, raiseIf_of_not (Nat.not_lt.2 hcap), checkRange_of_outOfMemory hdst,
    try_ok_bind, try_error_bind]

/-- The decoded symbols land at dst (R130). -/
theorem exec_hufDecode_of_ok (hdst : InMemory s s.args.a2.toNat (4 * seq.length))
    (ha : Apart s.args.a2.toNat (4 * seq.length) s.args.a0.toNat ((s.args.a1.toNat + 7) / 8)) :
    ∃ m, exec .hufDecode s = .next (okState s m s.table { r0 := BitVec.ofNat 32 seq.length }) ∧
      m.words s.args.a2.toNat seq.length = seq ∧ SameOutside ⟨s.args.a2.toNat, 4 * seq.length⟩ s.mem m := by
  have houtcome : (commandPlan .hufDecode s).outcome =
      .ok (storing s.args.a2.toNat (symbolBytes seq) { r0 := BitVec.ofNat 32 seq.length }) := by
    simp only [commandPlan, hufDecodePlan, hseq, raiseIf_of_not (Nat.not_lt.2 hcap), checkRange_of_le hdst, try_ok_bind,
      try_pure, lo32_eq_ofNat]
  obtain ⟨m, hexec, hholds, hsame⟩ := exec_storing_eq_okState hd houtcome
    (List.forall_mem_singleton.2 (by simpa using not_overlaps_of_apart ha))
  rw [symbolBytes_length] at hsame
  exact ⟨m, hexec, Memory.words_of_holds hholds, hsame⟩

end

/-- Settles O40: the bits decode to the sequence, whose bytes are stored. -/
theorem hufDecodeInvertsEncoding : Obligations.HufDecodeInvertsEncoding := by
  rintro s t seq _ _ _ _ hd ht hv rfl rfl rfl rfl hs hT hbits hcap hm hdst ha
  have hseq := (decodedSymbols_eq ht hm hT hbits).trans (decodeBits_enc hv hs)
  exact ht ▸ exec_hufDecode_of_ok hd hseq hcap hdst ha

/-- Settles O41: the walk stops at the named bit, or decodes the sequence, and then the destination is checked. -/
theorem hufDecodeErrorsInOrder : Obligations.HufDecodeErrorsInOrder := by
  rintro s t seq w _ _ _ _ hd ht hv rfl rfl rfl rfl hm hs
  rw [← ht]
  refine ⟨fun hne hw hT hbits => ?_, fun b rest hw hb hT hbits => ?_, fun hT hbits => ?_⟩
  · exact exec_hufDecode_of_error hd ((decodedSymbols_eq ht hm hT hbits).trans (decodeBits_truncated hv hs hne hw))
  · exact exec_hufDecode_of_error hd ((decodedSymbols_eq ht hm hT hbits).trans (decodeBits_invalid hv hs hw hb rest))
  · have hseq := (decodedSymbols_eq ht hm hT hbits).trans (decodeBits_enc hv hs)
    exact ⟨exec_hufDecode_of_overflow hd hseq, exec_hufDecode_of_outOfMemory hd hseq⟩

/-! ## The round trip (R132) -/

/-- The start of HUF_DECODE on what HUF_ENCODE, started in `s`, left in `t`: its source is the old destination, T is RES0. -/
def decodeStart (s t : State) (dst cap : Nat) : State :=
  { t with
    args := { t.args with a0 := s.args.a2, a1 := t.res.r0, a2 := BitVec.ofNat 32 dst, a3 := BitVec.ofNat 32 cap } }

/-- Settles O42: HUF_ENCODE leaves the codes in memory and their count in RES0, which is what HUF_DECODE reads. -/
theorem encodeThenDecodeWritesSequenceBack : Obligations.EncodeThenDecodeWritesSequenceBack := by
  refine ⟨?_, fun c seq tb h x => (inTable_huffmanCodes_iff h).2⟩
  intro s t tb seq src n out dst cap hd ht hv hsrc hn hout hseq hs hT hm hmout ha hexec hcap hcap32 hdst32 hmdst hadst
  obtain ⟨m, hencode, hbits, _, _⟩ :=
    hufEncodeWritesConcatenatedCodes s tb seq src n out _ hd ht hsrc hn hout hseq hs rfl hT hm hmout ha
  cases hexec.symm.trans hencode
  have hlen : seq.length = n := by rw [hseq, Memory.words_length]
  have hofNat : ∀ v < 2 ^ 32, v = (BitVec.ofNat 32 v).toNat := fun v h => by rw [BitVec.toNat_ofNat, Nat.mod_eq_of_lt h]
  obtain ⟨m', hdecode, hwords, _⟩ :=
    hufDecodeInvertsEncoding (decodeStart s (okState s m (some tb) (encodeResults (enc tb seq).length)) dst cap) tb seq
      out _ dst cap rfl rfl hv hout (hofNat _ (by omega)) (hofNat dst hdst32) (hofNat cap hcap32) hs rfl hbits
      (hlen.trans_le hcap) hmout (hlen ▸ hmdst) (hlen ▸ hadst)
  rw [hlen] at hdecode hwords
  exact ⟨_, hdecode, rfl, rfl, rfl, hwords⟩

end Sys2Proof.Machine
end

section
/-! PROOFS of the family 42_serial.md: BITSEQ_PACK and BITSEQ_UNPACK (R150 to R153, R160, R161), TBL_PACK and TBL_UNPACK
(R156 to R158, R166, R167), and the checks of ParseTable from top to bottom (R157). -/

open Sys2Proof.Claims

namespace Sys2Proof.Machine

/-! ## Counts and bit sequences, in the terms of the statements (R151, R153) -/

namespace Memory

section
variable {m : Memory} {a lim off : Nat}

theorem readCount_of_countAt {w v : Nat} (h : CountAt m a lim off w v) :
    m.readCount a lim off = .ok (v, off + 1 + w, w) := by
  obtain ⟨hw, hl, hbyte, rfl⟩ := h
  exact readCount_of_selector hbyte (mem_bufferWidths.1 hw) hl

theorem readCount_of_countFails {x : Raise} (h : CountFails m a lim off x) : m.readCount a lim off = .error x := by
  rcases h with ⟨hl, rfl⟩ | ⟨hl, hw, rfl⟩ | ⟨hl, hw, hcut, rfl⟩
  · exact readCount_of_end hl
  · exact readCount_of_badSelector hl rfl (mt mem_bufferWidths.2 hw)
  · exact readCount_of_cut hl rfl (mem_bufferWidths.1 hw) hcut

theorem countAt_or_countFails (m : Memory) (a lim off : Nat) :
    (∃ w v, CountAt m a lim off w v) ∨ ∃ x, CountFails m a lim off x := by
  by_cases hl : lim ≤ off
  · exact .inr ⟨_, .inl ⟨hl, rfl⟩⟩
  · by_cases hw : (m.byte (a + off)).toNat ∈ [1, 2, 4]
    · by_cases hcut : lim < off + 1 + (m.byte (a + off)).toNat
      · exact .inr ⟨_, .inr (.inr ⟨Nat.not_le.1 hl, hw, hcut, rfl⟩)⟩
      · exact .inl ⟨_, _, hw, Nat.not_lt.1 hcut, rfl, rfl⟩
    · exact .inr ⟨_, .inr (.inl ⟨Nat.not_le.1 hl, hw, rfl⟩)⟩

theorem parseBitSeq_of_bitsAt {w T : Nat} (h : BitsAt m a lim off w T) :
    m.parseBitSeq a lim off = .ok ⟨T, off + 1 + w, off + 1 + w + (T + 7) / 8, w⟩ := by
  obtain ⟨hcount, hl⟩ := h
  rw [parseBitSeq_of_readCount (readCount_of_countAt hcount), if_neg (Nat.not_lt.2 hl)]

theorem parseBitSeq_of_bitsFail {x : Raise} (h : BitsFail m a lim off x) : m.parseBitSeq a lim off = .error x := by
  rcases h with hcount | ⟨w, T, hcount, hl, rfl⟩
  · exact parseBitSeq_of_error (readCount_of_countFails hcount)
  · rw [parseBitSeq_of_readCount (readCount_of_countAt hcount), if_pos hl]

theorem bitsAt_or_bitsFail (m : Memory) (a lim off : Nat) :
    (∃ w T, BitsAt m a lim off w T) ∨ ∃ x, BitsFail m a lim off x := by
  rcases countAt_or_countFails m a lim off with ⟨w, T, hcount⟩ | ⟨x, hx⟩
  · by_cases hl : lim < off + 1 + w + (T + 7) / 8
    · exact .inr ⟨_, .inr ⟨w, T, hcount, hl, rfl⟩⟩
    · exact .inl ⟨w, T, hcount, Nat.not_lt.1 hl⟩
  · exact .inr ⟨x, .inl hx⟩

end

end Memory

/-! ## BITSEQ_PACK (R152, R160) -/

theorem bitSeqBytes_length (m : Memory) (a T : Nat) : (m.bitSeqBytes a T).length = 1 + sel T + (T + 7) / 8 := by
  rw [Memory.bitSeqBytes, bitSeqOf_length, Memory.bits_length]

/-- A bit sequence in memory: the selector, the count in that width, the bits, and 0 in the padding (R152). -/
theorem Memory.read_of_bitSeqOf {m : Memory} {a : Nat} {bs : Bits} (h : m.Holds a (bitSeqOf bs))
    (hT : bs.length < 2 ^ 32) :
    (m.byte a).toNat = sel bs.length ∧ m.read (a + 1) (sel bs.length) = bs.length ∧
      ∀ k < 8 * ((bs.length + 7) / 8), m.bit (a + 1 + sel bs.length) k = bs.getD k false := by
  obtain ⟨hcount, hbits⟩ := Memory.holds_append.1 h
  obtain ⟨hselector, hvalue⟩ := Memory.holds_cons.1 hcount
  rw [putCount_length, ← Nat.add_assoc] at hbits
  refine ⟨?_, Memory.read_of_holds hvalue (lt_of_sel hT), fun k => Memory.bit_of_pack hbits⟩
  have hw := sel_cases bs.length
  rw [hselector, BitVec.toNat_ofNat]
  omega

theorem Memory.bits_getD (m : Memory) (a T k : Nat) :
    (m.bits a T).getD k false = if k < T then m.bit a k else false := by
  split
  next h => rw [List.getD_eq_getElem _ _ (by simpa using h), Memory.bits_getElem]
  next h => rw [List.getD_eq_default _ _ (by simpa using h)]

section
variable {s : State} (hd : s.disturbed = false) (hm : InMemory s s.args.a0.toNat ((s.args.a1.toNat + 7) / 8))
include hd hm

theorem exec_bitseqPack_of_outOfMemory
    (hdst : OutOfMemory s s.args.a2.toNat (1 + sel s.args.a1.toNat + (s.args.a1.toNat + 7) / 8)) :
    exec .bitseqPack s = .next (errState s s.table .addrRange s.args.a2.toNat) := by
  refine exec_eq_errState hd ?_
  rw [← bitSeqBytes_length s.engineMem s.args.a0.toNat] at hdst
  simp only [commandPlan, bitseqPackPlan, checkRange_of_le hm, checkRange_of_outOfMemory hdst, try_ok_bind,
    try_error_bind]

/-- The serialized bit string lands at dst (R160). -/
theorem exec_bitseqPack_of_ok
    (hdst : InMemory s s.args.a2.toNat (1 + sel s.args.a1.toNat + (s.args.a1.toNat + 7) / 8))
    (ha : Apart s.args.a2.toNat (1 + sel s.args.a1.toNat + (s.args.a1.toNat + 7) / 8) s.args.a0.toNat
      ((s.args.a1.toNat + 7) / 8)) :
    ∃ m, exec .bitseqPack s = .next (okState s m s.table
          { r0 := BitVec.ofNat 32 (1 + sel s.args.a1.toNat + (s.args.a1.toNat + 7) / 8) }) ∧
      m.Holds s.args.a2.toNat (s.engineMem.bitSeqBytes s.args.a0.toNat s.args.a1.toNat) ∧
      SameOutside ⟨s.args.a2.toNat, 1 + sel s.args.a1.toNat + (s.args.a1.toNat + 7) / 8⟩ s.mem m := by
  rw [← bitSeqBytes_length s.engineMem s.args.a0.toNat] at hdst ha ⊢
  refine exec_storing_eq_okState hd ?_ (List.forall_mem_singleton.2 (not_overlaps_of_apart ha))
  simp only [commandPlan, bitseqPackPlan, checkRange_of_le hm, checkRange_of_le hdst, try_ok_bind, try_pure,
    lo32_eq_ofNat]

end

/-- Settles O43: the width of the statement is Sel(T), and the stored bytes read back part by part. -/
theorem bitseqPackWritesLengthPrefixedBits : Obligations.BitseqPackWritesLengthPrefixedBits := by
  rintro s _ _ _ _ hd rfl rfl rfl rfl hm
  refine ⟨fun hdst ha => ?_, exec_bitseqPack_of_outOfMemory hd hm⟩
  obtain ⟨m, hexec, hholds, hsame⟩ := exec_bitseqPack_of_ok hd hm hdst ha
  obtain ⟨hselector, hcount, hbits⟩ := Memory.read_of_bitSeqOf hholds (by simpa using s.args.a1.isLt)
  simp only [Memory.bits_length, Memory.bits_getD] at hselector hcount hbits
  refine ⟨m, hexec, hselector, hcount, fun k hk => ?_, fun k hk hk' => ?_, hsame⟩
  · exact (hbits k (by omega)).trans (if_pos hk)
  · exact (hbits k hk').trans (if_neg (Nat.not_lt.2 hk))

/-! ## BITSEQ_UNPACK (R161) -/

section
variable {s : State} (hd : s.disturbed = false) (hm : InMemory s s.args.a0.toNat s.args.a1.toNat)
include hd hm

theorem exec_bitseqUnpack_of_bitsAt {w T : Nat} (h : BitsAt s.engineMem s.args.a0.toNat s.args.a1.toNat 0 w T) :
    exec .bitseqUnpack s = .next (okState s s.mem s.table
      { r0 := BitVec.ofNat 32 T, r1 := BitVec.ofNat 32 (0 + 1 + w + (T + 7) / 8),
        r2 := lo32 (s.args.a0.toNat + (0 + 1 + w)) }) := by
  refine exec_of_storingNothing (t := none) hd ?_
  simp only [commandPlan, bitseqUnpackPlan, checkRange_of_le hm, Memory.parseBitSeq_of_bitsAt h, try_ok_bind, try_pure,
    lo32_eq_ofNat]

theorem exec_bitseqUnpack_of_bitsFail {k : ErrKind} {n : Nat}
    (h : BitsFail s.engineMem s.args.a0.toNat s.args.a1.toNat 0 ⟨k, n⟩) :
    exec .bitseqUnpack s = .next (errState s s.table k n) := by
  refine exec_eq_errState hd ?_
  simp only [commandPlan, bitseqUnpackPlan, checkRange_of_le hm, Memory.parseBitSeq_of_bitsFail h, try_ok_bind,
    try_error_bind]

end

/-- A count with a legal selector at the source address itself (R151). -/
theorem countAt_zero {m : Memory} {a lim : Nat} (hw : (m.byte a).toNat ∈ [1, 2, 4]) (hl : 1 + (m.byte a).toNat ≤ lim) :
    CountAt m a lim 0 (m.byte a).toNat (m.read (a + 1) (m.byte a).toNat) :=
  ⟨hw, by omega, rfl, rfl⟩

/-- Settles O44: the source holds a count and its bits, so ParseBitSeq answers them. -/
theorem bitseqUnpackParsesLengthPrefixedBits : Obligations.BitseqUnpackParsesLengthPrefixedBits := by
  rintro s _ _ _ _ hd rfl rfl hm _ rfl hw hl rfl hbits
  have h := exec_bitseqUnpack_of_bitsAt hd hm ⟨countAt_zero hw hl, by simpa using hbits⟩
  rwa [Nat.zero_add, ← Nat.add_assoc] at h

/-- Settles O45: each condition is one way in which ParseBitSeq fails. -/
theorem bitseqUnpackErrorsInOrder : Obligations.BitseqUnpackErrorsInOrder := by
  rintro s _ _ _ hd rfl rfl hm rfl
  refine ⟨fun h0 => ?_, fun hl hw => ?_, fun hl hw hcut => ?_, fun hw hl hcut => ?_⟩
  · exact exec_bitseqUnpack_of_bitsFail hd hm (.inl (.inl ⟨h0.le, rfl⟩))
  · exact exec_bitseqUnpack_of_bitsFail hd hm (.inl (.inr (.inl ⟨hl, hw, rfl⟩)))
  · exact exec_bitseqUnpack_of_bitsFail hd hm (.inl (.inr (.inr ⟨hl, hw, by simpa using hcut, rfl⟩)))
  · exact exec_bitseqUnpack_of_bitsFail hd hm
      (.inr ⟨_, _, countAt_zero hw hl, by simpa using hcut, by rw [Nat.zero_add]⟩)

/-! ## TBL_PACK (R156, R166) -/

/-- |TableBytes()| by the formula of R156. -/
theorem tableBytes_length_eq (t : Table) : (tableBytes t).length =
    (1 + sel t.length) + 4 * t.length + (1 + sel (t.map Entry.len).sum + ((t.map Entry.len).sum + 7) / 8) +
      sel (t.map Entry.len).sum * (t.length + 1) := by
  rw [tableBytes_length, allCodes_length]

section
variable {s : State} {t : Table} (hd : s.disturbed = false) (ht : s.table = some t)
include hd ht

theorem exec_tblPack_of_outOfMemory (hdst : OutOfMemory s s.args.a0.toNat (tableBytes t).length) :
    exec .tblPack s = .next (errState s (some t) .addrRange s.args.a0.toNat) := by
  rw [← ht]
  refine exec_eq_errState hd ?_
  simp only [commandPlan, tblPackPlan, requireTable_of_some ht, checkRange_of_outOfMemory hdst, try_ok_bind,
    try_error_bind]

/-- The table's serialization lands at dst; TBL_PACK has no source range (R166). -/
theorem exec_tblPack_of_ok (hdst : InMemory s s.args.a0.toNat (tableBytes t).length) :
    ∃ m, exec .tblPack s = .next (okState s m (some t) { r0 := BitVec.ofNat 32 (tableBytes t).length }) ∧
      m.Holds s.args.a0.toNat (tableBytes t) ∧ SameOutside ⟨s.args.a0.toNat, (tableBytes t).length⟩ s.mem m := by
  rw [← ht]
  refine exec_storing_eq_okState hd ?_ (List.forall_mem_nil _)
  simp only [commandPlan, tblPackPlan, requireTable_of_some ht, checkRange_of_le hdst, try_ok_bind, try_pure,
    lo32_eq_ofNat]

end

/-- Settles O46: the length of the statement is that of TableBytes, which is never empty. -/
theorem tblPackWritesTableBytes : Obligations.TblPackWritesTableBytes := by
  rintro s t _ _ len hd ht rfl rfl hlen
  have hpos : 0 < len := by omega
  obtain rfl : len = (tableBytes t).length := hlen.trans (tableBytes_length_eq t).symm
  refine ⟨fun hdst => ?_, fun hdst => exec_tblPack_of_outOfMemory hd ht ⟨hpos, hdst⟩⟩
  obtain ⟨m, hexec, hholds, hsame⟩ := exec_tblPack_of_ok hd ht (.inr hdst)
  exact ⟨m, hexec, rfl, hholds, hsame⟩

/-! ## TBL_UNPACK and FRAME_UNPACK load valid tables (R41, R157, R167) -/

section
variable {s : State} (hd : s.disturbed = false) (hm : InMemory s s.args.a0.toNat s.args.a1.toNat)
include hd hm

theorem exec_tblUnpack_of_ok {t : Table} {stop : Nat}
    (h : s.engineMem.parseTable s.cfg s.args.a0.toNat s.args.a1.toNat 0 = .ok (t, stop)) :
    exec .tblUnpack s = .next
      (okState s s.mem (some t) { r0 := BitVec.ofNat 32 stop, r1 := BitVec.ofNat 32 t.length }) := by
  refine exec_of_storingNothing (t := some t) hd ?_
  simp only [commandPlan, tblUnpackPlan, checkRange_of_le hm, h, try_ok_bind, try_pure, lo32_eq_ofNat]

theorem exec_tblUnpack_of_error {k : ErrKind} {n : Nat}
    (h : s.engineMem.parseTable s.cfg s.args.a0.toNat s.args.a1.toNat 0 = .error ⟨k, n⟩) :
    exec .tblUnpack s = .next (errState s none k n) := by
  refine exec_eq_errState hd ?_
  simp only [commandPlan, tblUnpackPlan, checkRange_of_le hm, h, try_ok_bind, try_error_bind]

end

/-- Settles O47: ParseTable gives a serialized valid table back (R158 (c)). -/
theorem tblUnpackRestoresPackedTable : Obligations.TblUnpackRestoresPackedTable := by
  rintro s t _ _ hc hd hv rfl rfl hm hl hholds
  have hparse := Memory.parseTable_of_tableBytes (lim := s.args.a1.toNat) (off := 0) hc hv hholds (by simpa using hl)
  rw [Nat.zero_add] at hparse
  exact exec_tblUnpack_of_ok hd hm hparse

/-- If TBL_UNPACK or FRAME_UNPACK succeeds, it loads a table that ParseTable let through. -/
theorem unpack_loads_valid {i : Instr} {s : State} {e : Effect} (hi : i = .tblUnpack ∨ i = .frameUnpack)
    (h : (commandPlan i s).outcome = .ok e) : ∃ t, e.table = some t ∧ TableValid s.cfg t := by
  rcases hi with rfl | rfl
  · simp only [commandPlan, tblUnpackPlan, try_bind_eq_ok, try_pure] at h
    obtain ⟨_, _, t, hparse, h⟩ := h
    cases h
    exact ⟨_, rfl, Memory.parseTable_valid hparse⟩
  · simp only [commandPlan, frameUnpackPlan, try_bind_eq_ok, try_pure] at h
    obtain ⟨_, _, _, _, _, _, t, hparse, _, _, _, _, _, _, _, _, _, _, h⟩ := h
    cases h
    exact ⟨_, rfl, Memory.parseTable_valid hparse⟩

/-- Settles O48: a success loads a valid table and an error leaves none, disturbed or not. -/
theorem unpackedTablesAreValid : Obligations.UnpackedTablesAreValid := by
  intro i s hi
  refine ⟨_, exec_eq_complete i s, fun tb htb => ?_⟩
  cases ho : (commandPlan i s).outcome with
  | ok e =>
    obtain ⟨t, het, hvalid⟩ := unpack_loads_valid hi ho
    rw [State.complete_ok ho, State.completeOk_table, het] at htb
    cases htb
    exact hvalid
  | error x =>
    rw [State.complete_error ho, State.raiseError_table, if_pos ((loadsTable_eq i s).2 (.inr hi))] at htb
    cases htb

/-- A check for inequality lets equal values through. -/
theorem raiseIf_ne_of_eq {x y : Nat} {r : Raise} (h : x = y) : raiseIf (x ≠ y) r = .ok () :=
  raiseIf_of_not (not_not.2 h)

/-! ## The table ParseTable reads (R157) -/

theorem symAt_lt (m : Memory) (a p i : Nat) : symAt m a p i < 2 ^ 32 := m.read_lt _ 4

/-- Entry i, read from the symbols at p, the code bits at q and the offsets at r. -/
def tableEntry (m : Memory) (a p q r w i : Nat) : Entry := ⟨BitVec.ofNat 32 (symAt m a p i), codeAt m a q r w i⟩

/-- The n entries read there. -/
def readTable (m : Memory) (a n p q r w : Nat) : Table := (List.range n).map (tableEntry m a p q r w)

@[simp] theorem readTable_length (m : Memory) (a n p q r w : Nat) : (readTable m a n p q r w).length = n := by
  simp [readTable]

@[simp] theorem readTable_getElem {m : Memory} {a n p q r w i : Nat} (h : i < (readTable m a n p q r w).length) :
    (readTable m a n p q r w)[i] = tableEntry m a p q r w i := by
  simp [readTable]

@[simp] theorem tableEntry_sym (m : Memory) (a p q r w i : Nat) :
    (tableEntry m a p q r w i).sym.toNat = symAt m a p i := by
  rw [tableEntry, BitVec.toNat_ofNat, Nat.mod_eq_of_lt (symAt_lt m a p i)]

@[simp] theorem tableEntry_code (m : Memory) (a p q r w i : Nat) :
    (tableEntry m a p q r w i).code = codeAt m a q r w i := rfl

/-- A table with those symbols and codes is that table. -/
theorem eq_readTable {m : Memory} {a n p q r w : Nat} {t : Table} (hn : t.length = n)
    (ht : ∀ i (h : i < t.length), t[i].sym.toNat = symAt m a p i ∧ t[i].code = codeAt m a q r w i) :
    t = readTable m a n p q r w := by
  refine List.ext_getElem (by simpa using hn) fun i h h' => ?_
  obtain ⟨hsym, hcode⟩ := ht i h
  rw [readTable_getElem, tableEntry, ← hsym, ← hcode, BitVec.ofNat_toNat, BitVec.setWidth_eq]

namespace Memory

theorem words_getElem_toNat {m : Memory} {a p n i : Nat} (h : i < (m.words (a + p) n).length) :
    (m.words (a + p) n)[i].toNat = symAt m a p i := by
  rw [words_getElem, BitVec.toNat_ofNat, ← symAt, Nat.mod_eq_of_lt (symAt_lt m a p i)]

theorem offsets_getElem_eq_offAt {m : Memory} {a r w n j : Nat} (h : j < (m.offsets (a + r) w n).length) :
    (m.offsets (a + r) w n)[j] = offAt m a r w j := offsets_getElem _ _ _ _ _ h

theorem headD_offsets (m : Memory) (a r w n : Nat) : (m.offsets (a + r) w (n + 1)).headD 0 = offAt m a r w 0 := rfl

theorem getLastD_offsets (m : Memory) (a r w n : Nat) :
    (m.offsets (a + r) w (n + 1)).getLastD 0 = offAt m a r w n := by
  rw [List.getLastD_eq_getLast?, List.getLast?_eq_getElem?, offsets_length, Nat.add_sub_cancel,
    List.getElem?_eq_getElem (by simp), Option.getD_some, offsets_getElem_eq_offAt]

/-- Bits o .. o + d − 1 of a packed bit string. -/
theorem take_drop_bits (m : Memory) (a : Nat) {o d T : Nat} (h : o + d ≤ T) :
    ((m.bits a T).drop o).take d = (List.range d).map fun k => m.bit a (o + k) := by
  refine List.ext_getElem (by simp; omega) fun k hk hk' => ?_
  simp [bits_getElem]

/-! ### The symbol order -/

theorem checkOrder_words_of_ascending {m : Memory} {a p n : Nat}
    (h : ∀ i, i + 1 < n → symAt m a p i < symAt m a p (i + 1)) : checkOrder p 1 (m.words (a + p) n) = .ok () := by
  refine checkOrder_of_ascending fun k hk => ?_
  rw [words_getElem_toNat, words_getElem_toNat]
  exact h k (by simpa using hk)

theorem checkOrder_words_of_first {m : Memory} {a p n i : Nat} (hi : i + 1 < n)
    (hbefore : ∀ j < i, symAt m a p j < symAt m a p (j + 1)) (h : symAt m a p (i + 1) ≤ symAt m a p i) :
    checkOrder p 1 (m.words (a + p) n) = .error ⟨.tableOrder, p + 4 * (i + 1)⟩ := by
  rw [Nat.add_comm i 1]
  refine checkOrder_of_first (by simpa using hi) (fun j hj => ?_) ?_
  · simpa only [words_getElem_toNat] using hbefore j hj
  · simpa only [words_getElem_toNat] using h

/-! ### The offsets and the codes they cut -/

section
variable {c : Params} {m : Memory} {a n p q r w : Nat}

theorem checkSteps_offsets_of_good (h : StepsGood c m a r w n) :
    checkSteps c r w 1 (m.offsets (a + r) w (n + 1)) = .ok () := by
  refine checkSteps_of_good fun k hk => ?_
  rw [offsets_getElem_eq_offAt, offsets_getElem_eq_offAt]
  exact h k (by simpa using hk)

/-- The first step that is too small or too large is the one reported. -/
theorem checkSteps_offsets_of_first {j : Nat} (hj : j < n) (hbefore : StepsGood c m a r w j) :
    (offAt m a r w (j + 1) ≤ offAt m a r w j →
        checkSteps c r w 1 (m.offsets (a + r) w (n + 1)) = .error ⟨.badOffsets, r + w * (j + 1)⟩) ∧
      (offAt m a r w j + c.maxCodeLen < offAt m a r w (j + 1) →
        checkSteps c r w 1 (m.offsets (a + r) w (n + 1)) =
          .error ⟨.codeTooLong, offAt m a r w (j + 1) - offAt m a r w j⟩) := by
  have h := checkSteps_of_first (c := c) (r := r) (w := w) (i := 1) (k := j) (l := m.offsets (a + r) w (n + 1))
    (by simpa using hj) (fun i hi => by simpa only [offsets_getElem_eq_offAt] using hbefore i hi)
  simpa only [offsets_getElem_eq_offAt, Nat.add_comm 1 j] using h

theorem offAt_le_of_stepsGood (h : StepsGood c m a r w n) {i : Nat} (hi : i ≤ n) :
    offAt m a r w i ≤ offAt m a r w n := by
  induction n with
  | zero => rw [Nat.le_zero.1 hi]
  | succ n ih =>
    rcases Nat.le_succ_iff.1 hi with hi | rfl
    · exact (ih (fun k hk => h k (Nat.lt_succ_of_lt hk)) hi).trans (h n (Nat.lt_succ_self n)).1.le
    · exact le_rfl

/-- Offsets that rise to the bit count cut the bits into the codes of R157. -/
theorem cutEntries_eq_readTable (h : StepsGood c m a r w n) :
    cutEntries (m.bits (a + q) (offAt m a r w n)) (m.words (a + p) n) (m.offsets (a + r) w (n + 1)) =
      readTable m a n p q r w := by
  refine List.ext_getElem (by simp) fun i hi hi' => ?_
  rw [readTable_length] at hi'
  have hrise := (h i hi').1
  have hlast : offAt m a r w (i + 1) ≤ offAt m a r w n := offAt_le_of_stepsGood h hi'
  rw [cutEntries_getElem _ _ _ _ (by simpa using hi') (by simpa using hi'), readTable_getElem]
  simp only [offsets_getElem_eq_offAt]
  rw [take_drop_bits _ _ (by omega), words_getElem]
  rfl

/-! ### Prefix-free codes -/

theorem prefixRelated_entries {i j : Nat} :
    prefixRelated (tableEntry m a p q r w i).code (tableEntry m a p q r w j).code = true ↔ Related m a q r w i j :=
  prefixRelated_eq_true

theorem checkPrefixFree_readTable (h : ∀ j < n, ∀ i < j, ¬ Related m a q r w i j) :
    checkPrefixFree 0 [] (readTable m a n p q r w) = .ok () := by
  refine checkPrefixFree_eq_ok.2 ⟨by simp, List.pairwise_iff_getElem.2 fun i j hi hj hij => ?_⟩
  rw [readTable_length] at hj
  simpa [Related] using h j hj i hij

theorem mem_take_readTable {k : Nat} (hk : k ≤ n) {d : Entry} :
    d ∈ [] ++ (readTable m a n p q r w).take k ↔ ∃ i < k, tableEntry m a p q r w i = d := by
  rw [List.nil_append, readTable, ← List.map_take, List.take_range, min_eq_left hk, List.mem_map]
  simp only [List.mem_range]

/-- The first code related to one before it is the one reported. -/
theorem checkPrefixFree_readTable_of_first {j : Nat} (hj : j < n) (hrel : ∃ i < j, Related m a q r w i j)
    (hbefore : ∀ k < j, ∀ i < k, ¬ Related m a q r w i k) :
    checkPrefixFree 0 [] (readTable m a n p q r w) = .error ⟨.notPrefixFree, j⟩ := by
  have h := checkPrefixFree_of_first (i := 0) (k := j) (before := []) (t := readTable m a n p q r w) (by simpa using hj)
    (fun k hk d hd => ?_) ?_
  · rwa [Nat.zero_add] at h
  · obtain ⟨i, hi, rfl⟩ := (mem_take_readTable (hk.trans hj).le).1 hd
    rw [readTable_getElem, ← Bool.not_eq_true, prefixRelated_entries]
    exact hbefore k hk i hi
  · obtain ⟨i, hi, hrel⟩ := hrel
    refine ⟨_, (mem_take_readTable hj.le).2 ⟨i, hi, rfl⟩, ?_⟩
    rwa [readTable_getElem, prefixRelated_entries]

end

/-! ## ParseTable in three parts (R157): the count, the symbols, and the codes with their offsets -/

/-- R157 behind the code bits b: the offsets, the cut, and the check for related codes, for n symbols from p on. -/
def parseCodes (c : Params) (m : Memory) (a lim n p : Nat) (b : BitSeq) : Try (Table × Nat) := do
  raiseIf (b.stop + b.width * (n + 1) > lim) ⟨.truncated, b.stop⟩
  let offs := m.offsets (a + b.stop) b.width (n + 1)
  raiseIf (offs.headD 0 ≠ 0) ⟨.badOffsets, b.stop⟩
  checkSteps c b.stop b.width 1 offs
  raiseIf (offs.getLastD 0 ≠ b.count) ⟨.badOffsets, b.stop + b.width * n⟩
  let t := cutEntries (m.bits (a + b.payload) b.count) (m.words (a + p) n) offs
  checkPrefixFree 0 [] t
  pure (t, b.stop + b.width * (n + 1))

/-- R157 behind the count: the n symbols from p on, and what follows them. -/
def parseSymbols (c : Params) (m : Memory) (a lim n p : Nat) : Try (Table × Nat) := do
  raiseIf (n > c.maxSyms) ⟨.tableFull, n⟩
  raiseIf (p + 4 * n > lim) ⟨.truncated, p⟩
  checkOrder p 1 (m.words (a + p) n)
  let b ← m.parseBitSeq a lim (p + 4 * n)
  m.parseCodes c a lim n p b

section
variable {c : Params} {m : Memory} {a lim off n p : Nat}

theorem parseTable_of_countAt {wn : Nat} (h : CountAt m a lim off wn n) :
    m.parseTable c a lim off = m.parseSymbols c a lim n (off + 1 + wn) := by
  rw [parseTable, readCount_of_countAt h]
  rfl

theorem parseTable_of_countFails {x : Raise} (h : CountFails m a lim off x) : m.parseTable c a lim off = .error x := by
  rw [parseTable, readCount_of_countFails h, try_error_bind]

/-! ### The symbols -/

theorem parseSymbols_of_tableFull (h : c.maxSyms < n) : m.parseSymbols c a lim n p = .error ⟨.tableFull, n⟩ := by
  rw [parseSymbols, raiseIf_of h, try_error_bind]

section
variable (hn : n ≤ c.maxSyms)
include hn

theorem parseSymbols_of_truncated (h : lim < p + 4 * n) : m.parseSymbols c a lim n p = .error ⟨.truncated, p⟩ := by
  rw [parseSymbols, raiseIf_of_not (Nat.not_lt.2 hn), try_ok_bind, raiseIf_of h, try_error_bind]

variable (hl : p + 4 * n ≤ lim)
include hl

theorem parseSymbols_of_order {i : Nat} (hi : i + 1 < n) (hbefore : ∀ j < i, symAt m a p j < symAt m a p (j + 1))
    (h : symAt m a p (i + 1) ≤ symAt m a p i) :
    m.parseSymbols c a lim n p = .error ⟨.tableOrder, p + 4 * (i + 1)⟩ := by
  rw [parseSymbols, raiseIf_of_not (Nat.not_lt.2 hn), try_ok_bind, raiseIf_of_not (Nat.not_lt.2 hl), try_ok_bind,
    checkOrder_words_of_first hi hbefore h, try_error_bind]

theorem parseSymbols_of_ascending (h : ∀ i, i + 1 < n → symAt m a p i < symAt m a p (i + 1)) :
    m.parseSymbols c a lim n p = m.parseBitSeq a lim (p + 4 * n) >>= m.parseCodes c a lim n p := by
  rw [parseSymbols, raiseIf_of_not (Nat.not_lt.2 hn), try_ok_bind, raiseIf_of_not (Nat.not_lt.2 hl), try_ok_bind,
    checkOrder_words_of_ascending h, try_ok_bind]

end

/-! ### The codes -/

section
variable {T q r w : Nat}

theorem parseCodes_of_truncated (h : lim < r + w * (n + 1)) :
    m.parseCodes c a lim n p ⟨T, q, r, w⟩ = .error ⟨.truncated, r⟩ := by
  rw [parseCodes, raiseIf_of h, try_error_bind]

variable (hl : r + w * (n + 1) ≤ lim)
include hl

theorem parseCodes_of_firstOffset (h0 : offAt m a r w 0 ≠ 0) :
    m.parseCodes c a lim n p ⟨T, q, r, w⟩ = .error ⟨.badOffsets, r⟩ := by
  simp only [parseCodes, raiseIf_of_not (Nat.not_lt.2 hl), raiseIf_of ((headD_offsets m a r w n).trans_ne h0),
    try_ok_bind, try_error_bind]

variable (h0 : offAt m a r w 0 = 0)
include h0

theorem parseCodes_of_steps {x : Raise} (h : checkSteps c r w 1 (m.offsets (a + r) w (n + 1)) = .error x) :
    m.parseCodes c a lim n p ⟨T, q, r, w⟩ = .error x := by
  simp only [parseCodes, raiseIf_of_not (Nat.not_lt.2 hl), raiseIf_ne_of_eq ((headD_offsets m a r w n).trans h0), h,
    try_ok_bind, try_error_bind]

variable (hs : StepsGood c m a r w n)
include hs

theorem parseCodes_of_lastOffset (hT : offAt m a r w n ≠ T) :
    m.parseCodes c a lim n p ⟨T, q, r, w⟩ = .error ⟨.badOffsets, r + w * n⟩ := by
  simp only [parseCodes, raiseIf_of_not (Nat.not_lt.2 hl), raiseIf_ne_of_eq ((headD_offsets m a r w n).trans h0),
    checkSteps_offsets_of_good hs, raiseIf_of ((getLastD_offsets m a r w n).trans_ne hT), try_ok_bind, try_error_bind]

variable (hT : offAt m a r w n = T)
include hT

/-- With good offsets, only the check for related codes is left, on the table R157 reads. -/
theorem parseCodes_of_stepsGood :
    m.parseCodes c a lim n p ⟨T, q, r, w⟩ =
      (checkPrefixFree 0 [] (readTable m a n p q r w)).map fun _ => (readTable m a n p q r w, r + w * (n + 1)) := by
  have hcut := cutEntries_eq_readTable (p := p) (q := q) hs
  rw [hT] at hcut
  simp only [parseCodes, raiseIf_of_not (Nat.not_lt.2 hl), raiseIf_ne_of_eq ((headD_offsets m a r w n).trans h0),
    checkSteps_offsets_of_good hs, raiseIf_ne_of_eq ((getLastD_offsets m a r w n).trans hT), hcut, try_ok_bind]
  cases checkPrefixFree 0 [] (readTable m a n p q r w) <;> rfl

theorem parseCodes_of_prefixFree (hp : ∀ j < n, ∀ i < j, ¬ Related m a q r w i j) :
    m.parseCodes c a lim n p ⟨T, q, r, w⟩ = .ok (readTable m a n p q r w, r + w * (n + 1)) := by
  rw [parseCodes_of_stepsGood hl h0 hs hT, checkPrefixFree_readTable hp, Except.map]

theorem parseCodes_of_related {j : Nat} (hj : j < n) (hrel : ∃ i < j, Related m a q r w i j)
    (hbefore : ∀ k < j, ∀ i < k, ¬ Related m a q r w i k) :
    m.parseCodes c a lim n p ⟨T, q, r, w⟩ = .error ⟨.notPrefixFree, j⟩ := by
  rw [parseCodes_of_stepsGood hl h0 hs hT, checkPrefixFree_readTable_of_first hj hrel hbefore, Except.map]

end

theorem parseCodes_of_offsetsFail {T q r w : Nat} {x : Raise} (hl : r + w * (n + 1) ≤ lim)
    (h : OffsetsFail c m a n T q r w x) : m.parseCodes c a lim n p ⟨T, q, r, w⟩ = .error x := by
  rcases h with ⟨h0, rfl⟩ | ⟨h0, ⟨j, hj, hbefore, hstep⟩ | ⟨hs, hT, rfl⟩ | ⟨hs, hT, j, hj, hrel, hbefore, rfl⟩⟩
  · exact parseCodes_of_firstOffset hl h0
  · obtain ⟨hsmall, hlarge⟩ := checkSteps_offsets_of_first hj hbefore
    rcases hstep with ⟨hle, rfl⟩ | ⟨hgt, rfl⟩
    · exact parseCodes_of_steps hl h0 (hsmall hle)
    · exact parseCodes_of_steps hl h0 (hlarge hgt)
  · exact parseCodes_of_lastOffset hl h0 hs hT
  · exact parseCodes_of_related hl h0 hs hT hj hrel hbefore

/-! ### The whole table -/

theorem parseTable_of_tableAt {t : Table} {stop : Nat} (h : TableAt c m a lim off t stop) :
    m.parseTable c a lim off = .ok (t, stop) := by
  obtain ⟨wn, n, p, w, T, q, r, hcount, rfl, hn, hasc, hbits, rfl, rfl, hl, h0, hs, hT, hp, htn, ht, rfl⟩ := h
  have hsyms : off + 1 + wn + 4 * n ≤ lim := by
    obtain ⟨-, hbits⟩ := hbits
    omega
  rw [parseTable_of_countAt hcount, parseSymbols_of_ascending hn hsyms hasc, parseBitSeq_of_bitsAt hbits, try_ok_bind,
    parseCodes_of_prefixFree hl h0 hs hT hp, ← eq_readTable htn ht]

theorem parseTable_of_tableFails {x : Raise} (h : TableFails c m a lim off x) :
    m.parseTable c a lim off = .error x := by
  rcases h with hcount | ⟨wn, n, _, hcount, rfl, hx⟩
  · exact parseTable_of_countFails hcount
  rw [parseTable_of_countAt hcount]
  rcases hx with ⟨hfull, rfl⟩ | ⟨hn, hcut, rfl⟩ | ⟨hn, hl, i, hi, hbefore, hle, rfl⟩ | ⟨hn, hl, hasc, hx⟩
  · exact parseSymbols_of_tableFull hfull
  · exact parseSymbols_of_truncated hn hcut
  · exact parseSymbols_of_order hn hl hi hbefore hle
  rw [parseSymbols_of_ascending hn hl hasc]
  rcases hx with hbits | ⟨w, T, _, _, hbits, rfl, rfl, hx⟩
  · rw [parseBitSeq_of_bitsFail hbits, try_error_bind]
  rw [parseBitSeq_of_bitsAt hbits, try_ok_bind]
  rcases hx with ⟨hcut, rfl⟩ | ⟨hl, hx⟩
  · exact parseCodes_of_truncated hcut
  · exact parseCodes_of_offsetsFail hl hx

end

/-! ### One of the two always holds -/

theorem stepsGood_or_first (c : Params) (m : Memory) (a r w n : Nat) :
    StepsGood c m a r w n ∨ ∃ j < n, StepsGood c m a r w j ∧
      (offAt m a r w (j + 1) ≤ offAt m a r w j ∨ offAt m a r w j + c.maxCodeLen < offAt m a r w (j + 1)) := by
  rcases all_or_first (fun i => offAt m a r w i < offAt m a r w (i + 1) ∧
    offAt m a r w (i + 1) ≤ offAt m a r w i + c.maxCodeLen) n with h | ⟨j, hj, hbad, hbefore⟩
  · exact .inl h
  · exact .inr ⟨j, hj, hbefore, by omega⟩

theorem prefixFree_or_first (m : Memory) (a n q r w : Nat) :
    (∀ j < n, ∀ i < j, ¬ Related m a q r w i j) ∨
      ∃ j < n, (∃ i < j, Related m a q r w i j) ∧ ∀ k < j, ∀ i < k, ¬ Related m a q r w i k := by
  rcases all_or_first (fun j => ∀ i < j, ¬ Related m a q r w i j) n with h | ⟨j, hj, hbad, hbefore⟩
  · exact .inl h
  · exact .inr ⟨j, hj, by simpa using hbad, hbefore⟩

theorem ascending_or_first (m : Memory) (a p n : Nat) :
    (∀ i, i + 1 < n → symAt m a p i < symAt m a p (i + 1)) ∨
      ∃ i, i + 1 < n ∧ (∀ j < i, symAt m a p j < symAt m a p (j + 1)) ∧ symAt m a p (i + 1) ≤ symAt m a p i := by
  rcases all_or_first (fun i => symAt m a p i < symAt m a p (i + 1)) (n - 1) with h | ⟨i, hi, hbad, hbefore⟩
  · exact .inl fun i hi => h i (by omega)
  · exact .inr ⟨i, by omega, hbefore, Nat.not_lt.1 hbad⟩

/-- The offsets and codes pass every check, or one fails first. -/
theorem offsetsGood_or_offsetsFail (c : Params) (m : Memory) (a n T q r w : Nat) :
    (offAt m a r w 0 = 0 ∧ StepsGood c m a r w n ∧ offAt m a r w n = T ∧
        ∀ j < n, ∀ i < j, ¬ Related m a q r w i j) ∨
      ∃ x, OffsetsFail c m a n T q r w x := by
  by_cases h0 : offAt m a r w 0 = 0
  · rcases stepsGood_or_first c m a r w n with hs | ⟨j, hj, hbefore, hsmall | hlarge⟩
    · by_cases hT : offAt m a r w n = T
      · rcases prefixFree_or_first m a n q r w with hp | ⟨j, hj, hrel, hbefore⟩
        · exact .inl ⟨h0, hs, hT, hp⟩
        · exact .inr ⟨_, .inr ⟨h0, .inr (.inr ⟨hs, hT, j, hj, hrel, hbefore, rfl⟩)⟩⟩
      · exact .inr ⟨_, .inr ⟨h0, .inr (.inl ⟨hs, hT, rfl⟩)⟩⟩
    · exact .inr ⟨_, .inr ⟨h0, .inl ⟨j, hj, hbefore, .inl ⟨hsmall, rfl⟩⟩⟩⟩
    · exact .inr ⟨_, .inr ⟨h0, .inl ⟨j, hj, hbefore, .inr ⟨hlarge, rfl⟩⟩⟩⟩
  · exact .inr ⟨_, .inl ⟨h0, rfl⟩⟩

/-- Either every check of ParseTable passes, or one fails first (R157, top to bottom). -/
theorem tableAt_or_tableFails (c : Params) (m : Memory) (a lim off : Nat) :
    (∃ t stop, TableAt c m a lim off t stop) ∨ ∃ x, TableFails c m a lim off x := by
  rcases (countAt_or_countFails m a lim off).symm with ⟨x, hx⟩ | ⟨wn, n, hcount⟩
  · exact .inr ⟨x, .inl hx⟩
  obtain ⟨p, hp⟩ : ∃ p, p = off + 1 + wn := ⟨_, rfl⟩
  rcases Nat.lt_or_ge c.maxSyms n with hfull | hn
  · exact .inr ⟨_, .inr ⟨wn, n, p, hcount, hp, .inl ⟨hfull, rfl⟩⟩⟩
  rcases Nat.lt_or_ge lim (p + 4 * n) with hcut | hsyms
  · exact .inr ⟨_, .inr ⟨wn, n, p, hcount, hp, .inr (.inl ⟨hn, hcut, rfl⟩)⟩⟩
  rcases (ascending_or_first m a p n).symm with ⟨i, hi, hbefore, hle⟩ | hasc
  · exact .inr ⟨_, .inr ⟨wn, n, p, hcount, hp, .inr (.inr (.inl ⟨hn, hsyms, i, hi, hbefore, hle, rfl⟩))⟩⟩
  rcases (bitsAt_or_bitsFail m a lim (p + 4 * n)).symm with ⟨x, hx⟩ | ⟨w, T, hbits⟩
  · exact .inr ⟨x, .inr ⟨wn, n, p, hcount, hp, .inr (.inr (.inr ⟨hn, hsyms, hasc, .inl hx⟩))⟩⟩
  obtain ⟨q, hq⟩ : ∃ q, q = p + 4 * n + 1 + w := ⟨_, rfl⟩
  obtain ⟨r, hr⟩ : ∃ r, r = q + (T + 7) / 8 := ⟨_, rfl⟩
  have hfail : ∀ x, (lim < r + w * (n + 1) ∧ x = ⟨.truncated, r⟩) ∨
      (r + w * (n + 1) ≤ lim ∧ OffsetsFail c m a n T q r w x) → TableFails c m a lim off x := fun x hx =>
    .inr ⟨wn, n, p, hcount, hp, .inr (.inr (.inr ⟨hn, hsyms, hasc, .inr ⟨w, T, q, r, hbits, hq, hr, hx⟩⟩))⟩
  rcases Nat.lt_or_ge lim (r + w * (n + 1)) with hcut | hl
  · exact .inr ⟨_, hfail _ (.inl ⟨hcut, rfl⟩)⟩
  rcases (offsetsGood_or_offsetsFail c m a n T q r w).symm with ⟨x, hx⟩ | ⟨h0, hs, hT, hfree⟩
  · exact .inr ⟨x, hfail x (.inr ⟨hl, hx⟩)⟩
  · exact .inl ⟨readTable m a n p q r w, _, wn, n, p, w, T, q, r, hcount, hp, hn, hasc, hbits, hq, hr, hl, h0, hs, hT,
      hfree, by simp, by simp, rfl⟩

end Memory

/-- Settles O49: ParseTable answers the table its bytes spell or the first failing check's error, and one of the two
always holds. -/
theorem tblUnpackParsesOrRaisesTheFirstError : Obligations.TblUnpackParsesOrRaisesTheFirstError := by
  rintro s _ _ hd rfl rfl hm
  exact ⟨fun t stop h => exec_tblUnpack_of_ok hd hm (Memory.parseTable_of_tableAt h),
    fun x h => exec_tblUnpack_of_error hd hm (Memory.parseTable_of_tableFails h),
    Memory.tableAt_or_tableFails _ _ _ _ _⟩

end Sys2Proof.Machine
end

section
/-! PROOFS of the family 43_frame.md: FRAME_PACK (R180 to R182), FRAME_UNPACK (R185), and the frame round trip (R187). -/

open Sys2Proof.Claims

namespace Sys2Proof.Machine

/-! ## The layout (R180) -/

@[simp] theorem frameBytes_length (blob : List Byte) (p q w h : Nat) (palette : List Byte) :
    (frameBytes blob p q w h palette).length = 20 + blob.length + palette.length := by
  simp only [frameBytes, List.length_append, leBytes_length]
  omega

theorem not_badGeometry {p q w h : Nat} (hp : 1 ≤ p) (hq : 1 ≤ q) (hw : w % q = 0) (hh : h % p = 0) :
    ¬ BadGeometry p q w h := by
  simp only [BadGeometry, hw, hh]
  omega

/-- The parts of a frame at their offsets from `a` (R180). -/
structure FrameAt (m : Memory) (a : Nat) (blob : List Byte) (p q w h : Nat) (palette : List Byte) : Prop where
  readSize : m.read a 4 = blob.length
  holdsBlob : m.Holds (a + 4) blob
  readP : m.read (a + (4 + blob.length)) 4 = p
  readQ : m.read (a + (4 + blob.length) + 4) 4 = q
  readW : m.read (a + (4 + blob.length) + 8) 4 = w
  readH : m.read (a + (4 + blob.length) + 12) 4 = h
  holdsPalette : m.Holds (a + (4 + blob.length) + 16) palette

/-- A frame whose numbers fit their u32 fields reads back part by part. -/
theorem frameAt_of_holds {m : Memory} {a p q w h : Nat} {blob palette : List Byte}
    (hf : m.Holds a (frameBytes blob p q w h palette)) (hS : blob.length < 2 ^ 32) (hp : p < 2 ^ 32) (hq : q < 2 ^ 32)
    (hw : w < 2 ^ 32) (hh : h < 2 ^ 32) : FrameAt m a blob p q w h palette := by
  simp only [frameBytes, Memory.holds_append, List.length_append, leBytes_length] at hf
  obtain ⟨⟨⟨⟨⟨⟨hsize, hblob⟩, hfp⟩, hfq⟩, hfw⟩, hfh⟩, hpalette⟩ := hf
  exact ⟨Memory.read_of_holds hsize hS, hblob, Memory.read_of_holds hfp hp, Memory.read_of_holds hfq hq,
    Memory.read_of_holds hfw hw, Memory.read_of_holds hfh hh, hpalette⟩

/-! ## FRAME_PACK (R182) -/

/-- The Huffman blob of FRAME_PACK: the table and the code bits at csrc. -/
def packedBlob (s : State) (t : Table) : List Byte :=
  tableBytes t ++ s.engineMem.bitSeqBytes s.args.a1.toNat s.args.a2.toNat

/-- K · 3·p·q, the palette bytes of FRAME_PACK. -/
def paletteLen (s : State) : Nat := s.args.a4.toNat * (3 * s.blkP.toNat * s.blkQ.toNat)

/-- The frame F of FRAME_PACK. -/
def packedFrame (s : State) (t : Table) : List Byte :=
  frameBytes (packedBlob s t) s.blkP.toNat s.blkQ.toNat s.imgW.toNat s.imgH.toNat
    (s.engineMem.bytes s.args.a3.toNat (paletteLen s))

/-- RES0 and RES1 of FRAME_PACK: |F| and S. -/
def packResults (s : State) (t : Table) : Results :=
  { r0 := lo32 (packedFrame s t).length, r1 := lo32 (packedBlob s t).length }

theorem packedBlob_length (s : State) (t : Table) : (packedBlob s t).length =
    (tableBytes t).length + (1 + sel s.args.a2.toNat + (s.args.a2.toNat + 7) / 8) := by
  rw [packedBlob, List.length_append, bitSeqBytes_length]

theorem packedFrame_length (s : State) (t : Table) :
    (packedFrame s t).length = 20 + (packedBlob s t).length + paletteLen s := by
  rw [packedFrame, frameBytes_length, Memory.bytes_length]

section
variable {s : State} {t : Table} (ht : s.table = some t)
include ht

theorem framePack_raises_badGeometry
    (hg : BadGeometry s.blkP.toNat s.blkQ.toNat s.imgW.toNat s.imgH.toNat) :
    (commandPlan .framePack s).outcome = .error ⟨.badGeometry, 0⟩ := by
  simp only [commandPlan, framePackPlan, requireTable_of_some ht, raiseIf_of hg, try_ok_bind, try_error_bind]

/-- FRAME_PACK succeeds exactly when its four checks pass, and then stores the frame. -/
theorem framePack_eq_ok_iff {e : Effect} :
    (commandPlan .framePack s).outcome = .ok e ↔
      ¬ BadGeometry s.blkP.toNat s.blkQ.toNat s.imgW.toNat s.imgH.toNat ∧
        InMemory s s.args.a1.toNat ((s.args.a2.toNat + 7) / 8) ∧ InMemory s s.args.a3.toNat (paletteLen s) ∧
        InMemory s s.args.a0.toNat (20 + (packedBlob s t).length + paletteLen s) ∧
        e = storing s.args.a0.toNat (packedFrame s t) (packResults s t) := by
  simp only [commandPlan, framePackPlan, requireTable_of_some ht, try_ok_bind, try_bind_eq_ok, raiseIf_eq_ok,
    checkRange_eq_ok, try_pure, exists_const, Except.ok.injEq, eq_comm (a := e)]
  rfl

variable (hg : ¬ BadGeometry s.blkP.toNat s.blkQ.toNat s.imgW.toNat s.imgH.toNat)
include hg

theorem framePack_raises_addrRange_of_code (hc : OutOfMemory s s.args.a1.toNat ((s.args.a2.toNat + 7) / 8)) :
    (commandPlan .framePack s).outcome = .error ⟨.addrRange, s.args.a1.toNat⟩ := by
  simp only [commandPlan, framePackPlan, requireTable_of_some ht, raiseIf_of_not hg, checkRange_of_outOfMemory hc,
    try_ok_bind, try_error_bind]

variable (hc : InMemory s s.args.a1.toNat ((s.args.a2.toNat + 7) / 8))
include hc

theorem framePack_raises_addrRange_of_palette (hp : OutOfMemory s s.args.a3.toNat (paletteLen s)) :
    (commandPlan .framePack s).outcome = .error ⟨.addrRange, s.args.a3.toNat⟩ := by
  have hcheck := checkRange_of_outOfMemory hp
  unfold paletteLen at hcheck
  simp only [commandPlan, framePackPlan, requireTable_of_some ht, raiseIf_of_not hg, checkRange_of_le hc, hcheck,
    try_ok_bind, try_error_bind]

theorem framePack_raises_addrRange_of_frame (hp : InMemory s s.args.a3.toNat (paletteLen s))
    (hf : OutOfMemory s s.args.a0.toNat (20 + (packedBlob s t).length + paletteLen s)) :
    (commandPlan .framePack s).outcome = .error ⟨.addrRange, s.args.a0.toNat⟩ := by
  have hcheck := checkRange_of_outOfMemory hf
  unfold packedBlob paletteLen at hcheck
  unfold paletteLen at hp
  simp only [commandPlan, framePackPlan, requireTable_of_some ht, raiseIf_of_not hg, checkRange_of_le hc,
    checkRange_of_le hp, hcheck, try_ok_bind, try_error_bind]

end

/-- Settles O51: the checks of the plan in their order. -/
theorem framePackErrorsInOrder : Obligations.FramePackErrorsInOrder := by
  rintro s t _ _ _ _ _ _ _ _ hd ht rfl rfl rfl rfl rfl rfl rfl rfl
  rw [← ht, ← packedBlob_length]
  refine ⟨fun hg => exec_eq_errState hd (framePack_raises_badGeometry ht hg), fun hp hq hw hh => ?_⟩
  have hg := not_badGeometry hp hq hw hh
  exact ⟨fun hc => exec_eq_errState hd (framePack_raises_addrRange_of_code ht hg hc),
    fun hc hpal => exec_eq_errState hd (framePack_raises_addrRange_of_palette ht hg hc hpal),
    fun hc hpal hf => exec_eq_errState hd (framePack_raises_addrRange_of_frame ht hg hc hpal hf)⟩

/-- A successful FRAME_PACK whose ranges are apart leaves the frame at dst, and no other byte changes (R182). -/
theorem exec_framePack_of_ok {s : State} {t : Table} {e : Effect} (hd : s.disturbed = false) (ht : s.table = some t)
    (he : (commandPlan .framePack s).outcome = .ok e)
    (hc : Apart s.args.a0.toNat (20 + (packedBlob s t).length + paletteLen s) s.args.a1.toNat ((s.args.a2.toNat + 7) / 8))
    (hp : Apart s.args.a0.toNat (20 + (packedBlob s t).length + paletteLen s) s.args.a3.toNat (paletteLen s)) :
    ∃ m, exec .framePack s = .next (okState s m (some t) (packResults s t)) ∧
      m.Holds s.args.a0.toNat (packedFrame s t) ∧
      SameOutside ⟨s.args.a0.toNat, 20 + (packedBlob s t).length + paletteLen s⟩ s.mem m := by
  obtain ⟨_, _, _, _, rfl⟩ := (framePack_eq_ok_iff ht).1 he
  rw [← packedFrame_length] at hc hp ⊢
  rw [← ht]
  refine exec_storing_eq_okState hd he (List.forall_mem_cons.2 ⟨not_overlaps_of_apart hc, ?_⟩)
  exact List.forall_mem_singleton.2 (not_overlaps_of_apart hp)

/-- What FRAME_PACK writes is a frame (R180): S and the operands fit their fields. -/
theorem frameAt_of_packedFrame {s : State} {t : Table} {m : Memory} {a : Nat} (hm : m.Holds a (packedFrame s t))
    (hS : (packedBlob s t).length < 2 ^ 32) :
    FrameAt m a (packedBlob s t) s.blkP.toNat s.blkQ.toNat s.imgW.toNat s.imgH.toNat
      (s.engineMem.bytes s.args.a3.toNat (paletteLen s)) :=
  frameAt_of_holds hm hS s.blkP.isLt s.blkQ.isLt s.imgW.isLt s.imgH.isLt

/-- Bytes copied from another memory. -/
theorem Memory.byte_of_holds_bytes {m m' : Memory} {a b n : Nat} (h : m.Holds a (m'.bytes b n)) {j : Nat} (hj : j < n) :
    m.byte (a + j) = m'.byte (b + j) := by
  rw [h j (by simpa using hj), Memory.bytes_getElem]

/-- Settles O50: the frame lands at dst, and its parts read back at the offsets of R180. -/
theorem framePackLaysOutTheFrame : Obligations.FramePackLaysOutTheFrame := by
  rintro s t _ _ _ _ _ _ _ _ hcfg hd ht rfl rfl rfl rfl rfl rfl rfl hp hq hw hh rfl hc hpal hf hac hap
  rw [← packedBlob_length] at hf hac hap ⊢
  have ⟨_, hbytes, _⟩ := hcfg
  obtain ⟨m, hexec, hholds, hsame⟩ := exec_framePack_of_ok hd ht
    ((framePack_eq_ok_iff ht).2 ⟨not_badGeometry hp hq hw hh, hc, hpal, .inr hf, rfl⟩) hac hap
  have hframe := frameAt_of_packedFrame hholds (by omega)
  rw [packResults, packedFrame_length, lo32_eq_ofNat (packedBlob s t).length] at hexec
  refine ⟨m, hexec, hframe.readSize, hframe.holdsBlob, ?_⟩
  simp only [Nat.add_assoc s.args.a0.toNat 4]
  exact ⟨hframe.readP, hframe.readQ, hframe.readW, hframe.readH,
    fun j hj => Memory.byte_of_holds_bytes hframe.holdsPalette hj, hsame⟩

/-! ## FRAME_UNPACK (R185) -/

/-- RES0..RES7 of FRAME_UNPACK: the code's address and count, the palette's address and count, p, q and the image size. -/
def unpackResults (code T palette k p q w h : Nat) : Results :=
  { r0 := lo32 code, r1 := lo32 T, r2 := lo32 palette, r3 := lo32 k, r4 := lo32 p, r5 := lo32 q, r6 := lo32 w,
    r7 := lo32 h }

theorem unpackResults_eq (code T palette k p q w h : Nat) :
    unpackResults code T palette k p q w h =
      { r0 := BitVec.ofNat 32 (code % 2 ^ 32), r1 := BitVec.ofNat 32 T, r2 := BitVec.ofNat 32 (palette % 2 ^ 32),
        r3 := BitVec.ofNat 32 k, r4 := BitVec.ofNat 32 p, r5 := BitVec.ofNat 32 q, r6 := BitVec.ofNat 32 w,
        r7 := BitVec.ofNat 32 h } := by
  rw [unpackResults, lo32_eq_ofNat T, lo32_eq_ofNat k, lo32_eq_ofNat p, lo32_eq_ofNat q, lo32_eq_ofNat w,
    lo32_eq_ofNat h]
  rfl

namespace Memory

/-- R185 behind the code bits `b`: the end of the blob, the header at offset `h`, and the palette size. -/
def parseHeader (m : Memory) (src len h : Nat) (t : Table) (b : BitSeq) : Try Effect := do
  raiseIf (b.stop ≠ h) ⟨.sizeMismatch, b.stop⟩
  raiseIf (h + 16 > len) ⟨.truncated, h⟩
  let p := m.read (src + h) 4
  let q := m.read (src + h + 4) 4
  let w := m.read (src + h + 8) 4
  let ht := m.read (src + h + 12) 4
  raiseIf (BadGeometry p q w ht) ⟨.badFrameGeometry, h⟩
  let rest := len - (h + 16)
  raiseIf (rest % (3 * p * q) ≠ 0) ⟨.paletteRemainder, h + 16⟩
  pure (storingNothing
    (unpackResults (src + b.payload) b.count (src + h + 16) (rest / (3 * p * q)) p q w ht) (some t))

section
variable {m : Memory} {src len h : Nat} {t : Table} {b : BitSeq}

theorem parseHeader_of_sizeMismatch (hb : b.stop ≠ h) :
    m.parseHeader src len h t b = .error ⟨.sizeMismatch, b.stop⟩ := by
  rw [parseHeader, raiseIf_of hb, try_error_bind]

variable (hb : b.stop = h)
include hb

theorem parseHeader_of_truncated (hl : len < h + 16) : m.parseHeader src len h t b = .error ⟨.truncated, h⟩ := by
  rw [parseHeader, raiseIf_ne_of_eq hb, try_ok_bind, raiseIf_of hl, try_error_bind]

variable (hl : h + 16 ≤ len) {p q w ht : Nat} (hp : p = m.read (src + h) 4) (hq : q = m.read (src + h + 4) 4)
  (hw : w = m.read (src + h + 8) 4) (hh : ht = m.read (src + h + 12) 4)
include hl hp hq hw hh

theorem parseHeader_of_badGeometry (hg : BadGeometry p q w ht) :
    m.parseHeader src len h t b = .error ⟨.badFrameGeometry, h⟩ := by
  subst hp hq hw hh
  simp only [parseHeader, raiseIf_ne_of_eq hb, raiseIf_of_not (Nat.not_lt.2 hl), raiseIf_of hg, try_ok_bind,
    try_error_bind]

variable (hg : ¬ BadGeometry p q w ht)
include hg

theorem parseHeader_of_remainder (hr : (len - (h + 16)) % (3 * p * q) ≠ 0) :
    m.parseHeader src len h t b = .error ⟨.paletteRemainder, h + 16⟩ := by
  subst hp hq hw hh
  simp only [parseHeader, raiseIf_ne_of_eq hb, raiseIf_of_not (Nat.not_lt.2 hl), raiseIf_of_not hg, raiseIf_of hr,
    try_ok_bind, try_error_bind]

theorem parseHeader_of_good (hr : (len - (h + 16)) % (3 * p * q) = 0) :
    m.parseHeader src len h t b = .ok (storingNothing
      (unpackResults (src + b.payload) b.count (src + h + 16) ((len - (h + 16)) / (3 * p * q)) p q w ht) (some t)) := by
  subst hp hq hw hh
  simp only [parseHeader, raiseIf_ne_of_eq hb, raiseIf_of_not (Nat.not_lt.2 hl), raiseIf_of_not hg,
    raiseIf_ne_of_eq hr, try_ok_bind, try_pure]

end

end Memory

section
variable {s : State} (hm : InMemory s s.args.a0.toNat s.args.a1.toNat)
include hm

theorem frameUnpack_raises_truncated (hl : s.args.a1.toNat < 4) :
    (commandPlan .frameUnpack s).outcome = .error ⟨.truncated, 0⟩ := by
  simp only [commandPlan, frameUnpackPlan, checkRange_of_le hm, raiseIf_of hl, try_ok_bind, try_error_bind]

variable {S : Nat} (hS : S = s.engineMem.read s.args.a0.toNat 4)
include hS

theorem frameUnpack_raises_truncated_of_blob (h4 : 4 ≤ s.args.a1.toNat) (hl : s.args.a1.toNat < 4 + S) :
    (commandPlan .frameUnpack s).outcome = .error ⟨.truncated, 4⟩ := by
  subst hS
  simp only [commandPlan, frameUnpackPlan, checkRange_of_le hm, raiseIf_of_not (Nat.not_lt.2 h4), raiseIf_of hl,
    try_ok_bind, try_error_bind]

variable (hl : 4 + S ≤ s.args.a1.toNat)
include hl

/-- With the blob inside the source, FRAME_UNPACK is the parsers of 42_serial.md below 4 + S, and then the header. -/
theorem frameUnpack_outcome_eq :
    (commandPlan .frameUnpack s).outcome =
      s.engineMem.parseTable s.cfg s.args.a0.toNat (4 + S) 4 >>= fun x =>
        s.engineMem.parseBitSeq s.args.a0.toNat (4 + S) x.2 >>=
          s.engineMem.parseHeader s.args.a0.toNat s.args.a1.toNat (4 + S) x.1 := by
  have h4 : 4 ≤ s.args.a1.toNat := by omega
  subst hS
  simp only [commandPlan, frameUnpackPlan, checkRange_of_le hm, raiseIf_of_not (Nat.not_lt.2 h4),
    raiseIf_of_not (Nat.not_lt.2 hl), try_ok_bind]
  rfl

theorem frameUnpack_raises_of_table {x : Raise}
    (hx : s.engineMem.parseTable s.cfg s.args.a0.toNat (4 + S) 4 = .error x) :
    (commandPlan .frameUnpack s).outcome = .error x := by
  rw [frameUnpack_outcome_eq hm hS hl, hx, try_error_bind]

variable {t : Table} {off : Nat} (ht : s.engineMem.parseTable s.cfg s.args.a0.toNat (4 + S) 4 = .ok (t, off))
include ht

theorem frameUnpack_raises_of_bits {x : Raise}
    (hx : s.engineMem.parseBitSeq s.args.a0.toNat (4 + S) off = .error x) :
    (commandPlan .frameUnpack s).outcome = .error x := by
  rw [frameUnpack_outcome_eq hm hS hl, ht, try_ok_bind, hx, try_error_bind]

theorem frameUnpack_outcome_eq_parseHeader {b : BitSeq}
    (hb : s.engineMem.parseBitSeq s.args.a0.toNat (4 + S) off = .ok b) :
    (commandPlan .frameUnpack s).outcome =
      s.engineMem.parseHeader s.args.a0.toNat s.args.a1.toNat (4 + S) t b := by
  rw [frameUnpack_outcome_eq hm hS hl, ht, try_ok_bind, hb, try_ok_bind]

end

/-- Settles O53: the plan's checks in their order, the table and the code bits being what their parsers answer. -/
theorem frameUnpackParsesOrRaisesTheFirstError : Obligations.FrameUnpackParsesOrRaisesTheFirstError := by
  rintro s _ _ S hd rfl rfl hm hS
  refine ⟨fun hl => ?_, fun h4 hl => ?_, fun hl => ⟨fun x hx => ?_, fun tb off htb => ?_⟩⟩
  · exact exec_eq_errState hd (frameUnpack_raises_truncated hm hl)
  · exact exec_eq_errState hd (frameUnpack_raises_truncated_of_blob hm hS h4 hl)
  · exact exec_eq_errState hd (frameUnpack_raises_of_table hm hS hl (Memory.parseTable_of_tableFails hx))
  have ht := Memory.parseTable_of_tableAt htb
  refine ⟨fun x hx => ?_, ?_⟩
  · exact exec_eq_errState hd (frameUnpack_raises_of_bits hm hS hl ht (Memory.parseBitSeq_of_bitsFail hx))
  rintro wt T _ p q w h _ hbits rfl hp hq hw hh rfl
  rw [Nat.add_assoc s.args.a0.toNat] at hp hq hw hh
  have hheader := frameUnpack_outcome_eq_parseHeader hm hS hl ht (Memory.parseBitSeq_of_bitsAt hbits)
  refine ⟨fun hb => ?_, fun hb hcut => ?_, fun hb hl16 hg => ?_, fun hb hl16 hp1 hq1 hwq hhp => ?_⟩
  · exact exec_eq_errState hd (hheader.trans (Memory.parseHeader_of_sizeMismatch hb))
  · exact exec_eq_errState hd (hheader.trans (Memory.parseHeader_of_truncated hb hcut))
  · exact exec_eq_errState hd (hheader.trans (Memory.parseHeader_of_badGeometry hb hl16 hp hq hw hh hg))
  have hg := not_badGeometry hp1 hq1 hwq hhp
  refine ⟨fun hr => ?_, fun hr => ?_⟩
  · exact exec_eq_errState hd (hheader.trans (Memory.parseHeader_of_remainder hb hl16 hp hq hw hh hg hr))
  · rw [exec_of_storingNothing hd (hheader.trans (Memory.parseHeader_of_good hb hl16 hp hq hw hh hg hr))]
    simp only [unpackResults_eq, Nat.add_assoc]
    rfl

/-! ## A frame that FRAME_PACK could have written (R180, R187) -/

/-- The bits of a blob's code section. -/
theorem Memory.holdsBits_of_blob {m : Memory} {a : Nat} {t : Table} {code : Bits}
    (h : m.Holds a (tableBytes t ++ bitSeqOf code)) :
    m.HoldsBits (a + (tableBytes t).length + 1 + sel code.length) code := by
  rw [Nat.add_assoc _ 1]
  exact Memory.holdsBits_of_bitSeqOf (Memory.holds_append.1 h).2

/-- FRAME_UNPACK of a frame of a valid table loads it and reports the frame's parts. -/
theorem frameUnpack_of_frameAt {s : State} {t : Table} {code : Bits} {p q w h k : Nat} {palette : List Byte}
    (hc : s.cfg.Legal) (hv : TableValid s.cfg t) (hcode : code.length < 2 ^ 32)
    (hm : InMemory s s.args.a0.toNat s.args.a1.toNat)
    (hf : FrameAt s.engineMem s.args.a0.toNat (tableBytes t ++ bitSeqOf code) p q w h palette)
    (hg : ¬ BadGeometry p q w h) (hk : palette.length = k * (3 * p * q))
    (hl : s.args.a1.toNat = 20 + (tableBytes t ++ bitSeqOf code).length + palette.length) :
    (commandPlan .frameUnpack s).outcome = .ok (storingNothing
      (unpackResults (s.args.a0.toNat + (4 + (tableBytes t).length + 1 + sel code.length)) code.length
        (s.args.a0.toNat + (4 + (tableBytes t ++ bitSeqOf code).length) + 16) k p q w h) (some t)) := by
  obtain ⟨hS, hblob, hp, hq, hw, hh, -⟩ := hf
  obtain ⟨htable, hbits⟩ := Memory.holds_append.1 hblob
  generalize hSlen : (tableBytes t ++ bitSeqOf code).length = S at *
  rw [List.length_append] at hSlen
  have hrest : s.args.a1.toNat - (4 + S + 16) = k * (3 * p * q) := by omega
  have hpos : 0 < 3 * p * q := by
    have hp0 : 0 < p := by simp only [BadGeometry] at hg; omega
    have hq0 : 0 < q := by simp only [BadGeometry] at hg; omega
    positivity
  rw [frameUnpack_outcome_eq_parseHeader hm hS.symm (by omega)
      (Memory.parseTable_of_tableBytes (lim := 4 + S) hc hv htable (by omega))
      (Memory.parseBitSeq_of_bitSeqOf hcode (by rwa [← Nat.add_assoc]) (by omega)),
    Memory.parseHeader_of_good (by simp only; omega) (by omega) hp.symm hq.symm hw.symm hh.symm hg
      (by rw [hrest, Nat.mul_mod_left]), hrest, Nat.mul_div_cancel _ hpos]

/-- Settles O52: each part of the frame reads back, and the parsers give the table and the code back. -/
theorem frameUnpackReadsTheFrame : Obligations.FrameUnpackReadsTheFrame := by
  rintro s t code palette _ _ p q w h k _ hc hd hv hcode rfl rfl hp hq hp32 hq32 hw32 hh32 hw hh hk rfl hl hm hholds
  have hlen := s.args.a1.isLt
  have hf := frameAt_of_holds hholds (by omega) hp32 hq32 hw32 hh32
  have hok := frameUnpack_of_frameAt hc hv hcode hm hf (not_badGeometry hp hq hw hh) hk hl
  refine ⟨?_, Memory.holdsBits_of_blob hf.holdsBlob⟩
  rw [exec_of_storingNothing hd hok]
  simp only [unpackResults_eq, Nat.add_assoc]
  rfl

/-! ## The round trip (R187) -/

/-- Where the code bits stand behind the start of the frame F. -/
def codeOffset (s : State) (t : Table) : Nat := 4 + (tableBytes t).length + 1 + sel s.args.a2.toNat

theorem codeOffset_le (s : State) (t : Table) : codeOffset s t ≤ 4 + (packedBlob s t).length := by
  rw [packedBlob_length, codeOffset]
  omega

section
variable {s : State} {t : Table} {p q w h : Nat} {palette : List Byte}

/-- The code bits of F are those FRAME_PACK found at csrc. -/
theorem bit_of_frameAt_packedBlob {m : Memory} {a : Nat} (hf : FrameAt m a (packedBlob s t) p q w h palette) {j : Nat}
    (hj : j < s.args.a2.toNat) : m.bit (a + codeOffset s t) j = s.engineMem.bit s.args.a1.toNat j := by
  have hlen := s.engineMem.bits_length s.args.a1.toNat s.args.a2.toNat
  have hbit := Memory.holdsBits_of_blob hf.holdsBlob j (by rwa [hlen])
  rw [Memory.bits_getElem] at hbit
  rw [← hbit, codeOffset, hlen]
  simp only [Nat.add_assoc]

/-- FRAME_UNPACK, started in `u` on the frame F of FRAME_PACK, started in `s`. -/
theorem exec_frameUnpack_of_packedBlob {u : State} {src k : Nat} (hd : u.disturbed = false) (hc : u.cfg.Legal)
    (hv : TableValid u.cfg t) (hsrc : u.args.a0.toNat = src)
    (hl : u.args.a1.toNat = 20 + (packedBlob s t).length + palette.length)
    (hm : src + (20 + (packedBlob s t).length + palette.length) ≤ u.cfg.memBytes)
    (hf : FrameAt u.engineMem src (packedBlob s t) p q w h palette) (hg : ¬ BadGeometry p q w h)
    (hk : palette.length = k * (3 * p * q)) :
    exec .frameUnpack u = .next (okState u u.mem (some t)
      (unpackResults (src + codeOffset s t) s.args.a2.toNat (src + (4 + (packedBlob s t).length) + 16) k p q w h)) := by
  subst hsrc
  rw [← hl] at hm
  have hlen := s.engineMem.bits_length s.args.a1.toNat s.args.a2.toNat
  have hok := frameUnpack_of_frameAt hc hv (by rw [hlen]; exact s.args.a2.isLt) (.inr hm) hf hg hk hl
  rw [hlen] at hok
  exact exec_of_storingNothing hd hok

end

/-- The start of FRAME_UNPACK on what FRAME_PACK, started in `s`, left in `t`: its source is the old destination, its length
is RES0, and the table memory holds anything. -/
def unpackStart (s t : State) (x : Option Table) : State :=
  { t with table := x, args := { t.args with a0 := s.args.a0, a1 := t.res.r0 } }

section
variable (s t : State) (x : Option Table)

@[simp] theorem unpackStart_cfg : (unpackStart s t x).cfg = t.cfg := rfl
@[simp] theorem unpackStart_mem : (unpackStart s t x).mem = t.mem := rfl
@[simp] theorem unpackStart_phase : (unpackStart s t x).phase = t.phase := rfl
@[simp] theorem unpackStart_a0 : (unpackStart s t x).args.a0 = s.args.a0 := rfl
@[simp] theorem unpackStart_a1 : (unpackStart s t x).args.a1 = t.res.r0 := rfl

end

@[simp] theorem okState_mem (s : State) (m : Memory) (t : Option Table) (r : Results) : (okState s m t r).mem = m := rfl
@[simp] theorem okState_res (s : State) (m : Memory) (t : Option Table) (r : Results) : (okState s m t r).res = r := rfl

/-- An Idle block reads the memory as it is. -/
theorem reads_of_idle {s : State} (h : s.phase = .idle) : s.engineMem = s.mem ∧ s.disturbed = false := by
  simp [State.engineMem, State.disturbed, h]

/-- A command that ends without ERR has succeeded. -/
theorem outcome_ok_of_err {i : Instr} {s t : State} (h : exec i s = .next t) (he : t.err = false) :
    ∃ e, (commandPlan i s).outcome = .ok e := by
  cases ho : (commandPlan i s).outcome with
  | ok e => exact ⟨e, rfl⟩
  | error r =>
    rw [exec_eq_complete, State.complete_error ho] at h
    cases h
    rw [State.raiseError_err] at he
    cases he

/-- The results of a success, whatever happens to the memory (R213). -/
theorem res_of_outcome_ok {i : Instr} {s t : State} {e : Effect} (h : exec i s = .next t)
    (he : (commandPlan i s).outcome = .ok e) : t.res = e.results := by
  rw [exec_eq_complete, State.complete_ok he] at h
  cases h
  exact State.completeOk_res ..

theorem lo32_toNat_of_lt {v : Nat} (h : v < 2 ^ 32) : (lo32 v).toNat = v := by
  rw [lo32_toNat, Nat.mod_eq_of_lt h]

theorem lo32_toNat_eq_self (w : Word) : lo32 w.toNat = w := by
  rw [lo32_eq_ofNat, BitVec.ofNat_toNat, BitVec.setWidth_eq]

/-- What FRAME_PACK leaves: the frame at dst, RES0 and RES1, and an Idle block with the same parameters (R182). -/
structure Packed (s t : State) (tb : Table) : Prop where
  cfg : t.cfg = s.cfg
  idle : t.phase = .idle
  length : t.res.r0.toNat = 20 + (packedBlob s tb).length + paletteLen s
  frame : FrameAt t.mem s.args.a0.toNat (packedBlob s tb) s.blkP.toNat s.blkQ.toNat s.imgW.toNat s.imgH.toNat
    (s.engineMem.bytes s.args.a3.toNat (paletteLen s))

theorem packed_of_exec {s t : State} {tb : Table} {e : Effect} (hd : s.disturbed = false) (ht : s.table = some tb)
    (he : (commandPlan .framePack s).outcome = .ok e) (hexec : exec .framePack s = .next t)
    (hlen : 20 + (packedBlob s tb).length + paletteLen s < 2 ^ 32)
    (hc : Apart s.args.a0.toNat (20 + (packedBlob s tb).length + paletteLen s) s.args.a1.toNat
      ((s.args.a2.toNat + 7) / 8))
    (hp : Apart s.args.a0.toNat (20 + (packedBlob s tb).length + paletteLen s) s.args.a3.toNat (paletteLen s)) :
    Packed s t tb := by
  obtain ⟨m, hpack, hholds, -⟩ := exec_framePack_of_ok hd ht he hc hp
  cases hexec.symm.trans hpack
  refine ⟨rfl, rfl, ?_, frameAt_of_packedFrame hholds (by omega)⟩
  rw [okState_res, packResults, lo32_toNat_of_lt (by rwa [packedFrame_length]), packedFrame_length]

/-- Settles O54: FRAME_PACK leaves a frame at dst and its length in RES0, which is what FRAME_UNPACK reads. -/
theorem frameRoundTrip : Obligations.FrameRoundTrip := by
  rintro s t tb x _ _ hc hd ht hv _ hexec hterr rfl rfl hlen hac hap
  have ⟨_, hbytes, _⟩ := hc
  obtain ⟨e, he⟩ := outcome_ok_of_err hexec hterr
  obtain ⟨hg, -, -, hdst, hstored⟩ := (framePack_eq_ok_iff ht).1 he
  have hfit := Or.resolve_left hdst (by omega)
  have hS : t.res.r1.toNat = (packedBlob s tb).length := by
    rw [res_of_outcome_ok hexec he, hstored]
    exact lo32_toNat_of_lt (by omega)
  rw [hS] at hlen hac hap
  obtain ⟨hcfg, hidle, hlength, hframe⟩ := packed_of_exec hd ht he hexec hlen hac hap
  have hpalette := s.engineMem.bytes_length s.args.a3.toNat (paletteLen s)
  obtain ⟨hmem, hdisturbed⟩ := reads_of_idle (s := unpackStart s t x) hidle
  have hunpack := exec_frameUnpack_of_packedBlob (s := s) (t := tb) (u := unpackStart s t x) (src := s.args.a0.toNat)
    hdisturbed (by rwa [unpackStart_cfg, hcfg]) (by rwa [unpackStart_cfg, hcfg]) (by rw [unpackStart_a0])
    (by rw [unpackStart_a1, hlength, hpalette]) (by rwa [unpackStart_cfg, hcfg, hpalette]) (hmem ▸ hframe) hg hpalette
  refine ⟨_, hunpack, hterr, rfl, rfl, ?_⟩
  simp only [okState_res, okState_mem, unpackStart_mem, unpackResults, lo32_toNat_eq_self, true_and]
  refine ⟨fun j hj => ?_, fun j hj => ?_⟩
  · have hle := codeOffset_le s tb
    rw [lo32_toNat_of_lt (by omega)]
    exact bit_of_frameAt_packedBlob hframe hj
  · have hpos : 0 < paletteLen s := Nat.zero_lt_of_lt hj
    rw [lo32_toNat_of_lt (by omega)]
    exact Memory.byte_of_holds_bytes hframe.holdsPalette hj

end Sys2Proof.Machine
end

section
/-! PROOFS of the family 44_system.md: NOP (R200). -/

open Sys2Proof.Claims

namespace Sys2Proof.Machine

/-- With no source to overlap and no byte to write, nothing lands in memory. -/
theorem land_storingNothing (s : State) (d : Range) (r : Results) (t : Option Table) :
    s.land d [] (storingNothing r t) = s := rfl

/-- A success without ranges leaves memory as it is, and so also after a host write while Busy (R213, 20_memory.md R67). -/
theorem completeOk_noRange (s : State) (r : Results) (t : Option Table) :
    s.completeOk noRange [] (storingNothing r t) = okState s s.mem (t.or s.table) r := by
  rw [State.completeOk, land_storingNothing, settle_noRange]
  rfl

/-- Settles O30: the word is NOP's encoding, and its plan succeeds without ranges, so also in a disturbed run. -/
theorem nopOnlyZeroesResults : Obligations.NopOnlyZeroesResults := by
  refine ⟨decode_encode .nop, fun s => ?_⟩
  rw [exec_eq_complete, State.complete_ok (p := commandPlan .nop s) rfl]
  exact congrArg _ (completeOk_noRange s {} none)

end Sys2Proof.Machine
end

section
/-! PROOFS of the family 60_exceptions.md: the interrupt's masking and clearing (R220), how every command completes (R213,
R214), the error codes (R211, R212), and the Idle block (R230). -/

open Sys2Proof.Claims

namespace Sys2Proof.Machine

/-! ## The interrupt (R220) -/

theorem irq_eq_false_iff {s : State} (h : s.irqEn = true) : s.irq = false ↔ s.done = false ∧ s.drop = false := by
  rw [State.irq, h, Bool.true_and, Bool.or_eq_false_iff]

theorem irq_of_not_irqEn {s : State} (h : s.irqEn = false) : s.irq = false := by rw [State.irq, h, Bool.false_and]

theorem irq_of_not_pending {s : State} (hdone : s.done = false) (hdrop : s.drop = false) : s.irq = false := by
  rw [State.irq, hdone, hdrop, Bool.or_false, Bool.and_false]

/-- Settles O15: each clause is what one register write does, to CTRL, STATUS or CMD, and what IRQ then is. -/
theorem irqMaskingAndClearing : Obligations.IrqMaskingAndClearing := by
  intro s w rest
  refine ⟨fun h h0 h1 => ?_, fun h h1 h3 => ?_, irq_eq_false_iff, fun h hb => ?_, fun h h1 => ?_⟩
  · obtain ⟨t, hstep, -, hmasked⟩ := ctrlWriteSetsIrqEnable s w rest h h1
    exact ⟨t, hstep, hmasked h0⟩
  · have hdone : (if w.getLsbD 1 then false else s.done) = false := if_pos h1
    have hdrop : (if w.getLsbD 3 then false else s.drop) = false := if_pos h3
    exact ⟨_, statusWriteClearsWrittenOnes s w rest h, hdone, hdrop, irq_of_not_pending hdone hdrop⟩
  · exact ⟨_, (cmdWriteStartsOrDrops s w rest h).1 hb, rfl, rfl⟩
  · refine ⟨_, step_writesReg .ctrl h, ?_⟩
    rw [State.writeReg, if_pos h1]
    exact ⟨rfl, irq_of_not_irqEn rfl⟩

/-! ## Completion (R213, R214) -/

/-- What a completion can change, whatever its outcome: memory, table, phase, STATUS, ERRINFO, RES and the draw counter
(R213, R214, 10_state.md R35). -/
theorem State.complete_eq_frame (s : State) (p : Plan) :
    s.complete p =
      { s with
        mem := (s.complete p).mem, table := (s.complete p).table, phase := .idle, done := true
        err := (s.complete p).err, errCode := (s.complete p).errCode, errClass := (s.complete p).errClass
        errInfo := (s.complete p).errInfo, res := (s.complete p).res, draws := (s.complete p).draws } := by
  cases ho : p.outcome with
  | ok e =>
    rw [State.complete_eq_okState ho]
    rfl
  | error x =>
    rw [State.complete_eq_errState ho]
    rfl

theorem loadsTable_of_loads {i : Instr} (s : State) (h : Loads i) : (commandPlan i s).loadsTable = true :=
  (loadsTable_eq i s).2 h

theorem loadsTable_of_not_loads {i : Instr} (s : State) (h : ¬ Loads i) : (commandPlan i s).loadsTable = false :=
  Bool.eq_false_iff.2 fun hl => h ((loadsTable_eq i s).1 hl)

/-- A loading command that succeeds names a table (R213). -/
theorem effect_table_of_loads {i : Instr} {s : State} {e : Effect} (ho : (commandPlan i s).outcome = .ok e)
    (h : Loads i) : ∃ t, e.table = some t := by
  have hloads := loadsTable_of_loads s h
  rcases commandPlan_ok ho with ⟨hnot, _⟩ | ⟨hnot, _⟩ | ⟨_, _, _, t, rfl⟩
  · cases hloads.symm.trans hnot
  · cases hloads.symm.trans hnot
  · exact ⟨t, rfl⟩

/-- Settles O24: the completion of any plan has this frame, and the plan's ranges bound the bytes it changes. -/
theorem everyCommandCompletesAndKeepsItsFrame : Obligations.EveryCommandCompletesAndKeepsItsFrame := by
  intro i s
  have hframe := s.complete_eq_frame (commandPlan i s)
  exact ⟨_, exec_eq_complete i s, congrArg State.phase hframe, congrArg State.done hframe, hframe,
    fun h => complete_table (loadsTable_of_not_loads s h), fun _ => complete_byte_outside i s,
    fun _ => State.complete_error_mem⟩

/-- Settles O26: the error or the clean success of the plan, where no common byte means no overlap. -/
theorem commandCompletesAsItsOutcomeSays : Obligations.CommandCompletesAsItsOutcomeSays := by
  intro i s hd
  refine ⟨fun k n ho => ⟨fun h => ?_, fun h => ?_⟩, fun e ho hapart => ?_⟩
  · rw [exec_eq_errState hd ho, if_pos (loadsTable_of_loads s h)]
  · rw [exec_eq_errState hd ho, if_neg (ne_true_of_eq_false (loadsTable_of_not_loads s h))]
  · have hclean : (commandPlan i s).sources.any (commandPlan i s).dest.overlaps = false := by
      refine List.any_eq_false.2 fun r hr hover => ?_
      obtain ⟨a, hdest, hsource⟩ := (overlaps_iff _ _).1 hover
      exact hapart r hr a hdest hsource
    rw [exec_eq_complete, State.complete_ok ho, State.completeOk_of_clean hd hclean]
    rfl

/-- Settles O25: the two outcomes of the plan; no error has the code or the class 0. -/
theorem commandSucceedsOrWritesNoMemory : Obligations.CommandSucceedsOrWritesNoMemory := by
  intro i s hd
  cases ho : (commandPlan i s).outcome with
  | error x =>
    exact ⟨_, exec_eq_errState hd ho, .inl ⟨rfl, rfl, rfl, errCode_ne_zero x.kind, errClass_ne_zero x.kind,
      fun h => if_pos (loadsTable_of_loads s h),
      fun h => if_neg (ne_true_of_eq_false (loadsTable_of_not_loads s h))⟩⟩
  | ok e =>
    refine ⟨_, exec_eq_complete i s, .inr ⟨?_, ?_, ?_, ?_, fun h => ?_,
      fun h => complete_table (loadsTable_of_not_loads s h)⟩⟩
    all_goals rw [State.complete_ok ho]
    · exact State.completeOk_err ..
    · exact State.completeOk_errCode ..
    · exact State.completeOk_errClass ..
    · exact State.completeOk_errInfo ..
    · obtain ⟨t, ht⟩ := effect_table_of_loads ho h
      rw [State.completeOk_table, ht]
      exact Option.some_ne_none t

/-! ## Error codes (R211, R212) -/

/-- Settles O27: the table of codes and classes, evaluated. -/
theorem errorCodesAndClasses : Obligations.ErrorCodesAndClasses := rfl

/-! ## The Idle block (R230) -/

/-- Settles O5: with no turn pending the engine has the turn, and an Idle engine does nothing. -/
theorem idleBlockKeepsAllState : Obligations.IdleBlockKeepsAllState := by
  intro s hidle hturns
  rw [step_of_no_turn hturns, engineTurn_of_idle (State.idle_of_isBusy hidle)]

end Sys2Proof.Machine
end

section
/-! PROOFS of the family 70_reset_and_hazards.md: what power-on reset and soft reset leave (R240, R241), and what the host
gets by keeping off the hazards (R244, R247). -/

open Sys2Proof.Claims

namespace Sys2Proof.Machine

/-! ## The reset values (R240) -/

/-- A reserved offset reads as 0 in every state (R21). -/
theorem readOffset_of_not_mapped {s : State} {off : Nat} (h : off ∉ mappedOffsets) : s.readOffset off = 0 := by
  have hnone : regAt off = none := regAt_eq_none fun r hr => h (hr ▸ regOffset_mem_mappedOffsets r)
  rw [State.readOffset, hnone]

theorem registersAtReset_powerOn (c : Params) (epoch : Nat) : RegistersAtReset (State.powerOn c epoch) := by
  have hmemsize : (State.powerOn c epoch).readOffset 0x080 = BitVec.ofNat 32 (c.memBytes % 2 ^ 32) :=
    (lo32_eq_ofNat c.memBytes).symm
  refine ⟨rfl, rfl, ?_, ?_, rfl, rfl, hmemsize, rfl, rfl, fun _ _ => readOffset_of_not_mapped⟩
  all_goals
    simp only [List.forall_mem_cons]
    exact ⟨rfl, rfl, rfl, rfl, rfl, rfl, rfl, rfl, rfl, rfl, rfl, List.forall_mem_nil _⟩

/-- No register shows the memory, the draw counter, the last value read or the turns to come. -/
theorem registersAtReset_congr {s : State} (h : RegistersAtReset s) (m : Memory) (k : Nat) (v : Word) (ts : List Turn) :
    RegistersAtReset { s with mem := m, draws := k, busData := v, inputs := ts } := by
  have hread : ∀ off, ({ s with mem := m, draws := k, busData := v, inputs := ts } : State).readOffset off =
      s.readOffset off := by
    intro off
    unfold State.readOffset
    cases regAt off with
    | none => rfl
    | some r => cases r <;> rfl
  simpa only [RegistersAtReset, hread] using h

theorem registersAtReset_powerOnReset (s : State) : RegistersAtReset s.powerOnReset :=
  registersAtReset_congr (registersAtReset_powerOn s.cfg (s.mem.epoch + 1)) _ s.draws s.busData s.inputs

theorem registersAtReset_softReset (s : State) : RegistersAtReset s.softReset :=
  registersAtReset_congr (registersAtReset_powerOn s.cfg s.mem.epoch) s.softReset.mem s.softReset.draws s.busData s.inputs

/-- Settles O16: the reset state is the power-on state for the parameters of the test vectors. -/
theorem resetStateIsAsSpecified : Obligations.ResetStateIsAsSpecified :=
  ⟨registersAtReset_powerOn _ _, rfl, rfl, rfl, rfl⟩

/-- Settles O57: the reset state has the reset values of table and flags, and its memory lists nothing. -/
theorem resetMeetsTheInvariant : Obligations.ResetMeetsTheInvariant :=
  State.inv_of_reset_values (by decide) (State.memoryGood_nil _ _) rfl rfl rfl rfl rfl

/-! ## Power-on reset as an event (R240) -/

theorem step_of_powerOn_turn {s : State} {rest : List Turn} (h : s.inputs = .powerOn :: rest) :
    step s = .next (State.powerOnReset { s with inputs := rest }) := by simp [step, h]

/-- Settles O18: the turn is a power-on reset, after which no byte is listed, so each reads as its power-on value. -/
theorem powerOnResetsEverything : Obligations.PowerOnResetsEverything := fun _ _ h =>
  ⟨_, step_of_powerOn_turn h, registersAtReset_powerOnReset _, rfl, rfl, rfl, rfl, rfl, rfl, fun _ => rfl⟩

/-! ## Soft reset (R241) -/

namespace State
variable {s : State}

theorem softReset_mem_of_idle (hb : s.isBusy = false) : s.softReset.mem = s.mem := by
  rw [softReset_mem, if_neg (ne_true_of_eq_false hb)]

theorem softReset_mem_of_error {x : Raise} (ho : s.runningPlan.outcome = .error x) : s.softReset.mem = s.mem := by
  rw [softReset_mem, ho, ite_self]

/-- A running command that would have succeeded leaves its destination unspecified. -/
theorem softReset_of_ok {e : Effect} (hb : s.isBusy = true) (ho : s.runningPlan.outcome = .ok e) :
    s.softReset.mem = (s.unspecify s.runningPlan.dest).mem ∧
      s.softReset.draws = (s.unspecify s.runningPlan.dest).draws := by
  simp only [softReset, hb, ho, if_true, and_self]

theorem softReset_draws_of_idle (hb : s.isBusy = false) : s.softReset.draws = s.draws := by
  simp only [softReset, hb, Bool.false_eq_true, if_false]

theorem softReset_inputs_eq (s : State) (ts : List Turn) :
    softReset { s with inputs := ts } = { s.softReset with inputs := ts } := by
  simp only [softReset, isBusy_inputs, runningPlan_inputs]
  cases s.isBusy with
  | false => rfl
  | true => cases s.runningPlan.outcome <;> rfl

end State

/-- A CTRL write with bit 1 = 1 is a soft reset, busy or not. -/
theorem step_softReset {s : State} {w : Word} {rest : List Turn} (h : WritesReg s 0x008 w rest)
    (h1 : w.getLsbD 1 = true) : step s = .next { s.softReset with inputs := rest } := by
  rw [step_writesReg .ctrl h, State.writeReg, if_pos h1, State.softReset_inputs_eq]

/-- The destination of a running command that would succeed lies in memory; an illegal word would not succeed. -/
theorem runningPlan_dest_lt {s : State} {e : Effect} (ho : s.runningPlan.outcome = .ok e) {a : Nat}
    (ha : s.runningPlan.dest.Has a) : a < s.cfg.memBytes := by
  cases hd : decode s.cmd with
  | error x =>
    rw [runningPlan_of_illegal hd] at ho
    cases ho
  | ok i =>
    rw [runningPlan_of_decode hd] at ho ha
    exact (commandPlan_dest ho).1 a ha

/-- Settles O17: the write is a soft reset, whose memory is the old one or, where the running command would have succeeded,
the one with its destination unspecified. -/
theorem softResetKeepsBufferMemory : Obligations.SoftResetKeepsBufferMemory := by
  intro s w rest h h1
  refine ⟨_, step_softReset h h1, registersAtReset_congr (registersAtReset_softReset s) _ _ _ rest, rfl, rfl, rfl, rfl,
    rfl, State.softReset_mem_of_idle, fun x _ ho => State.softReset_mem_of_error ho, fun e hb ho => ?_⟩
  obtain ⟨hmem, hdraws⟩ := State.softReset_of_ok hb ho
  simp only [hmem, hdraws]
  exact ⟨fun a => State.unspecify_byte_outside s _ a,
    fun a ha => State.unspecify_byte_free s _ a (runningPlan_dest_lt ho ha) ha⟩

/-! ## Steps that keep off the hazards (R244, R247) -/

/-- From s to t no free byte is drawn and DROP is not set: what a safe step asks of the two states. -/
def Quiet (s t : State) : Prop := t.draws = s.draws ∧ (t.drop = true → s.drop = true)

theorem quiet_of_eq {s t : State} (hdraws : t.draws = s.draws) (hdrop : t.drop = s.drop) : Quiet s t :=
  ⟨hdraws, fun h => hdrop ▸ h⟩

theorem quiet_of_drop_false {s t : State} (hdraws : t.draws = s.draws) (hdrop : t.drop = false) : Quiet s t :=
  ⟨hdraws, fun h => Bool.noConfusion (hdrop.symm.trans h)⟩

/-- An undisturbed completion draws only if a success's destination overlaps a source (20_memory.md R67, R68). -/
theorem complete_draws {s : State} {p : Plan} (hd : s.disturbed = false)
    (ho : ∀ e, p.outcome = .ok e → p.sources.any p.dest.overlaps = false) : (s.complete p).draws = s.draws := by
  cases h : p.outcome with
  | ok e => rw [State.complete_ok h, State.completeOk_of_clean hd (ho e h)]
  | error x => rw [State.complete_error h, State.raiseError_of_clean _ _ _ hd]

theorem engineTurn_quiet {s t : State} (hd : s.disturbed = false) (ho : s.isBusy = true → s.noOverlap)
    (h : engineTurn s = .next t) : Quiet s t := by
  cases hb : s.isBusy with
  | false =>
    rw [engineTurn_of_idle (State.idle_of_isBusy hb)] at h
    cases h
    exact quiet_of_eq rfl rfl
  | true =>
    rw [engineTurn_of_busy hb] at h
    cases h
    obtain ⟨-, -, hdrop, -⟩ := State.complete_frame s s.runningPlan
    exact quiet_of_eq (complete_draws hd (ho hb)) hdrop

theorem eq_cmd_or_mem_operandRegs_of_busyGuarded : ∀ {r : Reg}, busyGuarded r = true → r = .cmd ∨ r ∈ operandRegs := by
  intro r
  cases r <;> decide

/-- Of the registers that are not guarded only CTRL and STATUS take a write (R21, R33). -/
theorem writeReg_of_not_busyGuarded {s : State} {w : Word} {r : Reg} (hg : busyGuarded r = false) :
    r = .ctrl ∨ r = .status ∨ s.writeReg w r = s := by
  revert hg
  cases r <;> simp [busyGuarded, State.writeReg]

/-- A register write draws a byte or sets DROP only while Busy, in a soft reset or on a guarded register. -/
theorem writeReg_quiet {s : State} {r : Reg} (w : Word) (h : s.isBusy = true → busyGuarded r = false ∧ r ≠ .ctrl) :
    Quiet s (s.writeReg w r) := by
  cases hg : busyGuarded r with
  | true =>
    have hb : s.isBusy = false :=
      Bool.eq_false_iff.2 fun hb => Bool.noConfusion (hg.symm.trans (h hb).left)
    rcases eq_cmd_or_mem_operandRegs_of_busyGuarded hg with rfl | hr
    · rw [writeReg_cmd_of_idle w hb]
      exact quiet_of_eq rfl rfl
    · obtain ⟨_, _, _, _, _, _, hw⟩ := writeReg_operand_of_idle w hr hb
      rw [hw]
      exact quiet_of_eq rfl rfl
  | false =>
    rcases writeReg_of_not_busyGuarded (s := s) (w := w) hg with rfl | rfl | hw
    · have hb : s.isBusy = false := Bool.eq_false_iff.2 fun hb => (h hb).right rfl
      rw [State.writeReg]
      split
      · exact quiet_of_drop_false (State.softReset_draws_of_idle hb) rfl
      · exact quiet_of_eq rfl rfl
    · exact ⟨rfl, fun hdrop => (Bool.and_eq_true_iff.1 hdrop).1⟩
    · rw [hw]
      exact quiet_of_eq rfl rfl

theorem writeOffset_quiet {s : State} {off : Nat} (w : Word)
    (h : s.isBusy = true → ∀ r, regAt off = some r → busyGuarded r = false ∧ r ≠ .ctrl) :
    Quiet s (s.writeOffset off w) := by
  unfold State.writeOffset
  cases hr : regAt off with
  | none => exact quiet_of_eq rfl rfl
  | some r => exact writeReg_quiet w fun hb => h hb r hr

theorem readBuffer_quiet_of_idle {s : State} (hb : s.isBusy = false) (a n : Nat) : Quiet s (s.readBuffer a n) := by
  rw [State.readBuffer_of_idle hb]
  exact quiet_of_eq rfl rfl

theorem busAccess_quiet_of_idle {s t : State} {x : BusAccess} (hb : s.isBusy = false) (h : s.busAccess x = .next t) :
    Quiet s t := by
  rcases busAccess_cases h with ⟨_, rfl⟩ | ⟨_, w, rfl⟩ | ⟨a, n, _, rfl⟩ | ⟨_, _, _, _, rfl⟩
  · exact quiet_of_eq rfl rfl
  · exact writeOffset_quiet w fun hb' => Bool.noConfusion (hb.symm.trans hb')
  · exact readBuffer_quiet_of_idle hb a n
  · exact quiet_of_eq rfl rfl

/-- An access that is no busy hazard goes to the register region, and if it is a write, to no guarded register. -/
theorem register_access_of_not_busyHazard {c : Params} {x : BusAccess} (h : busyHazard c x = false) :
    (c.regBase ≤ x.addr ∧ x.addr < c.regBase + 0x1000) ∧
      ∀ d r, x.op = .write d → regAt (x.addr - c.regBase) = some r → busyGuarded r = false := by
  unfold busyHazard at h
  split at h
  · refine ⟨‹_›, fun d r hop hr => ?_⟩
    simpa only [hop, hr] using h
  · cases h

/-- What a register access that answers a next state did. -/
theorem registerAccess_cases {s t : State} {off n : Nat} {op : BusOp} (h : s.registerAccess off n op = .next t) :
    t = { s with busData := s.readOffset off } ∨ ∃ d, op = .write d ∧ t = s.writeOffset off (s.writeValue d) := by
  unfold State.registerAccess at h
  split at h
  · cases op with
    | read => exact .inl (by simpa using h.symm)
    | write d => exact .inr ⟨d, rfl, by simpa using h.symm⟩
  · cases h

theorem busAccess_quiet {s t : State} {x : BusAccess}
    (hx : s.isBusy = true → busyHazard s.cfg x = false ∧ ¬ (s.cfg.regBase + 0x008 = x.addr ∧ ∃ d, x.op = .write d))
    (h : s.busAccess x = .next t) : Quiet s t := by
  cases hb : s.isBusy with
  | false => exact busAccess_quiet_of_idle hb h
  | true =>
    obtain ⟨hhazard, hctrl⟩ := hx hb
    obtain ⟨hregion, hguarded⟩ := register_access_of_not_busyHazard hhazard
    rw [State.busAccess, if_pos hregion] at h
    rcases registerAccess_cases h with rfl | ⟨d, hop, rfl⟩
    · exact quiet_of_eq rfl rfl
    · refine writeOffset_quiet _ fun _ r hr => ⟨hguarded d r hop hr, ?_⟩
      rintro rfl
      have hoff : 0x008 = x.addr - s.cfg.regBase := regOffset_of_regAt hr
      exact hctrl ⟨by omega, d, hop⟩

theorem poll_quiet (s : State) : Quiet s s.poll := by
  unfold State.poll
  split <;> exact quiet_of_eq rfl rfl

theorem noOverlap_inputs {s : State} (ts : List Turn) (h : s.noOverlap) : ({ s with inputs := ts } : State).noOverlap := by
  simpa only [State.noOverlap, runningPlan_inputs] using h

/-- Settles O60: each of the four turns is quiet, the host's because it keeps off the hazards. -/
theorem hazardFreeStepDrawsNothing : Obligations.HazardFreeStepDrawsNothing := by
  intro s t hd ho hx h
  have hquiet : Quiet s t := by
    rcases step_cases h with ⟨s0, hs, he⟩ | ⟨x, rest, hin, hbus⟩ | ⟨rest, _, rfl⟩ | ⟨rest, _, rfl⟩
    · rcases hs with rfl | ⟨rest, _, rfl⟩
      · exact engineTurn_quiet hd ho he
      · exact engineTurn_quiet (s := { s with inputs := rest }) hd (fun hb => noOverlap_inputs rest (ho hb)) he
    · exact busAccess_quiet (s := { s with inputs := rest }) (hx x rest hin) hbus
    · exact poll_quiet { s with inputs := rest }
    · exact quiet_of_drop_false rfl rfl
  exact ⟨h, hquiet⟩

end Sys2Proof.Machine
end
